-- ==== Sys2Proof/Word.lean ====
section
/-! DEFINITION. The byte and the byte sequence, the only data FRC moves (00_scope.md R17, 20_memory.md R51). -/

namespace Sys2Proof

/-- A byte, compared for equality only (R17). -/
abbrev Byte := BitVec 8

/-- A byte sequence; index 0 is the byte received or transmitted first (R17, R51). -/
abbrev ByteSeq := List Byte

end Sys2Proof
end

