-- ==== Sys2Proof/Config.lean ====
section
/-! DEFINITION. The constants of FRC as plain data, the constraints P1 to P5 on them, and the one free value of the model. -/

namespace Sys2Proof

/-- The two kinds of channel (00_scope.md R12). -/
inductive ChannelKind where
  | stream
  | datagram
  deriving DecidableEq, Repr

/-- The constants of rules R7 to R11. The state carries one value of this type and no operation writes it (10_state.md R27). -/
structure Config where
  /-- `ESC`, the escape byte (R7). -/
  esc : Byte
  /-- `H0`, the header byte that comes first on the wire (R8). -/
  h0 : Byte
  /-- `H1` (R8). -/
  h1 : Byte
  /-- `F0`, the footer byte that comes first on the wire (R9). -/
  f0 : Byte
  /-- `F1` (R9). -/
  f1 : Byte
  /-- `MAX_FRAME`, the capacity of a channel's frame buffer (R10). -/
  maxFrame : Nat
  /-- `RX_BURST_CAP`, the most bytes one POLL consumes (R11). -/
  burstCap : Nat
  deriving DecidableEq, Repr

namespace Config

/-- The values of this hardware (00_scope.md section 4, decisions D1 to D3). -/
def frc : Config :=
  { esc := 0x5C, h0 := 0x45, h1 := 0x44, f0 := 0x4D, f1 := 0x4F, maxFrame := 512, burstCap := 1024 }

/-- `HDR` as an ordered pair (20_memory.md R52). -/
def hdr (cfg : Config) : Byte × Byte := (cfg.h0, cfg.h1)

/-- `FTR` as an ordered pair (R52). -/
def ftr (cfg : Config) : Byte × Byte := (cfg.f0, cfg.f1)

/-- The header as the two bytes of the wire (R80). -/
def hdrBytes (cfg : Config) : ByteSeq := [cfg.h0, cfg.h1]

/-- The footer as the two bytes of the wire (R80). -/
def ftrBytes (cfg : Config) : ByteSeq := [cfg.f0, cfg.f1]

/-- The constraints P1 to P5 of R13. -/
def wf (cfg : Config) : Bool :=
  -- P1: the escape byte is no marker byte
  cfg.esc != cfg.h0 && cfg.esc != cfg.h1 && cfg.esc != cfg.f0 && cfg.esc != cfg.f1
  -- P2: header and footer differ as pairs
  && cfg.hdr != cfg.ftr
  -- P3: no second byte of a marker is a first byte of one
  && cfg.h1 != cfg.h0 && cfg.h1 != cfg.f0 && cfg.f1 != cfg.h0 && cfg.f1 != cfg.f0
  -- P4 and P5
  && decide (4 ≤ cfg.maxFrame) && decide (1 ≤ cfg.burstCap)

/-- FREE VALUE (93_implementation_defined.md U11, 42_datagram.md R182, log 16): how many pending datagrams poll number `n` of
datagram channel `c` offers to handle. It has no body, so nothing can be proved of its values. -/
opaque datagramsPerPoll : (c n : Nat) → Nat

end Config

end Sys2Proof
end

