-- ==== Sys2Proof/Syntax.lean ====
section
/-! DEFINITION. The 22 rows of spec/opcode_table.json as one inductive type. -/

namespace Sys2Proof

/-- One constructor for each row of the opcode table, in the table's order. A channel operand is the channel's number. -/
inductive Instr where
  /-- HDR, wire symbol (R81). -/
  | hdr
  /-- FTR, wire symbol (R82). -/
  | ftr
  /-- ESC, wire symbol (R83). -/
  | esc
  /-- LITERAL, wire symbol (R84). -/
  | literal (b : Byte)
  /-- ESCLEN p (R110). -/
  | esclen (p : ByteSeq)
  /-- ENCODE p (R111). -/
  | encode (p : ByteSeq)
  /-- DECODE b (R112). -/
  | decode (b : ByteSeq)
  /-- TXFRAME p (R113). -/
  | txframe (p : ByteSeq)
  /-- RXBYTE c b (R140). -/
  | rxbyte (c : Nat) (b : Byte)
  /-- RXBYTE.APPEND, part 0 of RXBYTE (R141). -/
  | rxbyteAppend (c : Nat) (b : Byte)
  /-- RXBYTE.HDRMATCH, outcome 1 (R142). -/
  | rxbyteHdrMatch (c : Nat)
  /-- RXBYTE.IDLEDISCARD, outcome 2 (R143). -/
  | rxbyteIdleDiscard (c : Nat)
  /-- RXBYTE.IDLEHOLD, outcome 3 (R144). -/
  | rxbyteIdleHold (c : Nat)
  /-- RXBYTE.FRAMEDONE, outcome 4 (R145). -/
  | rxbyteFrameDone (c : Nat)
  /-- RXBYTE.OVERFLOW, outcome 5 (R146). -/
  | rxbyteOverflow (c : Nat)
  /-- RXBYTE.ACCUM, outcome 6 (R147). -/
  | rxbyteAccum (c : Nat)
  /-- POLL c (R150). -/
  | poll (c : Nat)
  /-- RXDGRAM c d (R180). -/
  | rxdgram (c : Nat) (d : ByteSeq)
  /-- RESET c (R190). -/
  | reset (c : Nat)
  /-- DISPATCH c f (R191). -/
  | dispatch (c : Nat) (f : ByteSeq)
  /-- RXSEQ c bs, pseudo-operation (R94). -/
  | rxseq (c : Nat) (bs : ByteSeq)
  /-- ARRIVE c bs, a move of the environment (R94). -/
  | arrive (c : Nat) (bs : ByteSeq)
  deriving DecidableEq, Repr

namespace Instr

/-- The four rows that are symbols of the wire (30_encoding.md section 2). -/
def isSymbol : Instr → Bool
  | hdr => true
  | ftr => true
  | esc => true
  | literal _ => true
  | esclen _ => false
  | encode _ => false
  | decode _ => false
  | txframe _ => false
  | rxbyte _ _ => false
  | rxbyteAppend _ _ => false
  | rxbyteHdrMatch _ => false
  | rxbyteIdleDiscard _ => false
  | rxbyteIdleHold _ => false
  | rxbyteFrameDone _ => false
  | rxbyteOverflow _ => false
  | rxbyteAccum _ => false
  | poll _ => false
  | rxdgram _ _ => false
  | reset _ => false
  | dispatch _ _ => false
  | rxseq _ _ => false
  | arrive _ _ => false

/-- The rows that 30_encoding.md R93 lets stand as a line of a program. The parts of RXBYTE never stand alone, because no agent
can observe the buffer between the append and the checks (20_memory.md R56); DISPATCH is performed "never on its own" (R191). -/
def isProgramLine : Instr → Bool
  | hdr => false
  | ftr => false
  | esc => false
  | literal _ => false
  | esclen _ => true
  | encode _ => true
  | decode _ => true
  | txframe _ => true
  | rxbyte _ _ => true
  | rxbyteAppend _ _ => false
  | rxbyteHdrMatch _ => false
  | rxbyteIdleDiscard _ => false
  | rxbyteIdleHold _ => false
  | rxbyteFrameDone _ => false
  | rxbyteOverflow _ => false
  | rxbyteAccum _ => false
  | poll _ => true
  | rxdgram _ _ => true
  | reset _ => true
  | dispatch _ _ => false
  | rxseq _ _ => true
  | arrive _ _ => true

/-- The channel an instruction names, if it names one. -/
def channel? : Instr → Option Nat
  | hdr => none
  | ftr => none
  | esc => none
  | literal _ => none
  | esclen _ => none
  | encode _ => none
  | decode _ => none
  | txframe _ => none
  | rxbyte c _ => some c
  | rxbyteAppend c _ => some c
  | rxbyteHdrMatch c => some c
  | rxbyteIdleDiscard c => some c
  | rxbyteIdleHold c => some c
  | rxbyteFrameDone c => some c
  | rxbyteOverflow c => some c
  | rxbyteAccum c => some c
  | poll c => some c
  | rxdgram c _ => some c
  | reset c => some c
  | dispatch c _ => some c
  | rxseq c _ => some c
  | arrive c _ => some c

end Instr

end Sys2Proof
end

