-- ==== Sys2Proof/WellFormed.lean ====
section
/-! DEFINITION. When an instruction's operands are ones the spec gives it a meaning for, in a configuration and a list of channel kinds. -/

namespace Sys2Proof

/-- The shape of a decoded frame, the operand of DISPATCH (43_system.md R191): header first, footer last, 4 to MAX_FRAME bytes. -/
def isFrame (cfg : Config) (f : ByteSeq) : Bool :=
  f.take 2 == cfg.hdrBytes && f.drop (f.length - 2) == cfg.ftrBytes
    && decide (4 ≤ f.length) && decide (f.length ≤ cfg.maxFrame)

/-- Channel `c` exists and is of kind `k` (R12). -/
def hasKind (kinds : List ChannelKind) (c : Nat) (k : ChannelKind) : Bool :=
  kinds[c]? == some k

namespace Instr

/-- Well-formedness. A literal is not the escape byte (R84); RXBYTE, its parts and RXSEQ name a stream channel, RXDGRAM a datagram
channel (R14), POLL, RESET, ARRIVE and DISPATCH any channel that exists (R12); DISPATCH carries a decoded frame (R191). -/
def wellFormed (cfg : Config) (kinds : List ChannelKind) : Instr → Bool
  | hdr => true
  | ftr => true
  | esc => true
  | literal b => b != cfg.esc
  | esclen _ => true
  | encode _ => true
  | decode _ => true
  | txframe _ => true
  | rxbyte c _ => hasKind kinds c .stream
  | rxbyteAppend c _ => hasKind kinds c .stream
  | rxbyteHdrMatch c => hasKind kinds c .stream
  | rxbyteIdleDiscard c => hasKind kinds c .stream
  | rxbyteIdleHold c => hasKind kinds c .stream
  | rxbyteFrameDone c => hasKind kinds c .stream
  | rxbyteOverflow c => hasKind kinds c .stream
  | rxbyteAccum c => hasKind kinds c .stream
  | poll c => decide (c < kinds.length)
  | rxdgram c _ => hasKind kinds c .datagram
  | reset c => decide (c < kinds.length)
  | dispatch c f => decide (c < kinds.length) && isFrame cfg f
  | rxseq c _ => hasKind kinds c .stream
  | arrive c _ => decide (c < kinds.length)

end Instr

end Sys2Proof
end

