-- ==== Sys2Proof/Decode.lean ====
section
/-! DEFINITION. The decoders and the encoder: wire symbols from the bytes of a stream (30_encoding.md section 2), operations from the
written syntax of 30_encoding.md R93. The third encoding, the selector of R95, is in Machine/Flags.lean because it reads the state. -/

namespace Sys2Proof

/-- Why a text or a stream is not decoded, by name. -/
inductive Reject where
  /-- there is no byte to decode -/
  | nothingToDecode
  /-- the first word of the line is no mnemonic of the opcode table -/
  | unknownMnemonic
  /-- the operands are not those that R93 gives the mnemonic -/
  | badOperands
  deriving DecidableEq, Repr

/-! ### Wire symbols -/

/-- The symbol of one byte: ESC or a literal (R83, R84). -/
def decodeSingle (cfg : Config) (b : Byte) : Instr :=
  if b = cfg.esc then .esc else .literal b

/-- The first symbol of a stream and the bytes after it. A marker pair is one symbol (R81, R82), every other byte is one symbol
(R83, R84). Nothing but an empty stream is rejected: no byte value is reserved (R89). -/
def decodeSymbol (cfg : Config) : ByteSeq → Except Reject (Instr × ByteSeq)
  | [] => .error .nothingToDecode
  | [b] => .ok (decodeSingle cfg b, [])
  | b :: b' :: rest =>
    if (b, b') = cfg.hdr then .ok (.hdr, rest)
    else if (b, b') = cfg.ftr then .ok (.ftr, rest)
    else .ok (decodeSingle cfg b, b' :: rest)

/-! ### Characters of the written syntax -/

/-- The ASCII code of a character (log 6). -/
def ascii (c : Char) : Byte := BitVec.ofNat 8 c.toNat

def spaceByte : Byte := 0x20
def newlineByte : Byte := 0x0A

/-- The characters of a word, as bytes. -/
def asciiWord (cs : List Char) : ByteSeq := cs.map ascii

/-- Value of a decimal digit. -/
def decimalVal (b : Byte) : Option Nat :=
  if 0x30 ≤ b.toNat ∧ b.toNat ≤ 0x39 then some (b.toNat - 0x30) else none

/-- The character of a decimal digit. -/
def decimalDigit (d : Nat) : Byte := BitVec.ofNat 8 (0x30 + d)

/-- Value of a hexadecimal digit, of either case. -/
def hexVal (b : Byte) : Option Nat :=
  if 0x30 ≤ b.toNat ∧ b.toNat ≤ 0x39 then some (b.toNat - 0x30)
  else if 0x41 ≤ b.toNat ∧ b.toNat ≤ 0x46 then some (b.toNat - 0x37)
  else if 0x61 ≤ b.toNat ∧ b.toNat ≤ 0x66 then some (b.toNat - 0x57)
  else none

/-- The character of a hexadecimal digit, capital as the spec writes them. -/
def hexDigit (d : Nat) : Byte :=
  if d < 10 then BitVec.ofNat 8 (0x30 + d) else BitVec.ofNat 8 (0x37 + d)

/-! ### Reading operands -/

/-- Reads exactly the character `b`. -/
def readChar (b : Byte) : ByteSeq → Option ByteSeq
  | [] => none
  | x :: rest => if x = b then some rest else none

/-- Reads the decimal digits at the head, after a number already read. -/
def readDigits (acc : Nat) : ByteSeq → Nat × ByteSeq
  | [] => (acc, [])
  | b :: rest =>
    match decimalVal b with
    | some d => readDigits (10 * acc + d) rest
    | none => (acc, b :: rest)

/-- R93: `chan := "c" decimal`. -/
def readChan : ByteSeq → Option (Nat × ByteSeq)
  | c :: d :: rest =>
    if c = ascii 'c' then
      match decimalVal d with
      | some v => some (readDigits v rest)
      | none => none
    else none
  | [_] => none
  | [] => none

/-- The byte that two hexadecimal digits write. -/
def hexPair (hi lo : Byte) : Option Byte :=
  match hexVal hi, hexVal lo with
  | some h, some l => some (BitVec.ofNat 8 (16 * h + l))
  | some _, none => none
  | none, _ => none

/-- R93: `byte := two hexadecimal digits`. -/
def readByte : ByteSeq → Option (Byte × ByteSeq)
  | hi :: lo :: rest => (hexPair hi lo).map (fun b => (b, rest))
  | [_] => none
  | [] => none

/-- The rest of a byte list after its first byte: a space and a byte any number of times, then the closing bracket. -/
def readBytesTail : ByteSeq → Option (ByteSeq × ByteSeq)
  | [] => none
  | [x] => if x = ascii ']' then some ([], []) else none
  | [x, y] => if x = ascii ']' then some ([], [y]) else none
  | x :: hi :: lo :: rest =>
    if x = ascii ']' then some ([], hi :: lo :: rest)
    else if x = spaceByte then
      match hexPair hi lo, readBytesTail rest with
      | some b, some (bs, rest') => some (b :: bs, rest')
      | some _, none => none
      | none, _ => none
    else none

/-- R93: `bytes := "[" byte* "]"`. -/
def readBytes : ByteSeq → Option (ByteSeq × ByteSeq)
  | [] => none
  | x :: rest =>
    if x = ascii '[' then
      match readChar (ascii ']') rest with
      | some rest' => some ([], rest')
      | none =>
        match readByte rest with
        | some (b, rest') => (readBytesTail rest').map (fun r => (b :: r.1, r.2))
        | none => none
    else none

/-! ### Operations of the written syntax -/

/-- The rows of the opcode table that are written as a line. -/
inductive Op where
  | esclen | encode | decode | txframe
  | rxbyte | rxbyteAppend | rxbyteHdrMatch | rxbyteIdleDiscard | rxbyteIdleHold | rxbyteFrameDone | rxbyteOverflow | rxbyteAccum
  | poll | rxdgram | reset | dispatch | rxseq | arrive
  deriving DecidableEq, Repr

namespace Op

/-- Every operation, in the table's order. -/
def all : List Op :=
  [esclen, encode, decode, txframe, rxbyte, rxbyteAppend, rxbyteHdrMatch, rxbyteIdleDiscard, rxbyteIdleHold]
    ++ [rxbyteFrameDone, rxbyteOverflow, rxbyteAccum, poll, rxdgram, reset, dispatch, rxseq, arrive]

/-- The mnemonic of the opcode table, letter for letter. -/
def word : Op → ByteSeq
  | esclen => asciiWord ['E', 'S', 'C', 'L', 'E', 'N']
  | encode => asciiWord ['E', 'N', 'C', 'O', 'D', 'E']
  | decode => asciiWord ['D', 'E', 'C', 'O', 'D', 'E']
  | txframe => asciiWord ['T', 'X', 'F', 'R', 'A', 'M', 'E']
  | rxbyte => asciiWord ['R', 'X', 'B', 'Y', 'T', 'E']
  | rxbyteAppend => asciiWord ['R', 'X', 'B', 'Y', 'T', 'E', '.', 'A', 'P', 'P', 'E', 'N', 'D']
  | rxbyteHdrMatch => asciiWord ['R', 'X', 'B', 'Y', 'T', 'E', '.', 'H', 'D', 'R', 'M', 'A', 'T', 'C', 'H']
  | rxbyteIdleDiscard =>
    asciiWord ['R', 'X', 'B', 'Y', 'T', 'E', '.', 'I', 'D', 'L', 'E', 'D', 'I', 'S', 'C', 'A', 'R', 'D']
  | rxbyteIdleHold => asciiWord ['R', 'X', 'B', 'Y', 'T', 'E', '.', 'I', 'D', 'L', 'E', 'H', 'O', 'L', 'D']
  | rxbyteFrameDone => asciiWord ['R', 'X', 'B', 'Y', 'T', 'E', '.', 'F', 'R', 'A', 'M', 'E', 'D', 'O', 'N', 'E']
  | rxbyteOverflow => asciiWord ['R', 'X', 'B', 'Y', 'T', 'E', '.', 'O', 'V', 'E', 'R', 'F', 'L', 'O', 'W']
  | rxbyteAccum => asciiWord ['R', 'X', 'B', 'Y', 'T', 'E', '.', 'A', 'C', 'C', 'U', 'M']
  | poll => asciiWord ['P', 'O', 'L', 'L']
  | rxdgram => asciiWord ['R', 'X', 'D', 'G', 'R', 'A', 'M']
  | reset => asciiWord ['R', 'E', 'S', 'E', 'T']
  | dispatch => asciiWord ['D', 'I', 'S', 'P', 'A', 'T', 'C', 'H']
  | rxseq => asciiWord ['R', 'X', 'S', 'E', 'Q']
  | arrive => asciiWord ['A', 'R', 'R', 'I', 'V', 'E']

end Op

/-- The operation a word names. -/
def opOf (w : ByteSeq) : Option Op := Op.all.find? (fun o => o.word == w)

/-- The first word of a text, up to a space or the end of the line, and the rest. -/
def takeWord : ByteSeq → ByteSeq × ByteSeq
  | [] => ([], [])
  | b :: rest =>
    if b = spaceByte ∨ b = newlineByte then ([], b :: rest)
    else let r := takeWord rest; (b :: r.1, r.2)

/-- The operands of a line `<mnemonic> chan`, with the end of the line. -/
def readLineChan (k : Nat → Instr) (t : ByteSeq) : Option (Instr × ByteSeq) :=
  (readChar spaceByte t).bind fun t1 =>
  (readChan t1).bind fun r =>
  (readChar newlineByte r.2).map fun t2 => (k r.1, t2)

/-- The operands of a line `<mnemonic> chan byte`. -/
def readLineChanByte (k : Nat → Byte → Instr) (t : ByteSeq) : Option (Instr × ByteSeq) :=
  (readChar spaceByte t).bind fun t1 =>
  (readChan t1).bind fun r =>
  (readChar spaceByte r.2).bind fun t2 =>
  (readByte t2).bind fun q =>
  (readChar newlineByte q.2).map fun t3 => (k r.1 q.1, t3)

/-- The operands of a line `<mnemonic> chan bytes`. -/
def readLineChanBytes (k : Nat → ByteSeq → Instr) (t : ByteSeq) : Option (Instr × ByteSeq) :=
  (readChar spaceByte t).bind fun t1 =>
  (readChan t1).bind fun r =>
  (readChar spaceByte r.2).bind fun t2 =>
  (readBytes t2).bind fun q =>
  (readChar newlineByte q.2).map fun t3 => (k r.1 q.1, t3)

/-- The operands of a line `<mnemonic> bytes`. -/
def readLineBytes (k : ByteSeq → Instr) (t : ByteSeq) : Option (Instr × ByteSeq) :=
  (readChar spaceByte t).bind fun t1 =>
  (readBytes t1).bind fun q =>
  (readChar newlineByte q.2).map fun t2 => (k q.1, t2)

/-- The operands each operation takes: R93 for the lines of a program, the "encoding" column of the opcode table for DISPATCH, and
the operands of R141 to R147 in the same style for the parts of RXBYTE (log 6). -/
def readOperands : Op → ByteSeq → Option (Instr × ByteSeq)
  | .esclen => readLineBytes .esclen
  | .encode => readLineBytes .encode
  | .decode => readLineBytes .decode
  | .txframe => readLineBytes .txframe
  | .rxbyte => readLineChanByte .rxbyte
  | .rxbyteAppend => readLineChanByte .rxbyteAppend
  | .rxbyteHdrMatch => readLineChan .rxbyteHdrMatch
  | .rxbyteIdleDiscard => readLineChan .rxbyteIdleDiscard
  | .rxbyteIdleHold => readLineChan .rxbyteIdleHold
  | .rxbyteFrameDone => readLineChan .rxbyteFrameDone
  | .rxbyteOverflow => readLineChan .rxbyteOverflow
  | .rxbyteAccum => readLineChan .rxbyteAccum
  | .poll => readLineChan .poll
  | .rxdgram => readLineChanBytes .rxdgram
  | .reset => readLineChan .reset
  | .dispatch => readLineChanBytes .dispatch
  | .rxseq => readLineChanBytes .rxseq
  | .arrive => readLineChanBytes .arrive

/-- The first line of a text, as an instruction, and the text after it. Total on any bytes, rejecting by name. -/
def decodeLine : ByteSeq → Except Reject (Instr × ByteSeq)
  | [] => .error .nothingToDecode
  | b :: t =>
    let w := takeWord (b :: t)
    match opOf w.1 with
    | none => .error .unknownMnemonic
    | some o =>
      match readOperands o w.2 with
      | none => .error .badOperands
      | some r => .ok r

/-! ### The encoder, written from the same rules -/

/-- Decimal digits, most significant first; the first argument bounds their number. -/
def decimalDigits : Nat → Nat → ByteSeq
  | 0, _ => []
  | fuel + 1, n => if n < 10 then [decimalDigit n] else decimalDigits fuel (n / 10) ++ [decimalDigit (n % 10)]

/-- R93: `"c" decimal`. -/
def chanText (c : Nat) : ByteSeq := ascii 'c' :: decimalDigits (c + 1) c

/-- R93: two hexadecimal digits. -/
def byteText (b : Byte) : ByteSeq := [hexDigit (b.toNat / 16), hexDigit (b.toNat % 16)]

/-- The bytes of a list after its first, each after a space, and the closing bracket. -/
def bytesTextTail : ByteSeq → ByteSeq
  | [] => [ascii ']']
  | b :: bs => spaceByte :: byteText b ++ bytesTextTail bs

/-- R93: `"[" byte* "]"`. -/
def bytesText : ByteSeq → ByteSeq
  | [] => [ascii '[', ascii ']']
  | b :: bs => ascii '[' :: byteText b ++ bytesTextTail bs

def lineChan (o : Op) (c : Nat) : ByteSeq :=
  o.word ++ spaceByte :: chanText c ++ [newlineByte]

def lineChanByte (o : Op) (c : Nat) (b : Byte) : ByteSeq :=
  o.word ++ spaceByte :: chanText c ++ spaceByte :: byteText b ++ [newlineByte]

def lineChanBytes (o : Op) (c : Nat) (bs : ByteSeq) : ByteSeq :=
  o.word ++ spaceByte :: chanText c ++ spaceByte :: bytesText bs ++ [newlineByte]

def lineBytes (o : Op) (bs : ByteSeq) : ByteSeq :=
  o.word ++ spaceByte :: bytesText bs ++ [newlineByte]

/-- The bytes of an instruction: of the wire for a symbol, of the written syntax for an operation. -/
def encode (cfg : Config) : Instr → ByteSeq
  | .hdr => cfg.hdrBytes
  | .ftr => cfg.ftrBytes
  | .esc => [cfg.esc]
  | .literal b => [b]
  | .esclen p => lineBytes .esclen p
  | .encode p => lineBytes .encode p
  | .decode b => lineBytes .decode b
  | .txframe p => lineBytes .txframe p
  | .rxbyte c b => lineChanByte .rxbyte c b
  | .rxbyteAppend c b => lineChanByte .rxbyteAppend c b
  | .rxbyteHdrMatch c => lineChan .rxbyteHdrMatch c
  | .rxbyteIdleDiscard c => lineChan .rxbyteIdleDiscard c
  | .rxbyteIdleHold c => lineChan .rxbyteIdleHold c
  | .rxbyteFrameDone c => lineChan .rxbyteFrameDone c
  | .rxbyteOverflow c => lineChan .rxbyteOverflow c
  | .rxbyteAccum c => lineChan .rxbyteAccum c
  | .poll c => lineChan .poll c
  | .rxdgram c d => lineChanBytes .rxdgram c d
  | .reset c => lineChan .reset c
  | .dispatch c f => lineChanBytes .dispatch c f
  | .rxseq c bs => lineChanBytes .rxseq c bs
  | .arrive c bs => lineChanBytes .arrive c bs

/-! ### The opcode table's words -/

/-- The bytes of a table word as the wire carries them: a 16-bit symbol's older byte is in bits 15:8 (R81, R82 and the table's
"format" column), an 8-bit symbol is followed by the zero that stands above its bits (log 9). -/
def tableBytes (nbits w : Nat) : ByteSeq :=
  if nbits ≤ 8 then [BitVec.ofNat 8 w, 0] else [BitVec.ofNat 8 (w / 256), BitVec.ofNat 8 w]

/-- The symbol that the decoder reads from a word of the opcode table, with the constants of this hardware. -/
def decodeTableWord (nbits w : Nat) : Option Instr :=
  match decodeSymbol Config.frc (tableBytes nbits w) with
  | .ok (i, _) => some i
  | .error _ => none

end Sys2Proof
end

