-- ==== Sys2Proof/Machine/State.lean ====
section
/-! DEFINITION. The state of FRC as plain data, the reasons a step can stop, and the state after reset. -/

namespace Sys2Proof
namespace Machine

/-- `ReassemblyState` (10_state.md R21). -/
inductive Reassembly where
  /-- "not currently inside a frame" -/
  | idle
  /-- "header matched, accumulating frame bytes" -/
  | receiving
  deriving DecidableEq, Repr

/-- One stream channel (R20, R29). The fill count `len` of R22 is the length of `buf` (log 4). -/
structure StreamChannel where
  /-- `st` (R21) -/
  st : Reassembly
  /-- `buf[0 .. len-1]`, oldest byte first (R23) -/
  buf : ByteSeq
  /-- `rxq`, the bytes that have arrived and are not yet consumed, oldest first (R29) -/
  rxq : ByteSeq
  deriving DecidableEq, Repr

/-- `len` (R22). -/
def StreamChannel.len (ch : StreamChannel) : Nat := ch.buf.length

/-- One datagram channel. The spec gives it nothing that persists between datagrams (R36); both fields are the model's (log 16). -/
structure DatagramChannel where
  /-- the environment's queue of whole datagrams that have arrived and are not yet handled, oldest first (42_datagram.md R182) -/
  pending : List ByteSeq
  /-- how many free values this channel has drawn, one for each POLL of it; channels share nothing (R34, 60_exceptions.md R215) -/
  draws : Nat
  deriving DecidableEq, Repr

/-- A channel of either kind (00_scope.md R12). -/
inductive Channel where
  /-- a stream channel -/
  | stream (ch : StreamChannel)
  /-- a datagram channel -/
  | datagram (dc : DatagramChannel)
  deriving DecidableEq, Repr

/-- `CHANNEL_KIND[c]` (R12). -/
def Channel.kind : Channel → ChannelKind
  | .stream _ => .stream
  | .datagram _ => .datagram

/-- The event labels of 60_exceptions.md R207, with the information each carries. They are history: no operation reads them. -/
inductive Event where
  /-- header match in Idle -/
  | frameStart
  /-- header match in Receiving, with `len - 2` -/
  | resync (discarded : Nat)
  /-- idle discard, with the number of bytes dropped -/
  | idleDiscard (dropped : Nat)
  /-- frame completion, with the decoded frame -/
  | frameDone (frame : ByteSeq)
  /-- overflow, with `len` -/
  | overflow (len : Nat)
  /-- a datagram dropped, with its length -/
  | datagramRejected (len : Nat)
  deriving DecidableEq, Repr

/-- What an agent outside gets besides the frames (92_eei_decisions.md D14). -/
inductive Result where
  /-- the length that ESCLEN returns -/
  | length (n : Nat)
  /-- the bytes that ENCODE or TXFRAME returns -/
  | bytes (bs : ByteSeq)
  /-- the new length and the bytes that DECODE returns -/
  | decoded (newLength : Nat) (bs : ByteSeq)
  /-- how many bytes a POLL of a stream channel consumed -/
  | polled (c taken : Nat)
  /-- how many datagrams a POLL of a datagram channel handled; D14 names only bytes, so this is the model's choice (log 23) -/
  | polledDatagrams (c handled : Nat)
  deriving DecidableEq, Repr

/-- The six outcomes of a received byte (30_encoding.md R95). -/
inductive RxOutcome where
  | hdrMatch
  | idleDiscard
  | idleHold
  | frameDone
  | overflow
  | accum
  deriving DecidableEq, Repr

/-- A POLL in progress: what it may still take and what it has taken (41_reassembler.md R150). -/
structure Burst where
  left : Nat
  taken : Nat
  deriving DecidableEq, Repr

/-- The state of the machine. -/
structure State where
  /-- the constants; written by nothing (10_state.md R27) -/
  cfg : Config
  /-- the channels; their number is `N_CHANNELS` (R12) -/
  channels : List Channel
  /-- the frames handed to the dispatcher, each with its channel, in order (00_scope.md R16) -/
  frames : List (Nat × ByteSeq)
  /-- the results of codec operations and polls, in order (D14) -/
  results : List Result
  /-- the event labels raised, each with its channel, in order (R207) -/
  events : List (Nat × Event)
  /-- the text of the program lines not yet performed (R93, log 7) -/
  script : ByteSeq
  /-- the channel that the control loop is serving (log 8) -/
  served : Nat
  /-- the POLL in progress on the served channel, when it was started through the `poll` port (R31, log 12) -/
  polling : Option Burst
  deriving DecidableEq, Repr

/-- `CHANNEL_KIND` of every channel. -/
def State.kinds (s : State) : List ChannelKind := s.channels.map Channel.kind

/-- Why a step faults. -/
inductive Fault where
  /-- Raised by the append (20_memory.md R59) on channel `c` when its buffer already holds `MAX_FRAME` bytes: an address outside the
  address space of R50. Safe: the model stops. 10_state.md R24 says no run gets there. -/
  | bufferOverrun (c : Nat)
  deriving DecidableEq, Repr

/-- Why a step refuses. All are safe: the model stops. -/
inductive Refusal where
  /-- Raised by an arm of `exec` whose instruction has no meaning yet. -/
  | notModelled (mnemonic : String)
  /-- Raised by `step` when the constants break P1 to P5 or there is no channel (00_scope.md R12, R13). -/
  | badConfiguration
  /-- Raised by an operation on a channel whose number is not below `N_CHANNELS` (R12). -/
  | noSuchChannel (c : Nat)
  /-- Raised by a stream operation on a datagram channel or the other way round (R14). -/
  | wrongKind (c : Nat)
  /-- Raised by `step` when the next text is no line of R93. -/
  | notALine (why : Reject)
  /-- Raised by `step` when a line names a part of RXBYTE or DISPATCH, which are performed only inside a step (R56, R191). -/
  | notOnItsOwn (i : Instr)
  deriving DecidableEq, Repr

/-- A stream channel after RESET with nothing pending (R35). -/
def StreamChannel.reset : StreamChannel := { st := .idle, buf := [], rxq := [] }

/-- A datagram channel with nothing pending and no poll made (logs 5 and 16). -/
def DatagramChannel.reset : DatagramChannel := { pending := [], draws := 0 }

/-- The machine after reset: every stream channel `(Idle, 0)`, the histories empty, nothing in progress (R35, R230). The two channels
are the model's choice (log 2), the empty queues too (log 5). -/
def State.reset : State :=
  { cfg := Config.frc
    channels := [.stream StreamChannel.reset, .datagram DatagramChannel.reset]
    frames := []
    results := []
    events := []
    script := []
    served := 0
    polling := none }

end Machine
end Sys2Proof
end

