-- ==== Sys2Proof/Machine/Operands.lean ====
section
/-! DEFINITION. Operand forms: reads of the frame buffer, the marker window, and the escape-trigger predicate. -/

namespace Sys2Proof
namespace Machine

/-- `MemRead(addr, n)`: legal only when `addr + n <= len` (00_scope.md R18). -/
def memRead (buf : ByteSeq) (addr n : Nat) : Option ByteSeq :=
  if addr + n ≤ buf.length then some ((buf.drop addr).take n) else none

/-- `MemWrite(addr, n, v)` for the writes FRC makes, which leave no gap: legal only when `addr + n <= MAX_FRAME` (R18, R55). -/
def memWrite (cap : Nat) (buf : ByteSeq) (addr : Nat) (v : ByteSeq) : Option ByteSeq :=
  if addr ≤ buf.length ∧ addr + v.length ≤ cap then some (buf.take addr ++ v ++ buf.drop (addr + v.length)) else none

/-- The pair of adjacent bytes at index `i`, if both exist. -/
def pairAt (p : ByteSeq) (i : Nat) : Option (Byte × Byte) :=
  match p[i]?, p[i + 1]? with
  | some x, some y => some (x, y)
  | some _, none => none
  | none, _ => none

/-- `last2()`, the last two buffered bytes, the older first; there are none when `len < 2` (30_encoding.md R85). -/
def last2 (buf : ByteSeq) : Option (Byte × Byte) :=
  if 2 ≤ buf.length then pairAt buf (buf.length - 2) else none

/-- `needs_esc(p, i)` (30_encoding.md R86): (a) the byte is ESC, or (b) it is not the final byte and the pair that starts at it is a
marker. -/
def needsEsc (cfg : Config) (p : ByteSeq) (i : Nat) : Bool :=
  p[i]? == some cfg.esc
    || (i + 1 != p.length && (pairAt p i == some cfg.hdr || pairAt p i == some cfg.ftr))

end Machine
end Sys2Proof
end

