-- ==== Sys2Proof/Machine/Flags.lean ====
section
/-! DEFINITION. FRC has no flags (10_state.md R26). This file holds the conditions its operations test: the selector of a received byte
and the whole-datagram test. -/

namespace Sys2Proof
namespace Machine

/-- The outcome that applies to the byte just appended: the first of the six conditions of 30_encoding.md R95, in its order. -/
def selectOutcome (cfg : Config) (ch : StreamChannel) : RxOutcome :=
  if last2 ch.buf = some cfg.hdr then .hdrMatch
  else
    match ch.st with
    | .idle => if 2 < ch.len then .idleDiscard else .idleHold
    | .receiving =>
      if last2 ch.buf = some cfg.ftr then .frameDone
      else if cfg.maxFrame ≤ ch.len then .overflow
      else .accum

/-- The condition of each outcome by itself, with nothing said of the checks before it (41_reassembler.md R142 to R147; "no footer yet"
is part of the overflow condition, R148). -/
def ownCondition (cfg : Config) (ch : StreamChannel) : RxOutcome → Bool
  | .hdrMatch => decide (last2 ch.buf = some cfg.hdr)
  | .idleDiscard => decide (ch.st = .idle ∧ 2 < ch.len)
  | .idleHold => decide (ch.st = .idle ∧ ch.len ≤ 2)
  | .frameDone => decide (ch.st = .receiving ∧ last2 ch.buf = some cfg.ftr)
  | .overflow => decide (ch.st = .receiving ∧ last2 ch.buf ≠ some cfg.ftr ∧ cfg.maxFrame ≤ ch.len)
  | .accum => decide (ch.st = .receiving ∧ last2 ch.buf ≠ some cfg.ftr ∧ ch.len < cfg.maxFrame)

/-- Whether RXDGRAM accepts a datagram: the four tests of 42_datagram.md R180. -/
def datagramAccepted (cfg : Config) (d : ByteSeq) : Bool :=
  !(decide (d.length < 4))
    && !(decide (d.length > cfg.maxFrame))
    && pairAt d 0 == some cfg.hdr
    && pairAt d (d.length - 2) == some cfg.ftr

end Machine
end Sys2Proof
end

