-- ==== Sys2Proof/Machine/EscapeCodec.lean ====
section
/-! DEFINITION. The escape codec as functions on byte sequences (40_codec.md), with the in-place and the streaming forms. -/

namespace Sys2Proof
namespace Machine
namespace Codec

/-- ESCLEN (R110): the length, plus one for every index that triggers. -/
def escLen (cfg : Config) (p : ByteSeq) : Nat :=
  (List.range p.length).foldl (fun count i => if needsEsc cfg p i then count + 1 else count) p.length

/-- What ENCODE puts out for index `i`: an escape byte if the index triggers, then the byte (R111). -/
def encodeAt (cfg : Config) (p : ByteSeq) (i : Nat) : ByteSeq :=
  (if needsEsc cfg p i then [cfg.esc] else []) ++ p[i]?.toList

/-- ENCODE (R111). -/
def encode (cfg : Config) (p : ByteSeq) : ByteSeq :=
  (List.range p.length).foldl (fun out i => out ++ encodeAt cfg p i) []

/-- DECODE (R112) as a function of the operand: the new length is the length of the result. -/
def decode (cfg : Config) : ByteSeq → ByteSeq
  | [] => []
  | [b] => if b = cfg.esc then [] else [b]
  | b :: x :: rest => if b = cfg.esc then x :: decode cfg rest else b :: decode cfg (x :: rest)

/-- TXFRAME (R113). -/
def txFrame (cfg : Config) (p : ByteSeq) : ByteSeq :=
  cfg.hdrBytes ++ encode cfg p ++ cfg.ftrBytes

/-- The loop of R112 on the buffer itself, with read index `i` and write index `o`; the first argument bounds the passes. It gives the
rewritten buffer, stale bytes included, and the new length. -/
def decodeLoop (cfg : Config) : Nat → ByteSeq → Nat → Nat → ByteSeq × Nat
  | 0, b, _, o => (b, o)
  | fuel + 1, b, i, o =>
    match b[i]? with
    | none => (b, o)
    | some x =>
      if x = cfg.esc then
        match b[i + 1]? with
        | some y => decodeLoop cfg fuel (b.set o y) (i + 2) (o + 1)
        | none => (b, o)
      else decodeLoop cfg fuel (b.set o x) (i + 1) (o + 1)

/-- DECODE in place (R112, 20_memory.md R64). -/
def decodeInPlace (cfg : Config) (b : ByteSeq) : ByteSeq × Nat :=
  decodeLoop cfg b.length b 0 0

/-- The streaming form of ENCODE (R118): one byte of look-ahead and an end mark, no memory of earlier bytes. -/
def encodeStream (cfg : Config) : ByteSeq → ByteSeq
  | [] => []
  | [x] => if x = cfg.esc then [cfg.esc, x] else [x]
  | x :: y :: rest =>
    if x = cfg.esc ∨ (x, y) = cfg.hdr ∨ (x, y) = cfg.ftr then cfg.esc :: x :: encodeStream cfg (y :: rest)
    else x :: encodeStream cfg (y :: rest)

/-- One byte of the streaming form of DECODE (R118): the bit says that the previous byte was an escape that is still open. -/
def decodeStreamByte (cfg : Config) (isOpen : Bool) (x : Byte) : Bool × Option Byte :=
  if isOpen then (false, some x) else if x = cfg.esc then (true, none) else (false, some x)

/-- The streaming form of DECODE (R118). A bit still set at the end is discarded. -/
def decodeStream (cfg : Config) (isOpen : Bool) : ByteSeq → ByteSeq
  | [] => []
  | x :: rest =>
    let r := decodeStreamByte cfg isOpen x
    r.2.toList ++ decodeStream cfg r.1 rest

end Codec
end Machine
end Sys2Proof
end

