-- ==== Sys2Proof/Machine/Ops.lean ====
section
/-! DEFINITION. The named operations over channels and buffers, and dispatch entry and return, the block's one transfer of control. -/

namespace Sys2Proof
namespace Machine

/-- What one step or one instruction answers. -/
abbrev Answer := Host.Outcome State Fault Refusal

/-- Goes on with `f` where the answer is a next state; a fault or a refusal stays. -/
def andThen (o : Answer) (f : State → Answer) : Answer :=
  match o with
  | .next s => f s
  | .fault r => .fault r
  | .refused r => .refused r

/-! ### Buffer primitives (20_memory.md R59) -/

/-- The canonical form of a frame buffer of capacity `cap`: as a list its addresses are `0 .. len-1` with no gap and no repeat by
construction, so what is left to say is that they lie in the address space of R50 (log 4). -/
def Memory.wf (cap : Nat) (buf : ByteSeq) : Bool := decide (buf.length ≤ cap)

/-- `append(b)`: stores `b` at `buf[len]` and adds 1 to `len`; legal only when `len < MAX_FRAME`. -/
def StreamChannel.append (cap : Nat) (ch : StreamChannel) (b : Byte) : Option StreamChannel :=
  (memWrite cap ch.buf ch.len [b]).map (fun buf => { ch with buf := buf })

/-- `clear()`: sets `len` to 0. -/
def StreamChannel.clear (ch : StreamChannel) : StreamChannel := { ch with buf := [] }

/-- The header check's rewrite: `buf[0] <- H0; buf[1] <- H1; len <- 2`. -/
def StreamChannel.keepHeader (cfg : Config) (ch : StreamChannel) : StreamChannel := { ch with buf := cfg.hdrBytes }

/-! ### Dispatch entry and return (60_exceptions.md R210, R211) -/

/-- Dispatch entry: the whole buffer is unescaped in place and its bytes are the frame handed over. `st` is still `Receiving` and
nothing is saved (R210). -/
def enterDispatch (cfg : Config) (ch : StreamChannel) : StreamChannel × ByteSeq :=
  let f := Codec.decode cfg ch.buf
  ({ ch with buf := f }, f)

/-- Dispatch return: `st <- Idle`, buffer cleared; nothing is restored (R211). -/
def returnFromDispatch (ch : StreamChannel) : StreamChannel :=
  StreamChannel.clear { ch with st := .idle }

/-! ### Operations on the whole state -/

/-- DISPATCH as an operation: `(c, f)` joins the output trace (43_system.md R191). -/
def dispatch (c : Nat) (f : ByteSeq) (s : State) : State :=
  { s with frames := s.frames ++ [(c, f)] }

/-- `raise`: records a label in the history and changes nothing else (00_scope.md R18). -/
def raise (c : Nat) (e : Event) (s : State) : State :=
  { s with events := s.events ++ [(c, e)] }

/-- Gives a result to the agent that asked for it. -/
def give (r : Result) (s : State) : State :=
  { s with results := s.results ++ [r] }

/-- Writes channel `c`. -/
def setChannel (c : Nat) (ch : Channel) (s : State) : State :=
  { s with channels := s.channels.set c ch }

/-- What an operation did to one stream channel: the channel after it, the frames it dispatched and the labels it raised, in order. -/
structure ChannelStep where
  ch : StreamChannel
  frames : List ByteSeq
  events : List Event
  deriving DecidableEq, Repr

/-- An operation that dispatched nothing and raised nothing. -/
def quiet (ch : StreamChannel) : ChannelStep := { ch := ch, frames := [], events := [] }

/-- One operation after another on the same channel. -/
def ChannelStep.followedBy (e : ChannelStep) (e' : ChannelStep) : ChannelStep :=
  { ch := e'.ch, frames := e.frames ++ e'.frames, events := e.events ++ e'.events }

/-- Writes what happened on channel `c` into the state; every frame goes through `dispatch` and every label through `raise`. -/
def commit (c : Nat) (e : ChannelStep) (s : State) : State :=
  e.events.foldl (fun t x => raise c x t)
    (e.frames.foldl (fun t f => dispatch c f t) (setChannel c (.stream e.ch) s))

/-- Runs an operation of a stream channel on channel `c`. An operation that answers `none` wrote outside the buffer. -/
def onStream (c : Nat) (f : StreamChannel → Option ChannelStep) (s : State) : Answer :=
  match s.channels[c]? with
  | none => .refused (.noSuchChannel c)
  | some (.datagram _) => .refused (.wrongKind c)
  | some (.stream ch) =>
    match f ch with
    | none => .fault (.bufferOverrun c)
    | some e => .next (commit c e s)

/-- One whole datagram on channel `c` (42_datagram.md R180): dispatched after DECODE if it is accepted, dropped silently if not. -/
def receiveDatagram (c : Nat) (d : ByteSeq) (s : State) : State :=
  if datagramAccepted s.cfg d then dispatch c (Codec.decode s.cfg d) s
  else raise c (.datagramRejected d.length) s

end Machine
end Sys2Proof
end

