-- ==== Sys2Proof/Machine/FrameCodec.lean ====
section
/-! DEFINITION. The meanings of the codec operations (40_codec.md): each gives its result and changes nothing else (10_state.md R28). -/

namespace Sys2Proof
namespace Machine

/-- ESCLEN p (R110). -/
def execEsclen (p : ByteSeq) (s : State) : Answer :=
  .next (give (.length (Codec.escLen s.cfg p)) s)

/-- ENCODE p (R111). -/
def execEncode (p : ByteSeq) (s : State) : Answer :=
  .next (give (.bytes (Codec.encode s.cfg p)) s)

/-- DECODE b (R112): the new length and the bytes. -/
def execDecode (b : ByteSeq) (s : State) : Answer :=
  .next (give (.decoded (Codec.decode s.cfg b).length (Codec.decode s.cfg b)) s)

/-- TXFRAME p (R113). -/
def execTxframe (p : ByteSeq) (s : State) : Answer :=
  .next (give (.bytes (Codec.txFrame s.cfg p)) s)

end Machine
end Sys2Proof
end

