-- ==== Sys2Proof/Machine/Reassembler.lean ====
section
/-! DEFINITION. The stream reassembler (41_reassembler.md): the append, the six outcomes, RXBYTE, runs of bytes, and the meanings of the
rows RXBYTE, RXBYTE.* and RXSEQ. -/

namespace Sys2Proof
namespace Machine

/-! ### The append and the six outcomes on one channel -/

/-- The append as an operation of its own (R141). -/
def appendStep (cfg : Config) (b : Byte) (ch : StreamChannel) : Option ChannelStep :=
  (ch.append cfg.maxFrame b).map quiet

/-- HDRMATCH (R142): FrameStart from Idle, Resync with `len - 2` from Receiving. -/
def hdrMatchStep (cfg : Config) (ch : StreamChannel) : ChannelStep :=
  { ch := StreamChannel.keepHeader cfg { ch with st := .receiving }
    frames := []
    events := match ch.st with
      | .idle => [.frameStart]
      | .receiving => [.resync (ch.len - 2)] }

/-- IDLEDISCARD (R143): all buffered bytes are dropped, `st` stays. -/
def idleDiscardStep (ch : StreamChannel) : ChannelStep :=
  { ch := ch.clear, frames := [], events := [.idleDiscard ch.len] }

/-- FRAMEDONE (R145): dispatch entry, the call, dispatch return. -/
def frameDoneStep (cfg : Config) (ch : StreamChannel) : ChannelStep :=
  let call := enterDispatch cfg ch
  { ch := returnFromDispatch call.1, frames := [call.2], events := [.frameDone call.2] }

/-- OVERFLOW (R146): the frame is dropped. -/
def overflowStep (ch : StreamChannel) : ChannelStep :=
  { ch := { ch.clear with st := .idle }, frames := [], events := [.overflow ch.len] }

/-- What the selected outcome does. IDLEHOLD (R144) and ACCUM (R147) do nothing more. -/
def outcomeStep (cfg : Config) (o : RxOutcome) (ch : StreamChannel) : ChannelStep :=
  match o with
  | .hdrMatch => hdrMatchStep cfg ch
  | .idleDiscard => idleDiscardStep ch
  | .idleHold => quiet ch
  | .frameDone => frameDoneStep cfg ch
  | .overflow => overflowStep ch
  | .accum => quiet ch

/-- One arm of the chain of R140 taken alone: it acts where its condition is the one that holds and does nothing where it is not
(log 10). -/
def armStep (cfg : Config) (o : RxOutcome) (ch : StreamChannel) : ChannelStep :=
  if selectOutcome cfg ch = o then outcomeStep cfg o ch else quiet ch

/-- RXBYTE on one channel (R140): the append, then the outcome that applies. -/
def rxStep (cfg : Config) (b : Byte) (ch : StreamChannel) : Option ChannelStep :=
  (ch.append cfg.maxFrame b).map (fun ch' => outcomeStep cfg (selectOutcome cfg ch') ch')

/-- One check gated by its own condition alone, on the state it is given (R148). -/
def checkAlone (cfg : Config) (o : RxOutcome) (ch : StreamChannel) : ChannelStep :=
  if ownCondition cfg ch o then outcomeStep cfg o ch else quiet ch

/-- Checks one after another, each on the state the previous one left. -/
def checksInTurn (cfg : Config) (os : List RxOutcome) (ch : StreamChannel) : ChannelStep :=
  os.foldl (fun e o => e.followedBy (checkAlone cfg o e.ch)) (quiet ch)

/-- "The other natural reading" of R148: the append, then all the checks evaluated in turn. The machine does not use it. -/
def fallThrough (cfg : Config) (b : Byte) (ch : StreamChannel) : Option ChannelStep :=
  (ch.append cfg.maxFrame b).map
    (checksInTurn cfg [.hdrMatch, .idleDiscard, .idleHold, .frameDone, .overflow, .accum])

/-- `run(s, w)` (R151): the bytes one after another. -/
def run (cfg : Config) (ch : StreamChannel) : ByteSeq → Option ChannelStep
  | [] => some (quiet ch)
  | b :: w =>
    match rxStep cfg b ch with
    | none => none
    | some e => (run cfg e.ch w).map e.followedBy

/-! ### Meanings -/

/-- One received byte on channel `c`, shared by RXBYTE and by the wire symbols. -/
def receive (c : Nat) (b : Byte) (s : State) : Answer :=
  onStream c (rxStep s.cfg b) s

/-- RXBYTE c b (R140). -/
def execRxbyte (c : Nat) (b : Byte) (s : State) : Answer := receive c b s

/-- RXBYTE.APPEND (R141). -/
def execRxbyteAppend (c : Nat) (b : Byte) (s : State) : Answer :=
  onStream c (appendStep s.cfg b) s

/-- RXBYTE.HDRMATCH (R142). -/
def execRxbyteHdrMatch (c : Nat) (s : State) : Answer :=
  onStream c (fun ch => some (armStep s.cfg .hdrMatch ch)) s

/-- RXBYTE.IDLEDISCARD (R143). -/
def execRxbyteIdleDiscard (c : Nat) (s : State) : Answer :=
  onStream c (fun ch => some (armStep s.cfg .idleDiscard ch)) s

/-- RXBYTE.IDLEHOLD (R144). -/
def execRxbyteIdleHold (c : Nat) (s : State) : Answer :=
  onStream c (fun ch => some (armStep s.cfg .idleHold ch)) s

/-- RXBYTE.FRAMEDONE (R145). -/
def execRxbyteFrameDone (c : Nat) (s : State) : Answer :=
  onStream c (fun ch => some (armStep s.cfg .frameDone ch)) s

/-- RXBYTE.OVERFLOW (R146). -/
def execRxbyteOverflow (c : Nat) (s : State) : Answer :=
  onStream c (fun ch => some (armStep s.cfg .overflow ch)) s

/-- RXBYTE.ACCUM (R147). -/
def execRxbyteAccum (c : Nat) (s : State) : Answer :=
  onStream c (fun ch => some (armStep s.cfg .accum ch)) s

/-- RXSEQ c bs (30_encoding.md R94): one RXBYTE for each byte, in order; none for the empty list. -/
def execRxseq (c : Nat) (bs : ByteSeq) (s : State) : Answer :=
  bs.foldl (fun o b => andThen o (execRxbyte c b)) (.next s)

end Machine
end Sys2Proof
end

