-- ==== Sys2Proof/Machine/Polling.lean ====
section
/-! DEFINITION. POLL (41_reassembler.md R150) on either kind of channel, and its meaning. -/

namespace Sys2Proof
namespace Machine

/-- The loop of R150 with at most `k` bytes still allowed: takes bytes from the head of `rxq`, oldest first, and gives what happened
and how many bytes were taken. -/
def burstStep (cfg : Config) : Nat → StreamChannel → Option (ChannelStep × Nat)
  | 0, ch => some (quiet ch, 0)
  | k + 1, ch =>
    match ch.rxq with
    | [] => some (quiet ch, 0)
    | b :: q =>
      match rxStep cfg b { ch with rxq := q } with
      | none => none
      | some e => (burstStep cfg k e.ch).map (fun r => (e.followedBy r.1, r.2 + 1))

/-- POLL of a stream channel: one bounded burst. -/
def pollStream (c : Nat) (ch : StreamChannel) (s : State) : Answer :=
  match burstStep s.cfg s.cfg.burstCap ch with
  | none => .fault (.bufferOverrun c)
  | some (e, n) => .next (give (.polled c n) { commit c e s with served := c })

/-- POLL of a datagram channel (42_datagram.md R182): a free number of the pending datagrams, in order of arrival. The number depends
on the channel and on how many polls of it there have been, not on other channels (60_exceptions.md R215, log 16).
DESIGN CHOICE: the number handled is recorded as a result, where D14 speaks of bytes only (log 23). -/
def pollDatagram (c : Nat) (dc : DatagramChannel) (s : State) : Answer :=
  let n := Config.datagramsPerPoll c dc.draws
  let handled := dc.pending.take n
  let left : DatagramChannel := { pending := dc.pending.drop n, draws := dc.draws + 1 }
  .next (give (.polledDatagrams c handled.length)
    (handled.foldl (fun t d => receiveDatagram c d t) { setChannel c (.datagram left) s with served := c }))

/-- POLL c (R150). -/
def execPoll (c : Nat) (s : State) : Answer :=
  match s.channels[c]? with
  | none => .refused (.noSuchChannel c)
  | some (.datagram dc) => pollDatagram c dc s
  | some (.stream ch) => pollStream c ch s

end Machine
end Sys2Proof
end

