-- ==== Sys2Proof/Machine/Symbols.lean ====
section
/-! DEFINITION. The meanings of the wire symbols (30_encoding.md section 2): the served channel receives the symbol's bytes, one RXBYTE
each (log 8). -/

namespace Sys2Proof
namespace Machine

/-- HDR (R81): `H0`, then `H1`. -/
def execHdr (s : State) : Answer :=
  andThen (receive s.served s.cfg.h0 s) (receive s.served s.cfg.h1)

/-- FTR (R82): `F0`, then `F1`. -/
def execFtr (s : State) : Answer :=
  andThen (receive s.served s.cfg.f0 s) (receive s.served s.cfg.f1)

/-- ESC (R83): buffered and counted like any byte. -/
def execEsc (s : State) : Answer := receive s.served s.cfg.esc s

/-- LITERAL (R84). -/
def execLiteral (b : Byte) (s : State) : Answer := receive s.served b s

end Machine
end Sys2Proof
end

