-- ==== Sys2Proof/Machine/System.lean ====
section
/-! DEFINITION. The meanings of RXDGRAM (42_datagram.md), RESET and DISPATCH (43_system.md), and ARRIVE (30_encoding.md R94). -/

namespace Sys2Proof
namespace Machine

/-- RXDGRAM c d (R180). -/
def execRxdgram (c : Nat) (d : ByteSeq) (s : State) : Answer :=
  match s.channels[c]? with
  | none => .refused (.noSuchChannel c)
  | some (.stream _) => .refused (.wrongKind c)
  | some (.datagram _) => .next (receiveDatagram c d s)

/-- RESET c (R190): `st <- Idle; len <- 0`, the pending queue not touched. A datagram channel has neither (10_state.md R36). -/
def execReset (c : Nat) (s : State) : Answer :=
  match s.channels[c]? with
  | none => .refused (.noSuchChannel c)
  | some (.datagram _) => .next s
  | some (.stream ch) => .next (setChannel c (.stream { ch.clear with st := .idle }) s)

/-- DISPATCH c f (R191): the effect on FRC is none, the frame joins the output trace. `step` never runs it on its own (log 11). -/
def execDispatch (c : Nat) (f : ByteSeq) (s : State) : Answer :=
  match s.channels[c]? with
  | none => .refused (.noSuchChannel c)
  | some _ => .next (dispatch c f s)

/-- ARRIVE c bs (R94): the bytes join the tail of `rxq`; on a datagram channel they are one whole datagram (log 16). -/
def execArrive (c : Nat) (bs : ByteSeq) (s : State) : Answer :=
  match s.channels[c]? with
  | none => .refused (.noSuchChannel c)
  | some (.stream ch) => .next (setChannel c (.stream { ch with rxq := ch.rxq ++ bs }) s)
  | some (.datagram dc) => .next (setChannel c (.datagram { dc with pending := dc.pending ++ [bs] }) s)

end Machine
end Sys2Proof
end

