-- ==== Sys2Proof/Machine/Dispatch.lean ====
section
/-! DEFINITION. One arm for each instruction. -/

namespace Sys2Proof
namespace Machine

/-- The meaning of an instruction. -/
def exec (i : Instr) (s : State) : Host.Outcome State Fault Refusal :=
  match i with
  | .hdr => Sys2Proof.Machine.execHdr s
  | .ftr => Sys2Proof.Machine.execFtr s
  | .esc => Sys2Proof.Machine.execEsc s
  | .literal b => Sys2Proof.Machine.execLiteral b s
  | .esclen p => Sys2Proof.Machine.execEsclen p s
  | .encode p => Sys2Proof.Machine.execEncode p s
  | .decode b => Sys2Proof.Machine.execDecode b s
  | .txframe p => Sys2Proof.Machine.execTxframe p s
  | .rxbyte c b => Sys2Proof.Machine.execRxbyte c b s
  | .rxbyteAppend c b => Sys2Proof.Machine.execRxbyteAppend c b s
  | .rxbyteHdrMatch c => Sys2Proof.Machine.execRxbyteHdrMatch c s
  | .rxbyteIdleDiscard c => Sys2Proof.Machine.execRxbyteIdleDiscard c s
  | .rxbyteIdleHold c => Sys2Proof.Machine.execRxbyteIdleHold c s
  | .rxbyteFrameDone c => Sys2Proof.Machine.execRxbyteFrameDone c s
  | .rxbyteOverflow c => Sys2Proof.Machine.execRxbyteOverflow c s
  | .rxbyteAccum c => Sys2Proof.Machine.execRxbyteAccum c s
  | .poll c => Sys2Proof.Machine.execPoll c s
  | .rxdgram c d => Sys2Proof.Machine.execRxdgram c d s
  | .reset c => Sys2Proof.Machine.execReset c s
  | .dispatch c f => Sys2Proof.Machine.execDispatch c f s
  | .rxseq c bs => Sys2Proof.Machine.execRxseq c bs s
  | .arrive c bs => Sys2Proof.Machine.execArrive c bs s

end Machine
end Sys2Proof
end

