-- ==== Sys2Proof/Machine/Fetch.lean ====
section
/-! DEFINITION. Where the next instruction comes from: the queue of the served channel while a POLL started through the `poll` port is in
progress, else the text of the program. -/

namespace Sys2Proof
namespace Machine

/-- What fetching gives. -/
inductive Fetched where
  /-- run this instruction at this state, which is past the instruction's bytes -/
  | run (i : Instr) (s : State)
  /-- no instruction: this is the state after the step -/
  | still (s : State)
  /-- the step refuses -/
  | stop (r : Refusal)
  deriving DecidableEq, Repr

/-- The end of a POLL started through the port: how many bytes it consumed is known outside (D14). -/
def endPoll (b : Burst) (s : State) : State :=
  give (.polled s.served b.taken) { s with polling := none }

/-- `pop(rxq)` for the `n` bytes of a symbol, and the count of the POLL in progress. -/
def takeBytes (n : Nat) (ch : StreamChannel) (b : Burst) (s : State) : State :=
  { setChannel s.served (.stream { ch with rxq := ch.rxq.drop n }) s with
    polling := some { left := b.left - n, taken := b.taken + n } }

/-- The next symbol among the bytes that the POLL may still take (R150). A POLL of a datagram channel has no symbols: it is performed
as the one operation POLL (log 12). -/
def fetchSymbol (b : Burst) (s : State) : Fetched :=
  match s.channels[s.served]? with
  | none => .stop (.noSuchChannel s.served)
  | some (.datagram _) => .run (.poll s.served) { s with polling := none }
  | some (.stream ch) =>
    let window := ch.rxq.take b.left
    match decodeSymbol s.cfg window with
    | .error _ => .still (endPoll b s)
    | .ok (i, rest) => .run i (takeBytes (window.length - rest.length) ch b s)

/-- The next line of the program (30_encoding.md R93). With none left the machine is still (D27). -/
def fetchLine (s : State) : Fetched :=
  match decodeLine s.script with
  | .error .nothingToDecode => .still s
  | .error .unknownMnemonic => .stop (.notALine .unknownMnemonic)
  | .error .badOperands => .stop (.notALine .badOperands)
  | .ok (i, rest) => if i.isProgramLine then .run i { s with script := rest } else .stop (.notOnItsOwn i)

/-- Fetching. A POLL in progress goes before the next line: nothing of the channel is interleaved with it (00_scope.md R15). -/
def fetch (s : State) : Fetched :=
  match s.polling with
  | some b => fetchSymbol b s
  | none => fetchLine s

/-- Whether channel `c` is a stream channel. -/
def isStream (s : State) (c : Nat) : Bool :=
  match s.channels[c]? with
  | some (.stream _) => true
  | some (.datagram _) => false
  | none => false

/-- The served channel if it is a stream channel, else the first stream channel, for `withFetchWord`. -/
def wireChannel (s : State) : Nat :=
  if isStream s s.served then s.served else s.channels.findIdx (fun ch => ch.kind == .stream)

/-- Bytes put before everything pending on a stream channel. -/
def putFirst (bs : ByteSeq) : Channel → Channel
  | .stream ch => .stream { ch with rxq := bs ++ ch.rxq }
  | .datagram dc => .datagram dc

/-- `bs` stands at the head of the queue of a stream channel, and a POLL of that channel has just begun. -/
def presentBytes (bs : ByteSeq) (s : State) : State :=
  { s with
    channels := s.channels.modify (wireChannel s) (putFirst bs)
    served := wireChannel s
    polling := some { left := max s.cfg.burstCap bs.length, taken := 0 } }

end Machine
end Sys2Proof
end

