-- ==== Sys2Proof/Machine/Step.lean ====
section
/-! DEFINITION. One step: fetch an instruction and run it. -/

namespace Sys2Proof
namespace Machine

/-- One step. A configuration outside P1 to P5, or with no channel, is refused rather than given a meaning (00_scope.md R12, R13). -/
def step (s : State) : Host.Outcome State Fault Refusal :=
  match fetch s, s.cfg.wf && !s.channels.isEmpty with
  | .run i t, true => exec i t
  | .still t, true => .next t
  | .stop r, true => .refused r
  | _, false => .refused .badConfiguration

/-- The state whose next step fetches and runs the wire symbol that the table word writes (log 7). -/
def State.withFetchWord (s : State) (nbits w : Nat) : State :=
  presentBytes (tableBytes nbits w) s

end Machine
end Sys2Proof
end

