-- ==== Sys2Proof/Machine/Ports.lean ====
section
/-! DEFINITION. The ports of 10_state.md R31 as views of the state, and the storage sizes of R21 and R22. They add no behaviour. -/

namespace Sys2Proof
namespace Machine

/-- The one bit that stores `st`: Idle = 0, Receiving = 1 (R21). -/
def Reassembly.bit : Reassembly → BitVec 1
  | .idle => 0
  | .receiving => 1

/-- `LEN_W`, the least width that holds `MAX_FRAME` (R22). -/
def lenWidth (cfg : Config) : Nat := Nat.log2 cfg.maxFrame + 1

/-- `rx_data` (R31): the byte at the head of the pending queue. -/
def rxData (s : State) (c : Nat) : Option Byte :=
  match s.channels[c]? with
  | some (.stream ch) => ch.rxq.head?
  | some (.datagram _) => none
  | none => none

/-- `rx_avail` (R31): the pending queue is not empty. -/
def rxAvail (s : State) (c : Nat) : Bool := (rxData s c).isSome

/-- `frm_len` (R31) for a dispatched frame. -/
def frmLen (cfg : Config) (f : Nat × ByteSeq) : BitVec (lenWidth cfg) := BitVec.ofNat _ f.2.length

/-- `frm_data[i]` (R31) for a dispatched frame. -/
def frmData (f : Nat × ByteSeq) (i : Nat) : Option Byte := f.2[i]?

/-- `frm_chan` (R31) for a dispatched frame. -/
def frmChan (f : Nat × ByteSeq) : Nat := f.1

/-- The payload as the dispatcher sees it, `f[2 .. |f|-3]` (41_reassembler.md R157). -/
def payloadOf (f : ByteSeq) : ByteSeq := (f.drop 2).take (f.length - 4)

end Machine
end Sys2Proof
end

