-- ==== Sys2Proof/Machine/Program.lean ====
section
/-! DEFINITION. The encoding of a program (30_encoding.md R93): the bytes each channel receives. Nothing in the machine reads it; it is
the vocabulary of statements about whole programs. -/

namespace Sys2Proof
namespace Machine

/-- The bytes that one line gives to channel `c`: the operands of RXBYTE, RXSEQ and ARRIVE. -/
def lineBytesFor (c : Nat) : Instr → ByteSeq
  | .rxbyte d b => if d = c then [b] else []
  | .rxseq d bs => if d = c then bs else []
  | .arrive d bs => if d = c then bs else []
  | .hdr => []
  | .ftr => []
  | .esc => []
  | .literal _ => []
  | .esclen _ => []
  | .encode _ => []
  | .decode _ => []
  | .txframe _ => []
  | .rxbyteAppend _ _ => []
  | .rxbyteHdrMatch _ => []
  | .rxbyteIdleDiscard _ => []
  | .rxbyteIdleHold _ => []
  | .rxbyteFrameDone _ => []
  | .rxbyteOverflow _ => []
  | .rxbyteAccum _ => []
  | .poll _ => []
  | .rxdgram _ _ => []
  | .reset _ => []
  | .dispatch _ _ => []

/-- The encoding of a program for channel `c`: the concatenation, in order. -/
def programBytes (c : Nat) (prog : List Instr) : ByteSeq := prog.flatMap (lineBytesFor c)

/-- The bytes that one line makes channel `c` consume when `q` is pending on it, and what is pending after (R94, R150). Lines that move
no byte of channel `c` give none. -/
def lineConsumes (cap c : Nat) (q : ByteSeq) : Instr → ByteSeq × ByteSeq
  | .rxbyte d b => if d = c then ([b], q) else ([], q)
  | .rxseq d bs => if d = c then (bs, q) else ([], q)
  | .arrive d bs => if d = c then ([], q ++ bs) else ([], q)
  | .poll d => if d = c then (q.take cap, q.drop cap) else ([], q)
  | .hdr => ([], q)
  | .ftr => ([], q)
  | .esc => ([], q)
  | .literal _ => ([], q)
  | .esclen _ => ([], q)
  | .encode _ => ([], q)
  | .decode _ => ([], q)
  | .txframe _ => ([], q)
  | .rxbyteAppend _ _ => ([], q)
  | .rxbyteHdrMatch _ => ([], q)
  | .rxbyteIdleDiscard _ => ([], q)
  | .rxbyteIdleHold _ => ([], q)
  | .rxbyteFrameDone _ => ([], q)
  | .rxbyteOverflow _ => ([], q)
  | .rxbyteAccum _ => ([], q)
  | .rxdgram _ _ => ([], q)
  | .reset _ => ([], q)
  | .dispatch _ _ => ([], q)

/-- The bytes that a program makes channel `c` consume, in order, and what is pending on it at the end (R151). -/
def consumed (cap c : Nat) (q : ByteSeq) : List Instr → ByteSeq × ByteSeq
  | [] => ([], q)
  | i :: prog =>
    let first := lineConsumes cap c q i
    let later := consumed cap c first.2 prog
    (first.1 ++ later.1, later.2)

/-- The lines of a program one after another, each by its meaning. -/
def runLines (prog : List Instr) (s : State) : Answer :=
  prog.foldl (fun o i => andThen o (exec i)) (.next s)

/-- The text of a program (R93), a line for each operation. -/
def programText (cfg : Config) (prog : List Instr) : ByteSeq := prog.flatMap (encode cfg)

end Machine
end Sys2Proof
end

