-- ==== Sys2Proof/Safety.lean ====
section
/-! DEFINITION. The invariants of 10_state.md R24 and what a safe run is, in the terms the statements use. -/

namespace Sys2Proof
namespace Machine

/-- No two adjacent bytes of `p` are a marker. -/
abbrev MarkerFree (cfg : Config) (p : ByteSeq) : Prop :=
  ∀ i < p.length, pairAt p i ≠ some cfg.hdr ∧ pairAt p i ≠ some cfg.ftr

/-- R24 (I-a): in Idle at most two bytes are held, and they are not the header. -/
abbrev StreamChannel.IdleInv (cfg : Config) (ch : StreamChannel) : Prop :=
  ch.len ≤ 2 ∧ ch.buf ≠ cfg.hdrBytes

/-- R24 (I-b) and (I-c): in Receiving the buffer starts with the header, is not full, and holds no marker pair from index 1 on. -/
abbrev StreamChannel.ReceivingInv (cfg : Config) (ch : StreamChannel) : Prop :=
  2 ≤ ch.len ∧ ch.len ≤ cfg.maxFrame - 1 ∧ ch.buf.take 2 = cfg.hdrBytes ∧ MarkerFree cfg (ch.buf.drop 1)

/-- The invariants of R24 for one stream channel. -/
abbrev StreamChannel.Inv (cfg : Config) (ch : StreamChannel) : Prop :=
  (ch.st = .idle → ch.IdleInv cfg) ∧ (ch.st = .receiving → ch.ReceivingInv cfg)

/-- The invariants of R24 where the channel is a stream channel; a datagram channel keeps nothing (R36). -/
abbrev Channel.Inv (cfg : Config) (x : Channel) : Prop :=
  match x with
  | .stream ch => ch.Inv cfg
  | .datagram _ => True

/-- The invariant of the machine between steps: a configuration within P1 to P5 with at least one channel, R24 on every channel, and a
POLL in progress that has its whole cap divided into bytes taken and bytes still allowed. -/
structure State.Inv (s : State) : Prop where
  cfgWf : s.cfg.wf = true
  someChannel : s.channels ≠ []
  channels : ∀ x ∈ s.channels, x.Inv s.cfg
  burst : ∀ b ∈ s.polling, b.left + b.taken = s.cfg.burstCap

/-- A step is safe if it does not fault. -/
def SafeStep (s : State) : Prop := ∀ r, step s ≠ .fault r

/-- The frames of one channel, in order (00_scope.md R16). -/
def State.framesOf (s : State) (c : Nat) : List ByteSeq :=
  (s.frames.filter (fun f => f.1 == c)).map Prod.snd

end Machine
end Sys2Proof
end

