-- ==== Sys2Proof/Certificates/Slice0/Obligations.lean ====
section
/-! DEFINITION. The statements about the model, each a proposition; the rule of spec/ that each one formalises is in its docstring. -/

open Sys2Proof Sys2Proof.Machine

/-! ### Encodings and the step -/

/-- R81 to R84: the table's words decode to their symbols; the reversed header is two literals (R52); and two lines of R93, written
out as ASCII codes (log 6), are read. A sanity statement. -/
def Obligations.TableWordsDecodeToTheirSymbols : Prop :=
  decodeTableWord 16 0x4544 = some .hdr ∧ decodeTableWord 16 0x4D4F = some .ftr ∧ decodeTableWord 8 0x5C = some .esc
    ∧ decodeTableWord 8 0x00 = some (.literal 0x00) ∧ decodeTableWord 8 0x45 = some (.literal 0x45)
    ∧ decodeTableWord 16 0x4445 = some (.literal 0x44)
    -- "POLL c0" and the end of the line
    ∧ decodeLine [0x50, 0x4F, 0x4C, 0x4C, 0x20, 0x63, 0x30, 0x0A] = .ok (.poll 0, [])
    -- "RXBYTE c12 5C" and the end of the line
    ∧ decodeLine [0x52, 0x58, 0x42, 0x59, 0x54, 0x45, 0x20, 0x63, 0x31, 0x32, 0x20, 0x35, 0x43, 0x0A]
        = .ok (.rxbyte 12 0x5C, [])

/-- R81 to R84: every well-formed symbol is read back from its bytes, whatever follows that does not make a marker with a literal. The
grouping of bytes into symbols is the model's (log 8). -/
def Obligations.SymbolsDecodeWhatTheyEncode : Prop :=
  ∀ (cfg : Config) (kinds : List ChannelKind) (i : Instr) (rest : ByteSeq),
    cfg.wf = true → i.isSymbol = true → i.wellFormed cfg kinds = true →
    (∀ (b y : Byte) (r : ByteSeq), i = .literal b → rest = y :: r → (b, y) ≠ cfg.hdr ∧ (b, y) ≠ cfg.ftr) →
    decodeSymbol cfg (encode cfg i ++ rest) = .ok (i, rest)

/-- R93: every operation, with every operand, is read back from its line, whatever text follows. The character codes and the lines of
the parts of RXBYTE and of DISPATCH are the model's (log 6). -/
def Obligations.LinesDecodeWhatTheyEncode : Prop :=
  ∀ (cfg : Config) (i : Instr) (rest : ByteSeq),
    i.isSymbol = false → decodeLine (encode cfg i ++ rest) = .ok (i, rest)

/-- A step runs the symbol at the head of the served queue, within what the POLL in progress may still take, at the state past its
bytes (R15, R150; the grouping of bytes into symbols is the model's, log 8). -/
def Obligations.StepRunsTheDecodedSymbol : Prop :=
  ∀ (s : State) (b : Burst) (ch : StreamChannel) (i : Instr) (rest : ByteSeq),
    s.cfg.wf = true → s.polling = some b → s.channels[s.served]? = some (.stream ch) →
    decodeSymbol s.cfg (ch.rxq.take b.left) = .ok (i, rest) →
    step s = exec i { s with
      channels := s.channels.set s.served
        (.stream { ch with rxq := ch.rxq.drop ((ch.rxq.take b.left).length - rest.length) })
      polling := some
        { left := b.left - ((ch.rxq.take b.left).length - rest.length)
          taken := b.taken + ((ch.rxq.take b.left).length - rest.length) } }

/-- A step with no POLL in progress runs the next line of the program, at the state past its text (R93). That a program is text held
in the state is the model's (log 7). -/
def Obligations.StepRunsTheDecodedLine : Prop :=
  ∀ (s : State) (i : Instr) (rest : ByteSeq),
    s.cfg.wf = true → s.channels ≠ [] → s.polling = none → decodeLine s.script = .ok (i, rest) → i.isProgramLine = true →
    step s = exec i { s with script := rest }

/-- A POLL in progress that may take no more byte, or finds none, ends and its count is given (R150, D14); with no POLL and no line
left, a step changes nothing (D27). Both are the model's reading (logs 12 and 21). -/
def Obligations.StepWithNothingToDecode : Prop :=
  ∀ (s : State), s.cfg.wf = true →
    (∀ (b : Burst) (ch : StreamChannel), s.polling = some b → s.channels[s.served]? = some (.stream ch) →
      (ch.rxq = [] ∨ b.left = 0) →
      step s = .next { s with polling := none, results := s.results ++ [.polled s.served b.taken] })
    ∧ (s.channels ≠ [] → s.polling = none → s.script = [] → step s = .next s)

/-- R13, U7: a configuration that breaks one of P1 to P5 has no meaning (log 3). -/
def Obligations.StepRefusesConstantsOutsideP1ToP5 : Prop :=
  ∀ (s : State),
    (s.cfg.esc = s.cfg.h0 ∨ s.cfg.esc = s.cfg.h1 ∨ s.cfg.esc = s.cfg.f0 ∨ s.cfg.esc = s.cfg.f1
      ∨ (s.cfg.h0, s.cfg.h1) = (s.cfg.f0, s.cfg.f1)
      ∨ s.cfg.h1 = s.cfg.h0 ∨ s.cfg.h1 = s.cfg.f0 ∨ s.cfg.f1 = s.cfg.h0 ∨ s.cfg.f1 = s.cfg.f0
      ∨ s.cfg.maxFrame < 4 ∨ s.cfg.burstCap < 1) →
    step s = .refused .badConfiguration

/-- R56 and R191: a line that names a part of RXBYTE or DISPATCH is not performed; they happen only inside a step
(log 11). -/
def Obligations.PartsAndDispatchNeverRunOnTheirOwn : Prop :=
  ∀ (s : State) (i : Instr) (rest : ByteSeq),
    s.cfg.wf = true → s.channels ≠ [] → s.polling = none → decodeLine s.script = .ok (i, rest) →
    ((∃ c b, i = .rxbyteAppend c b) ∨ (∃ c, i = .rxbyteHdrMatch c) ∨ (∃ c, i = .rxbyteIdleDiscard c)
      ∨ (∃ c, i = .rxbyteIdleHold c) ∨ (∃ c, i = .rxbyteFrameDone c) ∨ (∃ c, i = .rxbyteOverflow c)
      ∨ (∃ c, i = .rxbyteAccum c) ∨ (∃ c f, i = .dispatch c f)) →
    step s = .refused (.notOnItsOwn i)

/-- R93: the text of a program, stepped through, does what its lines do one after another (logs 7 and 12). -/
def Obligations.SteppingThroughAProgramPerformsItsLines : Prop :=
  ∀ (s : State) (prog : List Instr) (rest : ByteSeq),
    s.cfg.wf = true → s.channels ≠ [] → s.polling = none → (∀ i ∈ prog, i.isProgramLine = true) →
    s.script = programText s.cfg prog ++ rest →
    Sys2Proof.core.run prog.length s = runLines prog { s with script := rest }

/-! ### The codec -/

/-- R86: the escape-trigger predicate, both conditions. -/
def Obligations.EscapeTriggerIsConditionAOrB : Prop :=
  ∀ (cfg : Config) (p : ByteSeq) (i : Nat), i < p.length →
    (needsEsc cfg p i = true ↔
      (p[i]? = some cfg.esc
        ∨ (i ≠ p.length - 1 ∧ ∃ x y, p[i]? = some x ∧ p[i + 1]? = some y
            ∧ ((x, y) = (cfg.h0, cfg.h1) ∨ (x, y) = (cfg.f0, cfg.f1)))))

/-- R110: ESCLEN gives the length plus the number of triggering indices, and changes nothing else. -/
def Obligations.EsclenCountsTheTriggers : Prop :=
  ∀ (p : ByteSeq) (s : State),
    exec (.esclen p) s = .next { s with
      results := s.results ++ [.length (p.length + (List.range p.length).countP (needsEsc s.cfg p))] }

/-- R111: ENCODE copies every byte, an escape byte before each that triggers, and gives exactly ESCLEN bytes. -/
def Obligations.EncodeEscapesEachTriggerOnce : Prop :=
  ∀ (p : ByteSeq) (s : State), ∃ q : ByteSeq,
    exec (.encode p) s = .next { s with results := s.results ++ [.bytes q] }
    ∧ q = (List.range p.length).flatMap (fun i => if needsEsc s.cfg p i then s.cfg.esc :: p[i]?.toList else p[i]?.toList)
    ∧ exec (.esclen p) s = .next { s with results := s.results ++ [.length q.length] }

/-- R112: DECODE gives the new length and the bytes, changes nothing else, and its scan from the left is: an escape byte is dropped
and the byte after it is copied whatever it is, a trailing escape byte is dropped, any other byte is copied. -/
def Obligations.DecodeDropsEachOpenEscape : Prop :=
  ∀ (s : State), ∃ d : ByteSeq → ByteSeq,
    (∀ b, exec (.decode b) s = .next { s with results := s.results ++ [.decoded (d b).length (d b)] })
    ∧ d [] = [] ∧ d [s.cfg.esc] = []
    ∧ (∀ x rest, d (s.cfg.esc :: x :: rest) = x :: d rest)
    ∧ (∀ x rest, x ≠ s.cfg.esc → d (x :: rest) = x :: d rest)

/-- R113: TXFRAME gives header, escaped payload and footer, ESCLEN plus 4 bytes, and changes nothing else. -/
def Obligations.TxframeWrapsTheEscapedPayload : Prop :=
  ∀ (p : ByteSeq) (s : State), ∃ q : ByteSeq,
    exec (.encode p) s = .next { s with results := s.results ++ [.bytes q] }
    ∧ exec (.txframe p) s = .next { s with
        results := s.results ++ [.bytes ([s.cfg.h0, s.cfg.h1] ++ q ++ [s.cfg.f0, s.cfg.f1])] }
    ∧ exec (.esclen p) s = .next { s with
        results := s.results ++ [.length (([s.cfg.h0, s.cfg.h1] ++ q ++ [s.cfg.f0, s.cfg.f1]).length - 4)] }

/-- R114: `DECODE(ENCODE(x)) == x` for every byte sequence and any constants. -/
def Obligations.DecodeUndoesEncode : Prop :=
  ∀ (x : ByteSeq) (s : State), ∃ q : ByteSeq,
    exec (.encode x) s = .next { s with results := s.results ++ [.bytes q] }
    ∧ exec (.decode q) s = .next { s with results := s.results ++ [.decoded x.length x] }

/-- R115: DECODE is the identity on data with no escape byte; with one it is not idempotent. -/
def Obligations.DecodeIsIdentityWithoutEscapes : Prop :=
  (∀ (x : ByteSeq) (s : State), s.cfg.esc ∉ x →
    exec (.decode x) s = .next { s with results := s.results ++ [.decoded x.length x] })
  ∧ Codec.decode Config.frc [0x5C, 0x5C, 0x5C, 0x5C] = [0x5C, 0x5C] ∧ Codec.decode Config.frc [0x5C, 0x5C] = [0x5C]

/-- R117: bounds of the lengths, and when ESCLEN is twice the length. -/
def Obligations.CodecLengthsAreBounded : Prop :=
  ∀ (cfg : Config) (p : ByteSeq), cfg.wf = true →
    p.length ≤ Codec.escLen cfg p ∧ Codec.escLen cfg p ≤ 2 * p.length
    ∧ (Codec.escLen cfg p = 2 * p.length ↔ ∀ b ∈ p, b = cfg.esc)
    ∧ p.length / 2 ≤ (Codec.decode cfg p).length ∧ (Codec.decode cfg p).length ≤ p.length

/-- R118: the streaming forms compute exactly ENCODE and DECODE. -/
def Obligations.StreamingFormsComputeTheCodec : Prop :=
  ∀ (cfg : Config) (p : ByteSeq),
    Codec.encodeStream cfg p = Codec.encode cfg p ∧ Codec.decodeStream cfg false p = Codec.decode cfg p

/-- R64 and R112: the in-place loop leaves the decoded bytes at the front of a buffer of unchanged size, and every write index it uses
is at most the read index (said at every point of the loop that starts so). -/
def Obligations.InPlaceDecodeGivesTheDecodedBytes : Prop :=
  ∀ (cfg : Config) (b : ByteSeq),
    (Codec.decodeInPlace cfg b).2 = (Codec.decode cfg b).length
    ∧ (Codec.decodeInPlace cfg b).1.take (Codec.decodeInPlace cfg b).2 = Codec.decode cfg b
    ∧ (Codec.decodeInPlace cfg b).1.length = b.length
    ∧ ∀ (i o : Nat), o ≤ i → i ≤ b.length →
        (Codec.decodeLoop cfg b.length b i o).1.take (Codec.decodeLoop cfg b.length b i o).2
          = b.take o ++ Codec.decode cfg (b.drop i)

/-- R119: the escaped payload is free of adjacent marker pairs exactly when the payload is. -/
def Obligations.EncodeKeepsMarkerPairs : Prop :=
  ∀ (cfg : Config) (p : ByteSeq), cfg.wf = true →
    (MarkerFree cfg (Codec.encode cfg p) ↔ MarkerFree cfg p)

/-- R203: a dangling escape byte after complete data is dropped and the rest is what it was. -/
def Obligations.TruncatedEscapeIsDropped : Prop :=
  ∀ (p : ByteSeq) (s : State),
    exec (.decode (Codec.encode s.cfg p ++ [s.cfg.esc])) s = .next { s with results := s.results ++ [.decoded p.length p] }

/-! ### The rows of RXBYTE -/

/-- R141 and R59: the append stores the byte at `buf[len]` and adds 1 to `len`; it is legal only below MAX_FRAME (elsewhere the model
stops, log 14). -/
def Obligations.AppendStoresTheByteAtLen : Prop :=
  ∀ (s : State) (c : Nat) (b : Byte) (ch : StreamChannel), s.channels[c]? = some (.stream ch) →
    (ch.len < s.cfg.maxFrame →
      exec (.rxbyteAppend c b) s
        = .next { s with channels := s.channels.set c (.stream { ch with buf := ch.buf ++ [b] }) })
    ∧ (s.cfg.maxFrame ≤ ch.len → exec (.rxbyteAppend c b) s = .fault (.bufferOverrun c))

/-- R142: the header check. -/
def Obligations.HeaderCheckStartsOrRestartsAFrame : Prop :=
  ∀ (s : State) (c : Nat) (ch : StreamChannel), s.channels[c]? = some (.stream ch) →
    ([s.cfg.h0, s.cfg.h1] <:+ ch.buf → ch.st = .idle →
      exec (.rxbyteHdrMatch c) s = .next { s with
        channels := s.channels.set c (.stream { ch with st := .receiving, buf := [s.cfg.h0, s.cfg.h1] })
        events := s.events ++ [(c, .frameStart)] })
    ∧ ([s.cfg.h0, s.cfg.h1] <:+ ch.buf → ch.st = .receiving →
      exec (.rxbyteHdrMatch c) s = .next { s with
        channels := s.channels.set c (.stream { ch with st := .receiving, buf := [s.cfg.h0, s.cfg.h1] })
        events := s.events ++ [(c, .resync (ch.len - 2))] })

/-- R143: the idle discard drops all buffered bytes; R144, R147: the hold and the accumulate rows do nothing. A row whose condition
fails does nothing, which is the model's choice for a row run on its own (log 10). -/
def Obligations.IdleDiscardEmptiesAndUnselectedRowsKeep : Prop :=
  ∀ (s : State) (c : Nat) (ch : StreamChannel), s.channels[c]? = some (.stream ch) →
    (¬ [s.cfg.h0, s.cfg.h1] <:+ ch.buf → ch.st = .idle → 2 < ch.len →
      exec (.rxbyteIdleDiscard c) s = .next { s with
        channels := s.channels.set c (.stream { ch with buf := [] })
        events := s.events ++ [(c, .idleDiscard ch.len)] })
    ∧ (([s.cfg.h0, s.cfg.h1] <:+ ch.buf ∨ ch.st = .receiving ∨ ch.len ≤ 2) → exec (.rxbyteIdleDiscard c) s = .next s)
    ∧ exec (.rxbyteIdleHold c) s = .next s
    ∧ exec (.rxbyteAccum c) s = .next s
    ∧ (¬ [s.cfg.h0, s.cfg.h1] <:+ ch.buf → exec (.rxbyteHdrMatch c) s = .next s)
    ∧ (([s.cfg.h0, s.cfg.h1] <:+ ch.buf ∨ ch.st = .idle ∨ ¬ [s.cfg.f0, s.cfg.f1] <:+ ch.buf) →
      exec (.rxbyteFrameDone c) s = .next s)
    ∧ (([s.cfg.h0, s.cfg.h1] <:+ ch.buf ∨ [s.cfg.f0, s.cfg.f1] <:+ ch.buf ∨ ch.st = .idle ∨ ch.len < s.cfg.maxFrame) →
      exec (.rxbyteOverflow c) s = .next s)

/-- R145, R210, R211: frame completion decodes the whole buffer, dispatches it once, and returns to Idle with an empty buffer. -/
def Obligations.FrameDoneDispatchesTheDecodedBuffer : Prop :=
  ∀ (s : State) (c : Nat) (ch : StreamChannel), s.channels[c]? = some (.stream ch) →
    ¬ [s.cfg.h0, s.cfg.h1] <:+ ch.buf → ch.st = .receiving → [s.cfg.f0, s.cfg.f1] <:+ ch.buf →
    exec (.rxbyteFrameDone c) s = .next { s with
      channels := s.channels.set c (.stream { ch with st := .idle, buf := [] })
      frames := s.frames ++ [(c, Codec.decode s.cfg ch.buf)]
      events := s.events ++ [(c, .frameDone (Codec.decode s.cfg ch.buf))] }

/-- R146, R202: overflow drops the frame and dispatches nothing. -/
def Obligations.OverflowDropsTheFrame : Prop :=
  ∀ (s : State) (c : Nat) (ch : StreamChannel), s.channels[c]? = some (.stream ch) →
    ¬ [s.cfg.h0, s.cfg.h1] <:+ ch.buf → ¬ [s.cfg.f0, s.cfg.f1] <:+ ch.buf → ch.st = .receiving → s.cfg.maxFrame ≤ ch.len →
    exec (.rxbyteOverflow c) s = .next { s with
      channels := s.channels.set c (.stream { ch with st := .idle, buf := [] })
      events := s.events ++ [(c, .overflow ch.len)] }

/-- R95: exactly one of the six outcomes is selected, by the conditions of the table, each read with those before it failed. -/
def Obligations.EveryByteHasExactlyOneOutcome : Prop :=
  ∀ (cfg : Config) (ch : StreamChannel),
    (selectOutcome cfg ch = .hdrMatch ↔ [cfg.h0, cfg.h1] <:+ ch.buf)
    ∧ (selectOutcome cfg ch = .idleDiscard ↔ ¬ [cfg.h0, cfg.h1] <:+ ch.buf ∧ ch.st = .idle ∧ 2 < ch.len)
    ∧ (selectOutcome cfg ch = .idleHold ↔ ¬ [cfg.h0, cfg.h1] <:+ ch.buf ∧ ch.st = .idle ∧ ch.len ≤ 2)
    ∧ (selectOutcome cfg ch = .frameDone ↔
        ¬ [cfg.h0, cfg.h1] <:+ ch.buf ∧ ch.st = .receiving ∧ [cfg.f0, cfg.f1] <:+ ch.buf)
    ∧ (selectOutcome cfg ch = .overflow ↔
        ¬ [cfg.h0, cfg.h1] <:+ ch.buf ∧ ch.st = .receiving ∧ ¬ [cfg.f0, cfg.f1] <:+ ch.buf ∧ cfg.maxFrame ≤ ch.len)
    ∧ (selectOutcome cfg ch = .accum ↔
        ¬ [cfg.h0, cfg.h1] <:+ ch.buf ∧ ch.st = .receiving ∧ ¬ [cfg.f0, cfg.f1] <:+ ch.buf ∧ ch.len < cfg.maxFrame)

/-- R140, R149: one received byte: the table of transitions of `st` with what is buffered, dispatched and recorded (R201 resync, R202
overflow). A full buffer, where the append is not legal, is left out (R59). -/
def Obligations.ReceivedByteFollowsTheTransitionTable : Prop :=
  ∀ (s : State) (c : Nat) (b : Byte) (ch : StreamChannel),
    s.channels[c]? = some (.stream ch) → ch.len < s.cfg.maxFrame →
    ([s.cfg.h0, s.cfg.h1] <:+ ch.buf ++ [b] → ch.st = .idle →
      exec (.rxbyte c b) s = .next { s with
        channels := s.channels.set c (.stream { ch with st := .receiving, buf := [s.cfg.h0, s.cfg.h1] })
        events := s.events ++ [(c, .frameStart)] })
    ∧ ([s.cfg.h0, s.cfg.h1] <:+ ch.buf ++ [b] → ch.st = .receiving →
      exec (.rxbyte c b) s = .next { s with
        channels := s.channels.set c (.stream { ch with st := .receiving, buf := [s.cfg.h0, s.cfg.h1] })
        events := s.events ++ [(c, .resync (ch.len + 1 - 2))] })
    ∧ (¬ [s.cfg.h0, s.cfg.h1] <:+ ch.buf ++ [b] → ch.st = .idle → 2 < ch.len + 1 →
      exec (.rxbyte c b) s = .next { s with
        channels := s.channels.set c (.stream { ch with st := .idle, buf := [] })
        events := s.events ++ [(c, .idleDiscard (ch.len + 1))] })
    ∧ (¬ [s.cfg.h0, s.cfg.h1] <:+ ch.buf ++ [b] → ch.st = .idle → ch.len + 1 ≤ 2 →
      exec (.rxbyte c b) s = .next { s with channels := s.channels.set c (.stream { ch with st := .idle, buf := ch.buf ++ [b] }) })
    ∧ (¬ [s.cfg.h0, s.cfg.h1] <:+ ch.buf ++ [b] → ch.st = .receiving → [s.cfg.f0, s.cfg.f1] <:+ ch.buf ++ [b] →
      exec (.rxbyte c b) s = .next { s with
        channels := s.channels.set c (.stream { ch with st := .idle, buf := [] })
        frames := s.frames ++ [(c, Codec.decode s.cfg (ch.buf ++ [b]))]
        events := s.events ++ [(c, .frameDone (Codec.decode s.cfg (ch.buf ++ [b])))] })
    ∧ (¬ [s.cfg.h0, s.cfg.h1] <:+ ch.buf ++ [b] → ch.st = .receiving → ¬ [s.cfg.f0, s.cfg.f1] <:+ ch.buf ++ [b] →
        s.cfg.maxFrame ≤ ch.len + 1 →
      exec (.rxbyte c b) s = .next { s with
        channels := s.channels.set c (.stream { ch with st := .idle, buf := [] })
        events := s.events ++ [(c, .overflow (ch.len + 1))] })
    ∧ (¬ [s.cfg.h0, s.cfg.h1] <:+ ch.buf ++ [b] → ch.st = .receiving → ¬ [s.cfg.f0, s.cfg.f1] <:+ ch.buf ++ [b] →
        ch.len + 1 < s.cfg.maxFrame →
      exec (.rxbyte c b) s = .next { s with channels := s.channels.set c (.stream { ch with st := .receiving, buf := ch.buf ++ [b] }) })

/-- R92: RXBYTE is the append followed by its six rows, of which the selected one acts (that the others do nothing is log 10). R148:
under P2 and P4 the other reading, in which every check is evaluated in turn by its own condition alone on the state the previous one
left, gives what the priority chain gives. -/
def Obligations.FallThroughOfTheChecksGivesRxbyte : Prop :=
  ∀ (s : State) (c : Nat) (b : Byte),
    exec (.rxbyte c b) s
      = runLines [.rxbyteAppend c b, .rxbyteHdrMatch c, .rxbyteIdleDiscard c, .rxbyteIdleHold c, .rxbyteFrameDone c,
          .rxbyteOverflow c, .rxbyteAccum c] s
    ∧ ((s.cfg.h0, s.cfg.h1) ≠ (s.cfg.f0, s.cfg.f1) → 4 ≤ s.cfg.maxFrame →
        exec (.rxbyte c b) s = onStream c (fallThrough s.cfg b) s)

/-- R12, R14: a stream operation needs a stream channel that exists; RXDGRAM a datagram channel (log 15). -/
def Obligations.OperationsRefuseChannelsOfTheOtherKind : Prop :=
  ∀ (s : State) (c : Nat) (i : Instr),
    ((∃ b, i = .rxbyte c b) ∨ (∃ b, i = .rxbyteAppend c b) ∨ i = .rxbyteHdrMatch c ∨ i = .rxbyteIdleDiscard c
        ∨ i = .rxbyteIdleHold c ∨ i = .rxbyteFrameDone c ∨ i = .rxbyteOverflow c ∨ i = .rxbyteAccum c
        ∨ (∃ b w, i = .rxseq c (b :: w)) →
      (s.channels.length ≤ c → exec i s = .refused (.noSuchChannel c))
      ∧ (∀ dc, s.channels[c]? = some (.datagram dc) → exec i s = .refused (.wrongKind c)))
    ∧ ((∃ d, i = .rxdgram c d) ∨ i = .poll c ∨ i = .reset c ∨ (∃ f, i = .dispatch c f) ∨ (∃ bs, i = .arrive c bs) →
      s.channels.length ≤ c → exec i s = .refused (.noSuchChannel c))
    ∧ (∀ d ch, i = .rxdgram c d → s.channels[c]? = some (.stream ch) → exec i s = .refused (.wrongKind c))

/-! ### Sequences of bytes, symbols and polls -/

/-- R94, R151: RXSEQ is one RXBYTE for each byte, in order, and a sequence may be cut anywhere. -/
def Obligations.RxseqIsRxbyteForEachByte : Prop :=
  ∀ (s : State) (c : Nat),
    exec (.rxseq c []) s = .next s
    ∧ (∀ b, exec (.rxseq c [b]) s = exec (.rxbyte c b) s)
    ∧ (∀ u v, exec (.rxseq c (u ++ v)) s = andThen (exec (.rxseq c u) s) (exec (.rxseq c v)))

/-- R94, R81 to R84, R151, R152, R157: RXSEQ, and each wire symbol on the served channel, is the run over its bytes. From a channel
that meets R24 it goes to the end; only that channel changes, its queue does not, it meets R24 again, and every frame dispatched
starts with the header, ends with the footer and has 4 to MAX_FRAME bytes. That a symbol acts on the served channel is the model's
choice (log 8). -/
def Obligations.RxseqAndSymbolsRunTheirBytes : Prop :=
  ∀ (s : State) (c : Nat) (w : ByteSeq) (ch : StreamChannel) (i : Instr),
    s.cfg.wf = true → s.channels[c]? = some (.stream ch) → ch.Inv s.cfg →
    (i = .rxseq c w
      ∨ (c = s.served ∧ ((i = .hdr ∧ w = [s.cfg.h0, s.cfg.h1]) ∨ (i = .ftr ∧ w = [s.cfg.f0, s.cfg.f1])
          ∨ (i = .esc ∧ w = [s.cfg.esc]) ∨ ∃ b, i = .literal b ∧ w = [b]))) →
    ∃ (e : ChannelStep), run s.cfg ch w = some e
      ∧ exec i s = .next { s with
          channels := s.channels.set c (.stream e.ch)
          frames := s.frames ++ e.frames.map (fun f => (c, f))
          events := s.events ++ e.events.map (fun x => (c, x)) }
      ∧ e.ch.Inv s.cfg ∧ e.ch.rxq = ch.rxq ∧ ∀ f ∈ e.frames, isFrame s.cfg f = true

/-- R81, R142, R153: the header symbol received by the served channel. In Idle it starts a frame at phases 0 and 1 and is lost at
phase 2; in Receiving it restarts the frame, or its first byte overflows the buffer (vector V32a). -/
def Obligations.HeaderSymbolIsFoundOrLostByPhase : Prop :=
  ∀ (s : State) (ch : StreamChannel),
    s.cfg.wf = true → s.channels[s.served]? = some (.stream ch) → ch.Inv s.cfg →
    (ch.st = .idle → ch.len ≤ 1 →
      exec .hdr s = .next { s with
        channels := s.channels.set s.served (.stream { ch with st := .receiving, buf := [s.cfg.h0, s.cfg.h1] })
        events := s.events ++ [(s.served, .frameStart)] })
    ∧ (ch.st = .idle → ch.len = 2 →
      exec .hdr s = .next { s with
        channels := s.channels.set s.served (.stream { ch with st := .idle, buf := [s.cfg.h1] })
        events := s.events ++ [(s.served, .idleDiscard 3)] })
    ∧ (ch.st = .receiving → ch.len + 1 < s.cfg.maxFrame →
      exec .hdr s = .next { s with
        channels := s.channels.set s.served (.stream { ch with st := .receiving, buf := [s.cfg.h0, s.cfg.h1] })
        events := s.events ++ [(s.served, .resync ch.len)] })
    ∧ (ch.st = .receiving → s.cfg.maxFrame ≤ ch.len + 1 →
      exec .hdr s = .next { s with
        channels := s.channels.set s.served (.stream { ch with st := .idle, buf := [s.cfg.h1] })
        events := s.events ++ [(s.served, .overflow s.cfg.maxFrame)] })

/-- R82, R145: the footer symbol received by the served channel. In Receiving it ends the frame, or its first byte overflows the
buffer (vector V29a); in Idle it is ordinary bytes (vector V23). -/
def Obligations.FooterSymbolEndsTheFrame : Prop :=
  ∀ (s : State) (ch : StreamChannel),
    s.cfg.wf = true → s.channels[s.served]? = some (.stream ch) → ch.Inv s.cfg →
    (ch.st = .receiving → ch.len + 1 < s.cfg.maxFrame →
      exec .ftr s = .next { s with
        channels := s.channels.set s.served (.stream { ch with st := .idle, buf := [] })
        frames := s.frames ++ [(s.served, Codec.decode s.cfg (ch.buf ++ [s.cfg.f0, s.cfg.f1]))]
        events := s.events ++ [(s.served, .frameDone (Codec.decode s.cfg (ch.buf ++ [s.cfg.f0, s.cfg.f1])))] })
    ∧ (ch.st = .receiving → s.cfg.maxFrame ≤ ch.len + 1 →
      exec .ftr s = .next { s with
        channels := s.channels.set s.served (.stream { ch with st := .idle, buf := [s.cfg.f1] })
        events := s.events ++ [(s.served, .overflow s.cfg.maxFrame)] })
    ∧ (ch.st = .idle → ch.len = 0 →
      exec .ftr s = .next { s with
        channels := s.channels.set s.served (.stream { ch with st := .idle, buf := [s.cfg.f0, s.cfg.f1] }) })
    ∧ (ch.st = .idle → ch.len = 1 →
      exec .ftr s = .next { s with
        channels := s.channels.set s.served (.stream { ch with st := .idle, buf := [] })
        events := s.events ++ [(s.served, .idleDiscard 3)] })
    ∧ (ch.st = .idle → ch.len = 2 →
      exec .ftr s = .next { s with
        channels := s.channels.set s.served (.stream { ch with st := .idle, buf := [s.cfg.f1] })
        events := s.events ++ [(s.served, .idleDiscard 3)] })

/-- R150: POLL takes `min(|rxq|, RX_BURST_CAP)` bytes, oldest first, each as a RXBYTE, and leaves the rest queued in order. The channel
becomes the served one (log 8). -/
def Obligations.PollConsumesABoundedBurst : Prop :=
  ∀ (s : State) (c : Nat) (ch : StreamChannel),
    s.cfg.wf = true → s.channels[c]? = some (.stream ch) → ch.Inv s.cfg →
    ∃ t, exec (.rxseq c (ch.rxq.take s.cfg.burstCap))
          { s with channels := s.channels.set c (.stream { ch with rxq := ch.rxq.drop s.cfg.burstCap }) } = .next t
      ∧ exec (.poll c) s = .next { t with
          results := t.results ++ [.polled c (min ch.rxq.length s.cfg.burstCap)], served := c }

/-- R182, U11: POLL of a datagram channel handles some number of the pending datagrams, each by RXDGRAM, in order of arrival, and
leaves the rest. The number is a free value; the pending queue is the model's (log 16), and so are the
count recorded (log 23) and that the channel becomes the served one (log 8). -/
def Obligations.PollOfDatagramsHandlesSomeInOrder : Prop :=
  ∀ (s : State) (c : Nat) (dc : DatagramChannel), s.channels[c]? = some (.datagram dc) →
    ∃ (k : Nat) (t : State), k ≤ dc.pending.length
      ∧ runLines ((dc.pending.take k).map (.rxdgram c))
          { s with
            channels := s.channels.set c (.datagram { pending := dc.pending.drop k, draws := dc.draws + 1 })
            served := c } = .next t
      ∧ exec (.poll c) s = .next { t with results := t.results ++ [.polledDatagrams c k] }

/-- R151, R63: any sequence of ARRIVE, POLL, RXBYTE and RXSEQ lines of a stream channel completes, and leaves the channel and gives the
frames that the run over the bytes it consumed gives, with the bytes not consumed still pending. Where bytes are received by POLL only,
what was pending and what arrived is consumed and left in that order, and enough POLLs at the end leave nothing. -/
def Obligations.FramesDoNotDependOnTheCutIntoPolls : Prop :=
  ∀ (s : State) (c : Nat) (prog : List Instr) (ch : StreamChannel),
    s.cfg.wf = true → s.channels[c]? = some (.stream ch) → ch.Inv s.cfg →
    (∀ i ∈ prog, i = .poll c ∨ (∃ w, i = .arrive c w) ∨ (∃ b, i = .rxbyte c b) ∨ (∃ w, i = .rxseq c w)) →
    (∃ (e : ChannelStep) (t : State), run s.cfg { ch with rxq := [] } (consumed s.cfg.burstCap c ch.rxq prog).1 = some e
      ∧ runLines prog s = .next t
      ∧ t.channels = s.channels.set c (.stream { e.ch with rxq := (consumed s.cfg.burstCap c ch.rxq prog).2 })
      ∧ t.frames = s.frames ++ e.frames.map (fun f => (c, f))
      ∧ t.events = s.events ++ e.events.map (fun x => (c, x)))
    ∧ ((∀ i ∈ prog, i = .poll c ∨ (∃ w, i = .arrive c w)) →
        (consumed s.cfg.burstCap c ch.rxq prog).1 ++ (consumed s.cfg.burstCap c ch.rxq prog).2 = ch.rxq ++ programBytes c prog)
    ∧ (∀ (first : List Instr) (n : Nat), prog = first ++ List.replicate n (.poll c) →
        (ch.rxq ++ programBytes c first).length ≤ n * s.cfg.burstCap →
        (consumed s.cfg.burstCap c ch.rxq prog).2 = [])

/-- R15, R31, R150: a POLL started through the port, run symbol by symbol, ends in the state that the one operation POLL gives (logs 8
and 12). -/
def Obligations.SteppingAPollSymbolBySymbolIsPoll : Prop :=
  ∀ (s : State) (ch : StreamChannel),
    s.Inv → s.polling = some { left := s.cfg.burstCap, taken := 0 } → s.channels[s.served]? = some (.stream ch) →
    ∃ n, n ≤ s.cfg.burstCap + 1 ∧ Sys2Proof.core.run n s = exec (.poll s.served) { s with polling := none }

/-- R34, R215: in any program that completes, a channel of either kind ends as it ends when the lines that name it run alone, and
dispatches the same frames, whatever the lines of other channels do in between. R93, R151: a stream channel whose lines are RXBYTE,
RXSEQ, ARRIVE and POLL ends as the run over the bytes it consumed, with the rest pending; without ARRIVE and POLL lines those bytes are
the concatenation of the operands. -/
def Obligations.ProgramRunsEachChannelOverItsBytes : Prop :=
  ∀ (s t : State) (c : Nat) (prog : List Instr),
    (∀ i ∈ prog, i.isProgramLine = true) → runLines prog s = .next t →
    (∃ t', runLines (prog.filter (fun i => i.channel? = some c)) s = .next t'
      ∧ t'.channels[c]? = t.channels[c]? ∧ t'.framesOf c = t.framesOf c)
    ∧ (∀ ch, s.channels[c]? = some (.stream ch) →
        (∀ i ∈ prog, i.channel? = some c →
          i = .poll c ∨ (∃ w, i = .arrive c w) ∨ (∃ b, i = .rxbyte c b) ∨ (∃ w, i = .rxseq c w)) →
        ∃ e, run s.cfg { ch with rxq := [] } (consumed s.cfg.burstCap c ch.rxq prog).1 = some e
          ∧ t.channels[c]? = some (.stream { e.ch with rxq := (consumed s.cfg.burstCap c ch.rxq prog).2 })
          ∧ t.framesOf c = s.framesOf c ++ e.frames)
    ∧ ((∀ i ∈ prog, i.channel? = some c → (∃ b, i = .rxbyte c b) ∨ (∃ w, i = .rxseq c w)) →
        ∀ q, consumed s.cfg.burstCap c q prog = (programBytes c prog, q))

/-! ### Datagrams, reset, dispatch, arrival -/

/-- R180: a datagram is accepted exactly when it has 4 to MAX_FRAME bytes, starts with the header and ends with the footer; it is then
unescaped and dispatched, else dropped. Nothing else changes (R181). -/
def Obligations.DatagramIsValidatedWhole : Prop :=
  ∀ (s : State) (c : Nat) (d : ByteSeq) (dc : DatagramChannel), s.channels[c]? = some (.datagram dc) →
    ((4 ≤ d.length ∧ d.length ≤ s.cfg.maxFrame ∧ [s.cfg.h0, s.cfg.h1] <+: d ∧ [s.cfg.f0, s.cfg.f1] <:+ d) →
      exec (.rxdgram c d) s = .next { s with frames := s.frames ++ [(c, Codec.decode s.cfg d)] })
    ∧ (¬ (4 ≤ d.length ∧ d.length ≤ s.cfg.maxFrame ∧ [s.cfg.h0, s.cfg.h1] <+: d ∧ [s.cfg.f0, s.cfg.f1] <:+ d) →
      exec (.rxdgram c d) s = .next { s with events := s.events ++ [(c, .datagramRejected d.length)] })

/-- R180 point (5), R236: on a datagram channel every payload that fits is carried intact, marker pairs included. -/
def Obligations.DatagramCarriesEveryPayload : Prop :=
  ∀ (s : State) (c : Nat) (p : ByteSeq) (dc : DatagramChannel),
    s.cfg.wf = true → s.channels[c]? = some (.datagram dc) → Codec.escLen s.cfg p + 4 ≤ s.cfg.maxFrame →
    exec (.rxdgram c (Codec.txFrame s.cfg p)) s
      = .next { s with frames := s.frames ++ [(c, [s.cfg.h0, s.cfg.h1] ++ p ++ [s.cfg.f0, s.cfg.f1])] }

/-- R190, R241: RESET gives `(Idle, 0)`, loses a frame in progress without a dispatch or a label, and touches neither the queue nor
anything else; a datagram channel has nothing to reset (R36). -/
def Obligations.ResetReturnsTheChannelToIdle : Prop :=
  ∀ (s : State) (c : Nat),
    (∀ ch, s.channels[c]? = some (.stream ch) →
      exec (.reset c) s = .next { s with channels := s.channels.set c (.stream { ch with st := .idle, buf := [] }) })
    ∧ (∀ dc, s.channels[c]? = some (.datagram dc) → exec (.reset c) s = .next s)

/-- R191: DISPATCH adds the frame to the output trace and changes nothing of FRC. The operation on its own is the model's (log 11). -/
def Obligations.DispatchOnlyAddsToTheTrace : Prop :=
  ∀ (s : State) (c : Nat) (f : ByteSeq), c < s.channels.length →
    exec (.dispatch c f) s = .next { s with frames := s.frames ++ [(c, f)] }

/-- R94, R29: ARRIVE appends the bytes to the tail of `rxq`; on a datagram channel one whole datagram joins the pending ones (log 16). -/
def Obligations.ArriveAppendsToTheQueue : Prop :=
  ∀ (s : State) (c : Nat) (bs : ByteSeq),
    (∀ ch, s.channels[c]? = some (.stream ch) →
      exec (.arrive c bs) s = .next { s with channels := s.channels.set c (.stream { ch with rxq := ch.rxq ++ bs }) })
    ∧ (∀ dc, s.channels[c]? = some (.datagram dc) →
      exec (.arrive c bs) s = .next { s with
        channels := s.channels.set c (.datagram { dc with pending := dc.pending ++ [bs] }) })

/-! ### The whole machine -/

/-- R35, R230: after reset every stream channel is `(Idle, 0)`, nothing is dispatched or recorded, no POLL is in progress, and the
constants are those of R7 to R11. -/
def Obligations.ResetStateIsIdleAndEmpty : Prop :=
  (∀ ch, Channel.stream ch ∈ State.reset.channels → ch.st = .idle ∧ ch.len = 0)
  ∧ State.reset.frames = [] ∧ State.reset.events = [] ∧ State.reset.results = [] ∧ State.reset.polling = none
  ∧ State.reset.cfg = { esc := 0x5C, h0 := 0x45, h1 := 0x44, f0 := 0x4D, f1 := 0x4F, maxFrame := 512, burstCap := 1024 }
  ∧ lenWidth State.reset.cfg = 10

/-- R24, R152: the invariant holds after reset. -/
def Obligations.ResetMeetsTheStateInvariant : Prop := State.reset.Inv

/-- R24, R152: every step keeps the invariant. -/
def Obligations.EveryStepKeepsTheStateInvariant : Prop :=
  ∀ (s t : State), s.Inv → step s = .next t → t.Inv

/-- R200: FRC has no fault state; from a state that meets the invariant no step faults, and a POLL in progress on a stream channel has
a next state whatever its bytes are (R89). -/
def Obligations.NoStepFaultsAndNoByteIsRefused : Prop :=
  ∀ (s : State), s.Inv →
    SafeStep s
    ∧ (∀ b ch, s.polling = some b → s.channels[s.served]? = some (.stream ch) → ∃ t, step s = .next t)

/-- R157, R191: every frame a step dispatches starts with the header, ends with the footer, has 4 to MAX_FRAME bytes and comes from a
channel that exists; the trace only grows. -/
def Obligations.EveryDispatchedFrameHasTheFrameShape : Prop :=
  ∀ (s t : State), s.Inv → step s = .next t →
    ∃ fs, t.frames = s.frames ++ fs ∧ ∀ f ∈ fs, isFrame s.cfg f.2 = true ∧ f.1 < s.channels.length

/-- R27, R12: no instruction changes a constant, the number of channels or a channel's kind. -/
def Obligations.ConstantsNeverChange : Prop :=
  ∀ (s t : State) (i : Instr), exec i s = .next t ∨ step s = .next t →
    t.cfg = s.cfg ∧ t.kinds = s.kinds

/-- R34: an instruction of channel `c` writes nothing of another channel, whose frames do not change either; a symbol is of the served
channel; a codec operation touches no channel (R28). -/
def Obligations.ChannelsDoNotShareState : Prop :=
  ∀ (s t : State) (i : Instr), exec i s = .next t →
    (∀ c d, i.channel? = some c → d ≠ c → t.channels[d]? = s.channels[d]? ∧ t.framesOf d = s.framesOf d)
    ∧ (∀ d, i.isSymbol = true → d ≠ s.served → t.channels[d]? = s.channels[d]? ∧ t.framesOf d = s.framesOf d)
    ∧ (i.channel? = none → i.isSymbol = false → t.channels = s.channels ∧ t.frames = s.frames ∧ t.events = s.events)

/-- R34, R160: what an instruction does to its channel and which frames it dispatches depends on that channel and the constants alone,
not on other channels, on what was dispatched or recorded before, or on the program. -/
def Obligations.AnInstructionReadsOnlyItsChannel : Prop :=
  ∀ (s s' t : State) (i : Instr) (c : Nat),
    i.channel? = some c → s'.cfg = s.cfg → s'.channels[c]? = s.channels[c]? →
    exec i s = .next t →
    ∃ t', exec i s' = .next t' ∧ t'.channels[c]? = t.channels[c]?
      ∧ ∃ fs es, t.frames = s.frames ++ fs ∧ t'.frames = s'.frames ++ fs ∧ t.events = s.events ++ es
          ∧ t'.events = s'.events ++ es

/-- R16, R33, R192: the frames, the results and the labels are written and never read: a step from a state that differs in them only
does the same and adds the same to them. -/
def Obligations.NothingReadsTheHistory : Prop :=
  ∀ (s t : State) (fr : List (Nat × ByteSeq)) (rs : List Result) (ev : List (Nat × Event)),
    step s = .next t →
    ∃ fs qs es, t.frames = s.frames ++ fs ∧ t.results = s.results ++ qs ∧ t.events = s.events ++ es
      ∧ step { s with frames := fr, results := rs, events := ev }
          = .next { t with frames := fr ++ fs, results := rs ++ qs, events := ev ++ es }

/-! ### What reaches the dispatcher -/

/-- R155, R88: a raw frame of 4 to MAX_FRAME bytes with no marker pair between its header and footer is delivered, decoded, and the
channel ends as it began. -/
def Obligations.RawFrameThatFitsIsDelivered : Prop :=
  ∀ (s : State) (c : Nat) (w : ByteSeq) (ch : StreamChannel),
    s.cfg.wf = true → s.channels[c]? = some (.stream ch) → ch.st = .idle → ch.buf = [] →
    MarkerFree s.cfg w → w.length + 4 ≤ s.cfg.maxFrame →
    exec (.rxseq c ([s.cfg.h0, s.cfg.h1] ++ w ++ [s.cfg.f0, s.cfg.f1])) s = .next { s with
      frames := s.frames ++ [(c, Codec.decode s.cfg ([s.cfg.h0, s.cfg.h1] ++ w ++ [s.cfg.f0, s.cfg.f1]))]
      events := s.events ++ [(c, .frameStart),
        (c, .frameDone (Codec.decode s.cfg ([s.cfg.h0, s.cfg.h1] ++ w ++ [s.cfg.f0, s.cfg.f1])))] }

/-- R155, R202: a longer one is dropped at its byte number MAX_FRAME, nothing is dispatched, and the rest is consumed in Idle, which
leaves the phase `(L - MAX_FRAME) mod 3`. -/
def Obligations.RawFrameThatIsTooLongIsDropped : Prop :=
  ∀ (s : State) (c : Nat) (w : ByteSeq) (ch : StreamChannel),
    s.cfg.wf = true → s.channels[c]? = some (.stream ch) → ch.st = .idle → ch.buf = [] →
    MarkerFree s.cfg w → s.cfg.maxFrame < w.length + 4 →
    exec (.rxseq c (([s.cfg.h0, s.cfg.h1] ++ w ++ [s.cfg.f0, s.cfg.f1]).take s.cfg.maxFrame)) s
      = .next { s with events := s.events ++ [(c, .frameStart), (c, .overflow s.cfg.maxFrame)] }
    ∧ ∃ t ch', exec (.rxseq c ([s.cfg.h0, s.cfg.h1] ++ w ++ [s.cfg.f0, s.cfg.f1])) s = .next t
        ∧ t.frames = s.frames ∧ t.channels[c]? = some (.stream ch') ∧ ch'.st = .idle
        ∧ ch'.len = (w.length + 4 - s.cfg.maxFrame) % 3

/-- R154: desync recovery. Header, some bytes, a second header with no footer between, more bytes and a footer give exactly one frame,
which starts from the second header. -/
def Obligations.SecondHeaderRestartsTheFrame : Prop :=
  ∀ (s : State) (c : Nat) (u w : ByteSeq) (ch : StreamChannel),
    s.cfg.wf = true → s.channels[c]? = some (.stream ch) → ch.st = .idle → ch.buf = [] →
    MarkerFree s.cfg u → MarkerFree s.cfg w → u.length + 4 ≤ s.cfg.maxFrame → w.length + 4 ≤ s.cfg.maxFrame →
    exec (.rxseq c ([s.cfg.h0, s.cfg.h1] ++ u ++ [s.cfg.h0, s.cfg.h1] ++ w ++ [s.cfg.f0, s.cfg.f1])) s = .next { s with
      frames := s.frames ++ [(c, Codec.decode s.cfg ([s.cfg.h0, s.cfg.h1] ++ w ++ [s.cfg.f0, s.cfg.f1]))]
      events := s.events ++ [(c, .frameStart), (c, .resync (u.length + 2)),
        (c, .frameDone (Codec.decode s.cfg ([s.cfg.h0, s.cfg.h1] ++ w ++ [s.cfg.f0, s.cfg.f1])))] }

/-- R156, one direction: a payload with no marker pair that fits arrives whole, and the channel ends idle and empty. -/
def Obligations.PayloadWithoutMarkersArrivesIntact : Prop :=
  ∀ (s : State) (c : Nat) (p : ByteSeq) (ch : StreamChannel),
    s.cfg.wf = true → s.channels[c]? = some (.stream ch) → ch.st = .idle → ch.buf = [] →
    MarkerFree s.cfg p → Codec.escLen s.cfg p + 4 ≤ s.cfg.maxFrame →
    exec (.rxseq c (Codec.txFrame s.cfg p)) s = .next { s with
      frames := s.frames ++ [(c, [s.cfg.h0, s.cfg.h1] ++ p ++ [s.cfg.f0, s.cfg.f1])]
      events := s.events ++ [(c, .frameStart), (c, .frameDone ([s.cfg.h0, s.cfg.h1] ++ p ++ [s.cfg.f0, s.cfg.f1]))] }

/-- R156, the other direction: if exactly that one frame arrives, the payload had no marker pair and fitted. Escaping does not make a
marker pair safe on a stream channel. -/
def Obligations.OnlyPayloadsWithoutMarkersArriveIntact : Prop :=
  ∀ (s t : State) (c : Nat) (p : ByteSeq) (ch : StreamChannel),
    s.cfg.wf = true → s.channels[c]? = some (.stream ch) → ch.st = .idle → ch.buf = [] →
    exec (.rxseq c (Codec.txFrame s.cfg p)) s = .next t →
    t.frames = s.frames ++ [(c, [s.cfg.h0, s.cfg.h1] ++ p ++ [s.cfg.f0, s.cfg.f1])] →
    MarkerFree s.cfg p ∧ Codec.escLen s.cfg p + 4 ≤ s.cfg.maxFrame

/-- R153: from an empty Idle buffer, after bytes none of which completed a header, a header is lost exactly when their number is 2
modulo 3. -/
def Obligations.IdleHeaderIsLostAtPhaseTwo : Prop :=
  ∀ (s t : State) (c : Nat) (w : ByteSeq) (ch : StreamChannel) (es : List (Nat × Event)),
    s.cfg.wf = true → s.channels[c]? = some (.stream ch) → ch.st = .idle → ch.buf = [] →
    exec (.rxseq c w) s = .next t → t.events = s.events ++ es → (c, Event.frameStart) ∉ es →
    ∃ t' ch', exec (.rxseq c (w ++ [s.cfg.h0, s.cfg.h1])) s = .next t' ∧ t'.channels[c]? = some (.stream ch')
      ∧ t'.frames = s.frames
      ∧ (ch'.st = .receiving ↔ w.length % 3 ≠ 2)
      ∧ (w.length % 3 ≠ 2 → ch'.buf = [s.cfg.h0, s.cfg.h1]) ∧ (w.length % 3 = 2 → ch'.buf = [s.cfg.h1])

/-- R159: a channel in Receiving is never wedged: within `MAX_FRAME - len` further bytes it restarts on a header, completes a frame or
drops one. -/
def Obligations.ReceivingIsNeverWedged : Prop :=
  ∀ (s : State) (c : Nat) (w : ByteSeq) (ch : StreamChannel),
    s.cfg.wf = true → s.channels[c]? = some (.stream ch) → ch.Inv s.cfg → ch.st = .receiving →
    w.length = s.cfg.maxFrame - ch.len →
    ∃ (u v : ByteSeq) (t : State) (e : Event), w = u ++ v ∧ exec (.rxseq c u) s = .next t ∧ t.events = s.events ++ [(c, e)]
      ∧ ((∃ n, e = .resync n) ∨ (∃ f, e = .frameDone f) ∨ (∃ n, e = .overflow n))
end

