-- ==== Sys2Proof/Laws/State.lean ====
section
/-! SUPPORT. One lemma for each field of the state under each named update, so that no proof unfolds a record update. -/

namespace Sys2Proof
namespace Machine

variable (s : State) (c : Nat) (x : Channel) (f : ByteSeq) (e : Event) (r : Result)

@[simp] theorem setChannel_cfg : (setChannel c x s).cfg = s.cfg := rfl
@[simp] theorem setChannel_channels : (setChannel c x s).channels = s.channels.set c x := rfl
@[simp] theorem setChannel_frames : (setChannel c x s).frames = s.frames := rfl
@[simp] theorem setChannel_results : (setChannel c x s).results = s.results := rfl
@[simp] theorem setChannel_events : (setChannel c x s).events = s.events := rfl
@[simp] theorem setChannel_script : (setChannel c x s).script = s.script := rfl
@[simp] theorem setChannel_served : (setChannel c x s).served = s.served := rfl
@[simp] theorem setChannel_polling : (setChannel c x s).polling = s.polling := rfl

@[simp] theorem dispatch_cfg : (dispatch c f s).cfg = s.cfg := rfl
@[simp] theorem dispatch_channels : (dispatch c f s).channels = s.channels := rfl
@[simp] theorem dispatch_frames : (dispatch c f s).frames = s.frames ++ [(c, f)] := rfl
@[simp] theorem dispatch_results : (dispatch c f s).results = s.results := rfl
@[simp] theorem dispatch_events : (dispatch c f s).events = s.events := rfl
@[simp] theorem dispatch_script : (dispatch c f s).script = s.script := rfl
@[simp] theorem dispatch_served : (dispatch c f s).served = s.served := rfl
@[simp] theorem dispatch_polling : (dispatch c f s).polling = s.polling := rfl

@[simp] theorem raise_cfg : (raise c e s).cfg = s.cfg := rfl
@[simp] theorem raise_channels : (raise c e s).channels = s.channels := rfl
@[simp] theorem raise_frames : (raise c e s).frames = s.frames := rfl
@[simp] theorem raise_results : (raise c e s).results = s.results := rfl
@[simp] theorem raise_events : (raise c e s).events = s.events ++ [(c, e)] := rfl
@[simp] theorem raise_script : (raise c e s).script = s.script := rfl
@[simp] theorem raise_served : (raise c e s).served = s.served := rfl
@[simp] theorem raise_polling : (raise c e s).polling = s.polling := rfl

@[simp] theorem give_cfg : (give r s).cfg = s.cfg := rfl
@[simp] theorem give_channels : (give r s).channels = s.channels := rfl
@[simp] theorem give_frames : (give r s).frames = s.frames := rfl
@[simp] theorem give_results : (give r s).results = s.results ++ [r] := rfl
@[simp] theorem give_events : (give r s).events = s.events := rfl
@[simp] theorem give_script : (give r s).script = s.script := rfl
@[simp] theorem give_served : (give r s).served = s.served := rfl
@[simp] theorem give_polling : (give r s).polling = s.polling := rfl

@[simp] theorem quiet_ch (ch : StreamChannel) : (quiet ch).ch = ch := rfl
@[simp] theorem quiet_frames (ch : StreamChannel) : (quiet ch).frames = [] := rfl
@[simp] theorem quiet_events (ch : StreamChannel) : (quiet ch).events = [] := rfl

@[simp] theorem followedBy_ch (a b : ChannelStep) : (a.followedBy b).ch = b.ch := rfl
@[simp] theorem followedBy_frames (a b : ChannelStep) : (a.followedBy b).frames = a.frames ++ b.frames := rfl
@[simp] theorem followedBy_events (a b : ChannelStep) : (a.followedBy b).events = a.events ++ b.events := rfl

@[simp] theorem quiet_followedBy (ch : StreamChannel) (e : ChannelStep) : (quiet ch).followedBy e = e := rfl

theorem followedBy_assoc (a b d : ChannelStep) : (a.followedBy b).followedBy d = a.followedBy (b.followedBy d) := by
  simp [ChannelStep.followedBy]

@[simp] theorem followedBy_quiet (a : ChannelStep) : a.followedBy (quiet a.ch) = a := by
  simp [ChannelStep.followedBy, quiet]

@[simp] theorem kind_stream (ch : StreamChannel) : (Channel.stream ch).kind = .stream := rfl
@[simp] theorem kind_datagram (dc : DatagramChannel) : (Channel.datagram dc).kind = .datagram := rfl

end Machine
end Sys2Proof
end

