-- ==== Sys2Proof/Laws/Buffer.lean ====
section
/-! SUPPORT. The buffer primitives and the marker window: what each gives, and that each keeps the canonical form. -/

namespace Sys2Proof
namespace Machine

/-- The whole of what the append can do (20_memory.md R59). -/
theorem append_eq (cap : Nat) (ch : StreamChannel) (b : Byte) :
    ch.append cap b = if ch.len < cap then some { ch with buf := ch.buf ++ [b] } else none := by
  unfold StreamChannel.append memWrite StreamChannel.len
  by_cases h : ch.buf.length < cap
  · have : ch.buf.length + 1 ≤ cap := h
    simp [h, this]
  · have : ¬ ch.buf.length + 1 ≤ cap := by omega
    simp [h, this]

theorem append_of_lt {cap : Nat} {ch : StreamChannel} (b : Byte) (h : ch.len < cap) :
    ch.append cap b = some { ch with buf := ch.buf ++ [b] } := by
  simp [append_eq, h]

theorem append_of_le {cap : Nat} {ch : StreamChannel} (b : Byte) (h : cap ≤ ch.len) : ch.append cap b = none := by
  simp [append_eq, Nat.not_lt.mpr h]

/-- The pair at an index is there exactly when both its bytes are. -/
theorem pairAt_eq_some_iff {p : ByteSeq} {i : Nat} {x y : Byte} :
    pairAt p i = some (x, y) ↔ p[i]? = some x ∧ p[i + 1]? = some y := by
  unfold pairAt
  cases p[i]? <;> cases p[i + 1]? <;> simp

theorem pairAt_nil (i : Nat) : pairAt [] i = none := by simp [pairAt]

theorem pairAt_cons_zero (x y : Byte) (r : ByteSeq) : pairAt (x :: y :: r) 0 = some (x, y) := rfl

theorem pairAt_cons_succ (x : Byte) (r : ByteSeq) (i : Nat) : pairAt (x :: r) (i + 1) = pairAt r i := rfl

/-- The window of R85 holds a pair exactly when the buffer ends in it. -/
theorem last2_eq_some_iff {buf : ByteSeq} {x y : Byte} : last2 buf = some (x, y) ↔ [x, y] <:+ buf := by
  unfold last2
  constructor
  · intro h
    split at h
    · rename_i hl
      rw [pairAt_eq_some_iff] at h
      refine ⟨buf.take (buf.length - 2), ?_⟩
      apply List.ext_getElem?
      intro n
      rw [List.getElem?_append]
      simp only [List.length_take]
      by_cases hn : n < buf.length - 2
      · simp [hn]
      · have hm : min (buf.length - 2) buf.length = buf.length - 2 := by omega
        rw [hm]
        simp only [hn, if_false]
        rcases Nat.lt_or_ge n buf.length with h1 | h1
        · have : n = buf.length - 2 ∨ n = buf.length - 2 + 1 := by omega
          rcases this with rfl | rfl
          · simp [h.1]
          · simp [h.2]
        · rw [List.getElem?_eq_none (by simp; omega), List.getElem?_eq_none h1]
    · cases h
  · rintro ⟨w, rfl⟩
    simp [pairAt]

/-- After an append the window is the byte that was last and the new byte. -/
theorem last2_append_singleton (buf : ByteSeq) (b : Byte) :
    last2 (buf ++ [b]) = buf.getLast?.map (fun a => (a, b)) := by
  cases h : buf.getLast? with
  | none =>
    rw [List.getLast?_eq_none_iff] at h
    subst h
    rfl
  | some a =>
    obtain ⟨w, rfl⟩ := List.getLast?_eq_some_iff.mp h
    simp only [Option.map_some]
    rw [last2_eq_some_iff]
    exact ⟨w, by simp⟩

/-! ### The canonical form -/

theorem append_keeps_wf {cap : Nat} {ch ch' : StreamChannel} {b : Byte} (h : ch.append cap b = some ch') :
    Memory.wf cap ch'.buf = true := by
  rw [append_eq] at h
  split at h
  · rename_i hl
    cases h
    unfold StreamChannel.len at hl
    simp [Memory.wf]
    omega
  · cases h

theorem clear_keeps_wf (cap : Nat) (ch : StreamChannel) : Memory.wf cap ch.clear.buf = true := by
  simp [Memory.wf, StreamChannel.clear]

theorem keepHeader_keeps_wf {cfg : Config} (h : 2 ≤ cfg.maxFrame) (ch : StreamChannel) :
    Memory.wf cfg.maxFrame (ch.keepHeader cfg).buf = true := by
  simpa [Memory.wf, StreamChannel.keepHeader, Config.hdrBytes] using h

theorem memWrite_keeps_wf {cap addr : Nat} {buf buf' v : ByteSeq} (hb : Memory.wf cap buf = true)
    (h : memWrite cap buf addr v = some buf') : Memory.wf cap buf' = true := by
  unfold memWrite at h
  split at h
  · cases h
    simp [Memory.wf] at hb ⊢
    omega
  · cases h

/-- A write is read back. -/
theorem memRead_memWrite {cap addr : Nat} {buf buf' v : ByteSeq} (h : memWrite cap buf addr v = some buf') :
    memRead buf' addr v.length = some v := by
  unfold memWrite at h
  split at h
  · rename_i hl
    cases h
    unfold memRead
    have h1 : (List.take addr buf).length = addr := by simp; omega
    rw [if_pos (by simp; omega), List.append_assoc, List.drop_append_of_le_length (by omega),
      List.drop_of_length_le (by omega)]
    simp
  · cases h

/-- A write leaves every other cell alone. -/
theorem memWrite_other {cap addr a : Nat} {buf buf' v : ByteSeq} (h : memWrite cap buf addr v = some buf')
    (ha : a < addr ∨ addr + v.length ≤ a) : buf'[a]? = buf[a]? := by
  unfold memWrite at h
  split at h
  · rename_i hl
    cases h
    have h1 : (List.take addr buf).length = addr := by simp; omega
    rw [List.append_assoc, List.getElem?_append, h1]
    rcases ha with ha | ha
    · simp [ha]
    · rw [if_neg (by omega), List.getElem?_append, if_neg (by omega), List.getElem?_drop]
      congr 1
      omega
  · cases h

theorem resetChannel_wf (cap : Nat) : Memory.wf cap StreamChannel.reset.buf = true := by
  simp [Memory.wf, StreamChannel.reset]

end Machine
end Sys2Proof
end

