-- ==== Sys2Proof/Laws/Codec.lean ====
section
/-! SUPPORT. The codec: the equations of DECODE, and ENCODE and ESCLEN as a flat map and a count. -/

namespace Sys2Proof
namespace Machine
namespace Codec

variable (cfg : Config)

@[simp] theorem decode_nil : decode cfg [] = [] := rfl

@[simp] theorem decode_esc_nil : decode cfg [cfg.esc] = [] := by simp [decode]

@[simp] theorem decode_esc_cons (x : Byte) (rest : ByteSeq) : decode cfg (cfg.esc :: x :: rest) = x :: decode cfg rest := by
  simp [decode]

theorem decode_cons {x : Byte} (h : x ≠ cfg.esc) (rest : ByteSeq) : decode cfg (x :: rest) = x :: decode cfg rest := by
  cases rest <;> simp [decode, h]

/-- DECODE of data without an escape byte in front of more data. -/
theorem decode_append_of_notMem {u : ByteSeq} (h : cfg.esc ∉ u) (v : ByteSeq) : decode cfg (u ++ v) = u ++ decode cfg v := by
  induction u with
  | nil => rfl
  | cons x u ih =>
    simp only [List.mem_cons, not_or] at h
    rw [List.cons_append, decode_cons cfg (Ne.symm h.1), ih h.2, List.cons_append]

/-- DECODE never lengthens. -/
theorem length_decode_le (b : ByteSeq) : (decode cfg b).length ≤ b.length := by
  induction b using decode.induct cfg with
  | case1 => simp
  | case2 => simp
  | case3 b h => simp [decode, h]
  | case4 x rest ih => simp only [decode_esc_cons, List.length_cons]; omega
  | case5 b x rest h ih => rw [decode_cons cfg h]; simp only [List.length_cons] at ih ⊢; omega

theorem foldl_append_eq_flatMap {α : Type} (g : α → ByteSeq) (l : List α) (acc : ByteSeq) :
    l.foldl (fun out i => out ++ g i) acc = acc ++ l.flatMap g := by
  induction l generalizing acc with
  | nil => simp
  | cons a l ih => simp [ih, List.append_assoc]

theorem encode_eq_flatMap (p : ByteSeq) : encode cfg p = (List.range p.length).flatMap (encodeAt cfg p) := by
  rw [encode, foldl_append_eq_flatMap, List.nil_append]

theorem foldl_count {α : Type} (t : α → Bool) (l : List α) (n : Nat) :
    l.foldl (fun count i => if t i then count + 1 else count) n = n + l.countP t := by
  induction l generalizing n with
  | nil => simp
  | cons a l ih =>
    simp only [List.foldl_cons, ih, List.countP_cons]
    split <;> omega

theorem escLen_eq_count (p : ByteSeq) :
    escLen cfg p = p.length + (List.range p.length).countP (needsEsc cfg p) := by
  simp [escLen, foldl_count]

/-- The trigger of the first byte, and of the bytes after it. -/
theorem needsEsc_cons_succ (x : Byte) (p : ByteSeq) (i : Nat) : needsEsc cfg (x :: p) (i + 1) = needsEsc cfg p i := by
  simp [needsEsc, pairAt_cons_succ]

theorem encodeAt_cons_succ (x : Byte) (p : ByteSeq) (i : Nat) : encodeAt cfg (x :: p) (i + 1) = encodeAt cfg p i := by
  simp [encodeAt, needsEsc_cons_succ]

@[simp] theorem encode_nil : encode cfg [] = [] := rfl

/-- ENCODE by structure: the first byte's output, then the rest. -/
theorem encode_cons (x : Byte) (p : ByteSeq) :
    encode cfg (x :: p) = (if needsEsc cfg (x :: p) 0 then [cfg.esc, x] else [x]) ++ encode cfg p := by
  rw [encode_eq_flatMap, encode_eq_flatMap, List.length_cons, List.range_succ_eq_map, List.flatMap_cons, List.flatMap_map]
  congr 1
  · unfold encodeAt
    split <;> simp
  · congr 1
    funext i
    exact encodeAt_cons_succ cfg x p i

@[simp] theorem escLen_nil : escLen cfg [] = 0 := rfl

/-- ESCLEN by structure. -/
theorem escLen_cons (x : Byte) (p : ByteSeq) :
    escLen cfg (x :: p) = (if needsEsc cfg (x :: p) 0 then 2 else 1) + escLen cfg p := by
  rw [escLen_eq_count, escLen_eq_count, List.length_cons, List.range_succ_eq_map, List.countP_cons, List.countP_map]
  have : (needsEsc cfg (x :: p) ∘ Nat.succ) = needsEsc cfg p := by
    funext i
    exact needsEsc_cons_succ cfg x p i
  rw [this]
  split <;> omega

theorem length_encode (p : ByteSeq) : (encode cfg p).length = escLen cfg p := by
  induction p with
  | nil => rfl
  | cons x p ih =>
    rw [encode_cons, escLen_cons, List.length_append, ih]
    split <;> rfl

/-- A byte that does not trigger is not the escape byte. -/
theorem ne_esc_of_not_needsEsc {x : Byte} {p : ByteSeq} (h : needsEsc cfg (x :: p) 0 = false) : x ≠ cfg.esc := by
  intro hx
  subst hx
  simp [needsEsc] at h

end Codec
end Machine
end Sys2Proof
end

