-- ==== Sys2Proof/Laws/Decode.lean ====
section
/-! SUPPORT. Small facts of the decoder and the encoder, for the round trips. -/

namespace Sys2Proof

/-- Every mnemonic names its operation. -/
theorem opOf_word (o : Op) : opOf o.word = some o := by
  cases o <;> decide

/-- No mnemonic holds a space or the end of a line. -/
theorem word_noBreak (o : Op) : ∀ b ∈ o.word, b ≠ spaceByte ∧ b ≠ newlineByte := by
  cases o <;> decide

/-- The first word of a line is its mnemonic. -/
theorem takeWord_append_space {w : ByteSeq} (h : ∀ b ∈ w, b ≠ spaceByte ∧ b ≠ newlineByte) (t : ByteSeq) :
    takeWord (w ++ spaceByte :: t) = (w, spaceByte :: t) := by
  induction w with
  | nil => simp [takeWord]
  | cons b w ih =>
    have hb := h b (by simp)
    have := ih (fun x hx => h x (by simp [hx]))
    simp [takeWord, hb.1, hb.2, this]

/-- Two hexadecimal digits write their byte. -/
theorem hexPair_byteText (b : Byte) : hexPair (hexDigit (b.toNat / 16)) (hexDigit (b.toNat % 16)) = some b := by
  revert b
  decide

theorem readByte_byteText (b : Byte) (rest : ByteSeq) : readByte (byteText b ++ rest) = some (b, rest) := by
  simp [byteText, readByte, hexPair_byteText]

/-- A decimal digit (R93) is read back from its character. -/
theorem decimalVal_decimalDigit : ∀ d < 10, decimalVal (decimalDigit d) = some d := by decide

@[simp] theorem readChar_self (b : Byte) (rest : ByteSeq) : readChar b (b :: rest) = some rest := by
  simp [readChar]

end Sys2Proof
end

