-- ==== Sys2Proof/Laws/Ops.lean ====
section
/-! SUPPORT. The shared operations: everything each can do, said once. -/

namespace Sys2Proof
namespace Machine

@[simp] theorem andThen_next (s : State) (f : State → Answer) : andThen (.next s) f = f s := rfl
@[simp] theorem andThen_fault (r : Fault) (f : State → Answer) : andThen (.fault r) f = .fault r := rfl
@[simp] theorem andThen_refused (r : Refusal) (f : State → Answer) : andThen (.refused r) f = .refused r := rfl

theorem andThen_assoc (o : Answer) (f g : State → Answer) :
    andThen (andThen o f) g = andThen o (fun s => andThen (f s) g) := by
  cases o <;> rfl

@[simp] theorem andThen_next_right (o : Answer) : andThen o .next = o := by
  cases o <;> rfl

/-- Where a sequence answers a next state, both its parts did. -/
theorem andThen_eq_next {o : Answer} {f : State → Answer} {t : State} :
    andThen o f = .next t ↔ ∃ s, o = .next s ∧ f s = .next t := by
  cases o <;> simp [andThen]

/-- A list of operations after an answer is the answer, then the list. -/
theorem foldl_andThen {α : Type} (g : α → State → Answer) (l : List α) (o : Answer) :
    l.foldl (fun o a => andThen o (g a)) o = andThen o (fun s => l.foldl (fun o a => andThen o (g a)) (.next s)) := by
  induction l generalizing o with
  | nil => simp
  | cons a l ih =>
    simp only [List.foldl_cons]
    rw [ih (andThen o (g a)), andThen_assoc]
    congr 1
    funext s
    rw [ih (andThen (.next s) (g a)), andThen_next]

theorem foldl_dispatch (c : Nat) (fs : List ByteSeq) (s : State) :
    fs.foldl (fun t f => dispatch c f t) s = { s with frames := s.frames ++ fs.map (fun f => (c, f)) } := by
  induction fs generalizing s with
  | nil => simp
  | cons f fs ih => rw [List.foldl_cons, ih]; simp [dispatch]

theorem foldl_raise (c : Nat) (es : List Event) (s : State) :
    es.foldl (fun t e => raise c e t) s = { s with events := s.events ++ es.map (fun e => (c, e)) } := by
  induction es generalizing s with
  | nil => simp
  | cons e es ih => rw [List.foldl_cons, ih]; simp [raise]

/-- Everything that `commit` writes. -/
theorem commit_eq (c : Nat) (e : ChannelStep) (s : State) :
    commit c e s = { s with
      channels := s.channels.set c (.stream e.ch)
      frames := s.frames ++ e.frames.map (fun f => (c, f))
      events := s.events ++ e.events.map (fun x => (c, x)) } := by
  simp [commit, foldl_dispatch, foldl_raise, setChannel]

theorem set_getElem?_self {α : Type} {l : List α} {c : Nat} {x : α} (h : l[c]? = some x) : l.set c x = l := by
  apply List.ext_getElem?
  intro n
  rw [List.getElem?_set]
  split
  · rename_i hn
    subst hn
    split
    · exact h.symm
    · rename_i hl
      rw [List.getElem?_eq_none (by omega)]
  · rfl

/-- An operation that did nothing leaves the state as it was. -/
theorem commit_quiet {c : Nat} {ch : StreamChannel} {s : State} (h : s.channels[c]? = some (.stream ch)) :
    commit c (quiet ch) s = s := by
  simp [commit_eq, set_getElem?_self h]

/-- Two operations on one channel, written one after the other. -/
theorem commit_commit (c : Nat) (a b : ChannelStep) (s : State) :
    commit c b (commit c a s) = commit c (a.followedBy b) s := by
  simp [commit_eq, List.append_assoc]

theorem commit_channel {c : Nat} {x : Channel} {s : State} (e : ChannelStep) (h : s.channels[c]? = some x) :
    (commit c e s).channels[c]? = some (.stream e.ch) := by
  have hl : c < s.channels.length := (List.getElem?_eq_some_iff.mp h).1
  simp [commit_eq, hl]

/-- A stream operation on a stream channel. -/
theorem onStream_stream {c : Nat} {s : State} {ch : StreamChannel} (h : s.channels[c]? = some (.stream ch))
    (f : StreamChannel → Option ChannelStep) :
    onStream c f s = match f ch with
      | none => .fault (.bufferOverrun c)
      | some e => .next (commit c e s) := by
  cases hf : f ch <;> simp [onStream, h, hf]

theorem onStream_of_some {c : Nat} {s : State} {ch : StreamChannel} {f : StreamChannel → Option ChannelStep} {e : ChannelStep}
    (h : s.channels[c]? = some (.stream ch)) (hf : f ch = some e) : onStream c f s = .next (commit c e s) := by
  simp [onStream_stream h, hf]

/-- Everything a stream operation can answer as a next state. -/
theorem onStream_eq_next {c : Nat} {s t : State} {f : StreamChannel → Option ChannelStep} :
    onStream c f s = .next t ↔
      ∃ ch e, s.channels[c]? = some (.stream ch) ∧ f ch = some e ∧ t = commit c e s := by
  constructor
  · intro h
    unfold onStream at h
    split at h
    · cases h
    · cases h
    · rename_i ch hc
      split at h
      · cases h
      · rename_i e he
        cases h
        exact ⟨ch, e, hc, he, rfl⟩
  · rintro ⟨ch, e, hc, he, rfl⟩
    exact onStream_of_some hc he

/-- Everything one datagram can do: one dispatch, or one label. -/
theorem receiveDatagram_cases (c : Nat) (d : ByteSeq) (s : State) :
    (datagramAccepted s.cfg d = true ∧ receiveDatagram c d s = dispatch c (Codec.decode s.cfg d) s)
    ∨ (datagramAccepted s.cfg d = false ∧ receiveDatagram c d s = raise c (.datagramRejected d.length) s) := by
  unfold receiveDatagram
  cases h : datagramAccepted s.cfg d <;> simp

@[simp] theorem receiveDatagram_channels (c : Nat) (d : ByteSeq) (s : State) :
    (receiveDatagram c d s).channels = s.channels := by
  rcases receiveDatagram_cases c d s with ⟨_, h⟩ | ⟨_, h⟩ <;> simp [h]

@[simp] theorem receiveDatagram_cfg (c : Nat) (d : ByteSeq) (s : State) : (receiveDatagram c d s).cfg = s.cfg := by
  rcases receiveDatagram_cases c d s with ⟨_, h⟩ | ⟨_, h⟩ <;> simp [h]

/-- A POLL of a datagram channel leaves later datagrams pending, counts its draw on that channel, and writes no other channel. -/
theorem pollDatagram_channels {c : Nat} {dc : DatagramChannel} {s t : State} (h : pollDatagram c dc s = .next t) :
    t.channels = s.channels.set c
      (.datagram { pending := dc.pending.drop (Config.datagramsPerPoll c dc.draws), draws := dc.draws + 1 }) := by
  have handle (ds : List ByteSeq) (u : State) : (ds.foldl (fun t d => receiveDatagram c d t) u).channels = u.channels := by
    induction ds generalizing u with
    | nil => rfl
    | cons d ds ih => simp [ih]
  cases h
  simp [handle]

end Machine
end Sys2Proof
end

