-- ==== Sys2Proof/Laws/PerInstr.lean ====
section
/-! SUPPORT. One lemma for each constructor: the encoding of an operation is one line, ended by the newline byte; a symbol is no line. -/

namespace Sys2Proof
namespace Laws
namespace LineForm

/-- A symbol, or a text that ends in the end of the line (30_encoding.md R93). -/
def Statement (i : Instr) : Prop :=
  i.isSymbol = true ∨ ∀ cfg, (encode cfg i).getLast? = some newlineByte

theorem hdr : Statement (.hdr) :=
  .inl rfl

theorem ftr : Statement (.ftr) :=
  .inl rfl

theorem esc : Statement (.esc) :=
  .inl rfl

theorem literal (b : Byte) : Statement (.literal b) :=
  .inl rfl

theorem esclen (p : ByteSeq) : Statement (.esclen p) :=
  .inr fun _ => List.getLast?_concat

theorem encode (p : ByteSeq) : Statement (.encode p) :=
  .inr fun _ => List.getLast?_concat

theorem decode (b : ByteSeq) : Statement (.decode b) :=
  .inr fun _ => List.getLast?_concat

theorem txframe (p : ByteSeq) : Statement (.txframe p) :=
  .inr fun _ => List.getLast?_concat

theorem rxbyte (c : Nat) (b : Byte) : Statement (.rxbyte c b) :=
  .inr fun _ => List.getLast?_concat

theorem rxbyteAppend (c : Nat) (b : Byte) : Statement (.rxbyteAppend c b) :=
  .inr fun _ => List.getLast?_concat

theorem rxbyteHdrMatch (c : Nat) : Statement (.rxbyteHdrMatch c) :=
  .inr fun _ => List.getLast?_concat

theorem rxbyteIdleDiscard (c : Nat) : Statement (.rxbyteIdleDiscard c) :=
  .inr fun _ => List.getLast?_concat

theorem rxbyteIdleHold (c : Nat) : Statement (.rxbyteIdleHold c) :=
  .inr fun _ => List.getLast?_concat

theorem rxbyteFrameDone (c : Nat) : Statement (.rxbyteFrameDone c) :=
  .inr fun _ => List.getLast?_concat

theorem rxbyteOverflow (c : Nat) : Statement (.rxbyteOverflow c) :=
  .inr fun _ => List.getLast?_concat

theorem rxbyteAccum (c : Nat) : Statement (.rxbyteAccum c) :=
  .inr fun _ => List.getLast?_concat

theorem poll (c : Nat) : Statement (.poll c) :=
  .inr fun _ => List.getLast?_concat

theorem rxdgram (c : Nat) (d : ByteSeq) : Statement (.rxdgram c d) :=
  .inr fun _ => List.getLast?_concat

theorem reset (c : Nat) : Statement (.reset c) :=
  .inr fun _ => List.getLast?_concat

theorem dispatch (c : Nat) (f : ByteSeq) : Statement (.dispatch c f) :=
  .inr fun _ => List.getLast?_concat

theorem rxseq (c : Nat) (bs : ByteSeq) : Statement (.rxseq c bs) :=
  .inr fun _ => List.getLast?_concat

theorem arrive (c : Nat) (bs : ByteSeq) : Statement (.arrive c bs) :=
  .inr fun _ => List.getLast?_concat

end LineForm
end Laws
end Sys2Proof
end

