-- ==== Sys2Proof/Laws/Reassembler.lean ====
section
/-! SUPPORT. RXBYTE on one channel: its cases, that it keeps the invariants of 10_state.md R24, and runs of bytes. -/

namespace Sys2Proof
namespace Machine

/-! ### The selector -/

/-- Everything the selector of R95 can answer, with what each answer says. -/
theorem selectOutcome_cases (cfg : Config) (ch : StreamChannel) :
    (selectOutcome cfg ch = .hdrMatch ∧ last2 ch.buf = some cfg.hdr)
    ∨ (selectOutcome cfg ch = .idleDiscard ∧ last2 ch.buf ≠ some cfg.hdr ∧ ch.st = .idle ∧ 2 < ch.len)
    ∨ (selectOutcome cfg ch = .idleHold ∧ last2 ch.buf ≠ some cfg.hdr ∧ ch.st = .idle ∧ ch.len ≤ 2)
    ∨ (selectOutcome cfg ch = .frameDone ∧ last2 ch.buf ≠ some cfg.hdr ∧ ch.st = .receiving ∧ last2 ch.buf = some cfg.ftr)
    ∨ (selectOutcome cfg ch = .overflow ∧ last2 ch.buf ≠ some cfg.hdr ∧ ch.st = .receiving ∧ last2 ch.buf ≠ some cfg.ftr
        ∧ cfg.maxFrame ≤ ch.len)
    ∨ (selectOutcome cfg ch = .accum ∧ last2 ch.buf ≠ some cfg.hdr ∧ ch.st = .receiving ∧ last2 ch.buf ≠ some cfg.ftr
        ∧ ch.len < cfg.maxFrame) := by
  unfold selectOutcome
  by_cases h : last2 ch.buf = some cfg.hdr
  · simp [h]
  · cases hs : ch.st with
    | idle =>
      by_cases h2 : 2 < ch.len
      · simp [h, h2]
      · simp [h, h2]; omega
    | receiving =>
      by_cases h2 : last2 ch.buf = some cfg.ftr
      · have h3 : cfg.ftr ≠ cfg.hdr := fun e => h (h2.trans (congrArg some e))
        simp [h2, h3]
      · by_cases h3 : cfg.maxFrame ≤ ch.len
        · simp [h, h2, h3]
        · simp [h, h2, h3]; omega

/-- The selected outcome's own condition holds. -/
theorem ownCondition_selectOutcome (cfg : Config) (ch : StreamChannel) : ownCondition cfg ch (selectOutcome cfg ch) = true := by
  rcases selectOutcome_cases cfg ch with h | h | h | h | h | h <;> rw [h.1] <;> simp [ownCondition, h]

/-! ### One received byte -/

theorem rxStep_of_lt {cfg : Config} {ch : StreamChannel} (b : Byte) (h : ch.len < cfg.maxFrame) :
    rxStep cfg b ch = some (outcomeStep cfg (selectOutcome cfg { ch with buf := ch.buf ++ [b] })
      { ch with buf := ch.buf ++ [b] }) := by
  simp [rxStep, append_of_lt b h]

theorem rxStep_of_le {cfg : Config} {ch : StreamChannel} (b : Byte) (h : cfg.maxFrame ≤ ch.len) : rxStep cfg b ch = none := by
  simp [rxStep, append_of_le b h]

/-- No outcome touches the pending queue. -/
@[simp] theorem outcomeStep_rxq (cfg : Config) (o : RxOutcome) (ch : StreamChannel) : (outcomeStep cfg o ch).ch.rxq = ch.rxq := by
  cases o <;> rfl

theorem rxStep_rxq {cfg : Config} {ch : StreamChannel} {b : Byte} {e : ChannelStep} (h : rxStep cfg b ch = some e) :
    e.ch.rxq = ch.rxq := by
  rcases Nat.lt_or_ge ch.len cfg.maxFrame with hl | hl
  · rw [rxStep_of_lt b hl] at h
    cases h
    simp
  · rw [rxStep_of_le b hl] at h
    cases h

/-- What RXBYTE does does not depend on the pending queue. -/
theorem rxStep_with_rxq (cfg : Config) (ch : StreamChannel) (b : Byte) (q : ByteSeq) :
    rxStep cfg b { ch with rxq := q }
      = (rxStep cfg b ch).map (fun e => { e with ch := { e.ch with rxq := q } }) := by
  rcases Nat.lt_or_ge ch.len cfg.maxFrame with hl | hl
  · rw [rxStep_of_lt b hl, rxStep_of_lt (ch := { ch with rxq := q }) b hl]
    have : selectOutcome cfg { st := ch.st, buf := ch.buf ++ [b], rxq := q }
        = selectOutcome cfg { st := ch.st, buf := ch.buf ++ [b], rxq := ch.rxq } := rfl
    simp only [Option.map_some, this]
    cases selectOutcome cfg { st := ch.st, buf := ch.buf ++ [b], rxq := ch.rxq } <;> rfl
  · rw [rxStep_of_le b hl, rxStep_of_le (ch := { ch with rxq := q }) b hl]
    rfl

/-! ### Checks evaluated in turn -/

@[simp] theorem checksInTurn_nil (cfg : Config) (ch : StreamChannel) : checksInTurn cfg [] ch = quiet ch := rfl

/-- The first check, then the others on the channel it left. -/
theorem checksInTurn_cons (cfg : Config) (o : RxOutcome) (os : List RxOutcome) (ch : StreamChannel) :
    checksInTurn cfg (o :: os) ch
      = (checkAlone cfg o ch).followedBy (checksInTurn cfg os (checkAlone cfg o ch).ch) := by
  have from_any (e : ChannelStep) :
      os.foldl (fun e o => e.followedBy (checkAlone cfg o e.ch)) e = e.followedBy (checksInTurn cfg os e.ch) := by
    unfold checksInTurn
    induction os generalizing e with
    | nil => simp
    | cons o os ih =>
      simp only [List.foldl_cons]
      rw [ih, ih ((quiet e.ch).followedBy _)]
      simp [followedBy_assoc]
  simpa [checksInTurn] using from_any (checkAlone cfg o ch)

/-! ### The constraints P1 to P5, one by one -/

theorem wf_iff (cfg : Config) : cfg.wf = true ↔
    cfg.esc ≠ cfg.h0 ∧ cfg.esc ≠ cfg.h1 ∧ cfg.esc ≠ cfg.f0 ∧ cfg.esc ≠ cfg.f1 ∧ cfg.hdr ≠ cfg.ftr
      ∧ cfg.h1 ≠ cfg.h0 ∧ cfg.h1 ≠ cfg.f0 ∧ cfg.f1 ≠ cfg.h0 ∧ cfg.f1 ≠ cfg.f0 ∧ 4 ≤ cfg.maxFrame ∧ 1 ≤ cfg.burstCap := by
  simp [Config.wf, and_assoc]

/-! ### The invariants of R24 -/

/-- A channel that meets R24 always has room for the next byte, so RXBYTE has a step (R89, R200). -/
theorem len_lt_of_inv {cfg : Config} {ch : StreamChannel} (hw : cfg.wf = true) (h : ch.Inv cfg) : ch.len < cfg.maxFrame := by
  have h4 := ((wf_iff cfg).mp hw).2.2.2.2.2.2.2.2.2.1
  cases hs : ch.st with
  | idle => have := (h.1 hs).1; omega
  | receiving => have := (h.2 hs).2.1; omega

theorem rxStep_isSome_of_inv {cfg : Config} {ch : StreamChannel} (b : Byte) (hw : cfg.wf = true) (h : ch.Inv cfg) :
    ∃ e, rxStep cfg b ch = some e :=
  ⟨_, rxStep_of_lt b (len_lt_of_inv hw h)⟩

/-- The empty Idle channel meets R24. -/
theorem inv_of_idle_nil {cfg : Config} {ch : StreamChannel} (hs : ch.st = .idle) (hb : ch.buf = []) : ch.Inv cfg := by
  refine ⟨fun _ => ⟨by simp [StreamChannel.len, hb], by simp [hb, Config.hdrBytes]⟩, fun h => ?_⟩
  rw [hs] at h
  cases h

/-- A channel that holds just the header in Receiving meets R24. -/
theorem inv_of_receiving_header {cfg : Config} {ch : StreamChannel} (hw : cfg.wf = true) (hs : ch.st = .receiving)
    (hb : ch.buf = cfg.hdrBytes) : ch.Inv cfg := by
  have h4 := ((wf_iff cfg).mp hw).2.2.2.2.2.2.2.2.2.1
  refine ⟨fun h => ?_, fun _ => ?_⟩
  · rw [hs] at h
    cases h
  · have hl : ch.len = 2 := by simp [StreamChannel.len, hb, Config.hdrBytes]
    refine ⟨by omega, by omega, by simp [hb, Config.hdrBytes], ?_⟩
    intro i _
    have hp : pairAt (ch.buf.drop 1) i = none := by
      unfold pairAt
      rw [List.getElem?_eq_none (i := i + 1) (by simp [hb, Config.hdrBytes])]
      cases (ch.buf.drop 1)[i]? <;> rfl
    rw [hp]
    exact ⟨nofun, nofun⟩

theorem markerFree_iff {cfg : Config} {p : ByteSeq} :
    MarkerFree cfg p ↔ ∀ i, pairAt p i ≠ some cfg.hdr ∧ pairAt p i ≠ some cfg.ftr := by
  constructor
  · intro h i
    rcases Nat.lt_or_ge i p.length with hi | hi
    · exact h i hi
    · have : pairAt p i = none := by
        unfold pairAt
        rw [List.getElem?_eq_none hi]
      simp [this]
  · exact fun h i _ => h i

/-- One more byte keeps a sequence free of markers when the new window is no marker. -/
theorem markerFree_append_singleton {cfg : Config} {p : ByteSeq} {b : Byte} (h : MarkerFree cfg p)
    (hh : last2 (p ++ [b]) ≠ some cfg.hdr) (hf : last2 (p ++ [b]) ≠ some cfg.ftr) : MarkerFree cfg (p ++ [b]) := by
  rw [markerFree_iff] at h ⊢
  intro i
  rcases Nat.lt_or_ge (i + 1) p.length with hi | hi
  · have : pairAt (p ++ [b]) i = pairAt p i := by
      unfold pairAt
      rw [List.getElem?_append_left (by omega), List.getElem?_append_left hi]
    rw [this]
    exact h i
  · rcases Nat.lt_or_ge i p.length with hj | hj
    · have hl : (p ++ [b]).length - 2 = i := by simp; omega
      have : last2 (p ++ [b]) = pairAt (p ++ [b]) i := by
        unfold last2
        rw [if_pos (by simp; omega), hl]
      rw [← this]
      exact ⟨hh, hf⟩
    · have : pairAt (p ++ [b]) i = none := by
        unfold pairAt
        rw [List.getElem?_eq_none (l := p ++ [b]) (i := i + 1) (by simp; omega)]
        cases (p ++ [b])[i]? <;> rfl
      simp [this]

/-- The window of a buffer of two or more bytes is the window without its first byte, where that leaves two. -/
theorem last2_drop_one {buf : ByteSeq} (h : 3 ≤ buf.length) : last2 (buf.drop 1) = last2 buf := by
  cases buf with
  | nil => simp at h
  | cons x r =>
    simp only [List.length_cons] at h
    unfold last2
    simp only [List.drop_succ_cons, List.drop_zero, List.length_cons]
    rw [if_pos (by omega), if_pos (by omega)]
    have : r.length + 1 - 2 = (r.length - 2) + 1 := by omega
    rw [this, pairAt_cons_succ]

/-- RXBYTE keeps the invariants of R24 on its channel. -/
theorem rxStep_keeps_inv {cfg : Config} {ch : StreamChannel} {b : Byte} {e : ChannelStep} (hw : cfg.wf = true) (h : ch.Inv cfg)
    (he : rxStep cfg b ch = some e) : e.ch.Inv cfg := by
  rw [rxStep_of_lt b (len_lt_of_inv hw h)] at he
  cases he
  have hlen : ({ ch with buf := ch.buf ++ [b] } : StreamChannel).len = ch.len + 1 := by simp [StreamChannel.len]
  rcases selectOutcome_cases cfg { ch with buf := ch.buf ++ [b] } with ⟨ho, _⟩ | ⟨ho, _, hs, _⟩ | ⟨ho, hh, hs, hl⟩ | ⟨ho, _⟩ | ⟨ho, _⟩
    | ⟨ho, hh, hs, hf, hl⟩
  · rw [ho]
    exact inv_of_receiving_header hw rfl rfl
  · rw [ho]
    exact inv_of_idle_nil hs rfl
  · rw [ho]
    refine ⟨fun _ => ⟨hl, fun hb => hh ?_⟩, fun hr => ?_⟩
    · change ch.buf ++ [b] = cfg.hdrBytes at hb
      change last2 (ch.buf ++ [b]) = _
      rw [hb]
      rfl
    · change ch.st = .idle at hs
      change ch.st = .receiving at hr
      rw [hs] at hr
      cases hr
  · rw [ho]
    exact inv_of_idle_nil rfl rfl
  · rw [ho]
    exact inv_of_idle_nil rfl rfl
  · rw [ho]
    have hs' : ch.st = .receiving := hs
    obtain ⟨h2, h3, h4, h5⟩ := h.2 hs'
    have hb2 : 2 ≤ ch.buf.length := h2
    refine ⟨fun hi => ?_, fun _ => ⟨?_, ?_, ?_, ?_⟩⟩
    · change ch.st = .idle at hi
      rw [hs'] at hi
      cases hi
    · change 2 ≤ ({ ch with buf := ch.buf ++ [b] } : StreamChannel).len
      omega
    · change ({ ch with buf := ch.buf ++ [b] } : StreamChannel).len ≤ _
      omega
    · change (ch.buf ++ [b]).take 2 = _
      rw [List.take_append_of_le_length hb2, h4]
    · change MarkerFree cfg ((ch.buf ++ [b]).drop 1)
      have hd : (ch.buf ++ [b]).drop 1 = ch.buf.drop 1 ++ [b] := List.drop_append_of_le_length (by omega)
      have hw2 : last2 (ch.buf.drop 1 ++ [b]) = last2 (ch.buf ++ [b]) := by
        rw [← hd]
        exact last2_drop_one (by simp; omega)
      rw [hd]
      exact markerFree_append_singleton h5 (by rw [hw2]; exact hh) (by rw [hw2]; exact hf)

/-! ### Runs of bytes -/

@[simp] theorem run_nil (cfg : Config) (ch : StreamChannel) : run cfg ch [] = some (quiet ch) := rfl

theorem run_cons (cfg : Config) (ch : StreamChannel) (b : Byte) (w : ByteSeq) :
    run cfg ch (b :: w) = (rxStep cfg b ch).bind (fun e => (run cfg e.ch w).map e.followedBy) := by
  simp only [run]
  cases rxStep cfg b ch <;> rfl

/-- A run over two sequences is the run over the first, then over the second (R151). -/
theorem run_append (cfg : Config) (ch : StreamChannel) (u v : ByteSeq) :
    run cfg ch (u ++ v) = (run cfg ch u).bind (fun e => (run cfg e.ch v).map e.followedBy) := by
  induction u generalizing ch with
  | nil =>
    simp only [List.nil_append, run_nil, Option.bind_some, quiet_ch]
    cases run cfg ch v <;> simp
  | cons b u ih =>
    rw [List.cons_append, run_cons, run_cons]
    cases rxStep cfg b ch with
    | none => rfl
    | some e =>
      simp only [Option.bind_some, ih]
      cases run cfg e.ch u with
      | none => rfl
      | some e1 =>
        simp only [Option.bind_some, Option.map_some, followedBy_ch]
        cases run cfg e1.ch v with
        | none => rfl
        | some e2 => simp [followedBy_assoc]

/-- RXSEQ on a stream channel is the run over its bytes, written once. -/
theorem execRxseq_eq_run {c : Nat} {s : State} {ch : StreamChannel} (h : s.channels[c]? = some (.stream ch)) (w : ByteSeq) :
    execRxseq c w s = match run s.cfg ch w with
      | none => .fault (.bufferOverrun c)
      | some e => .next (commit c e s) := by
  induction w generalizing s ch with
  | nil => simp [execRxseq, commit_quiet h]
  | cons b w ih =>
    have hstep : execRxseq c (b :: w) s = andThen (execRxbyte c b s) (execRxseq c w) := by
      unfold execRxseq
      rw [List.foldl_cons, foldl_andThen]
      rfl
    rw [hstep, run_cons, execRxbyte, receive, onStream_stream h]
    cases hr : rxStep s.cfg b ch with
    | none => simp
    | some e =>
      simp only [andThen_next, Option.bind_some]
      rw [ih (commit_channel e h)]
      have hc : (commit c e s).cfg = s.cfg := by simp [commit_eq]
      rw [hc]
      cases run s.cfg e.ch w with
      | none => rfl
      | some e2 => simp [commit_commit]

end Machine
end Sys2Proof
end

