-- ==== Sys2Proof/Laws/Step.lean ====
section
/-! SUPPORT. Everything a step can do, said once. -/

namespace Sys2Proof
namespace Machine

/-- Where a step answers a next state, the configuration is one of P1 to P5 with a channel, and the step either ran the instruction it
fetched or had none to run. -/
theorem step_eq_next {s t : State} (h : step s = .next t) :
    s.cfg.wf = true ∧ s.channels ≠ []
      ∧ ((∃ i u, fetch s = .run i u ∧ exec i u = .next t) ∨ fetch s = .still t) := by
  have good (hw : (s.cfg.wf && !s.channels.isEmpty) = true) : s.cfg.wf = true ∧ s.channels ≠ [] := by
    simpa only [Bool.and_eq_true, Bool.not_eq_true', List.isEmpty_eq_false_iff] using hw
  unfold step at h
  split at h
  · rename_i i u hf hw
    exact ⟨(good hw).1, (good hw).2, .inl ⟨i, u, hf, h⟩⟩
  · rename_i u hf hw
    cases h
    exact ⟨(good hw).1, (good hw).2, .inr hf⟩
  · cases h
  · cases h

/-- A step that runs an instruction is that instruction's meaning. -/
theorem step_of_fetch_run {s u : State} {i : Instr} (hw : s.cfg.wf = true) (hc : s.channels ≠ []) (hf : fetch s = .run i u) :
    step s = exec i u := by
  have good : (s.cfg.wf && !s.channels.isEmpty) = true := by simp [hw, hc]
  unfold step
  rw [hf, good]

/-- Everything that fetching a line can give. -/
theorem fetchLine_cases (s : State) :
    fetchLine s = .still s
    ∨ (∃ r, fetchLine s = .stop r)
    ∨ (∃ i rest, decodeLine s.script = .ok (i, rest) ∧ i.isProgramLine = true ∧ fetchLine s = .run i { s with script := rest }) := by
  unfold fetchLine
  split
  · exact .inl rfl
  · exact .inr (.inl ⟨_, rfl⟩)
  · exact .inr (.inl ⟨_, rfl⟩)
  · rename_i i rest hd
    cases hp : i.isProgramLine with
    | true => exact .inr (.inr ⟨i, rest, hd, hp, by simp⟩)
    | false => exact .inr (.inl ⟨_, by simp; rfl⟩)

/-- Everything that fetching a symbol can give. -/
theorem fetchSymbol_cases (b : Burst) (s : State) :
    (s.channels[s.served]? = none ∧ fetchSymbol b s = .stop (.noSuchChannel s.served))
    ∨ (∃ ds, s.channels[s.served]? = some (.datagram ds) ∧ fetchSymbol b s = .run (.poll s.served) { s with polling := none })
    ∨ (∃ ch, s.channels[s.served]? = some (.stream ch) ∧ ch.rxq.take b.left = [] ∧ fetchSymbol b s = .still (endPoll b s))
    ∨ (∃ ch i rest, s.channels[s.served]? = some (.stream ch) ∧ decodeSymbol s.cfg (ch.rxq.take b.left) = .ok (i, rest)
        ∧ fetchSymbol b s = .run i (takeBytes ((ch.rxq.take b.left).length - rest.length) ch b s)) := by
  unfold fetchSymbol
  split
  · rename_i h
    exact .inl ⟨h, rfl⟩
  · rename_i ds h
    exact .inr (.inl ⟨ds, h, rfl⟩)
  · rename_i ch h
    cases hd : decodeSymbol s.cfg (ch.rxq.take b.left) with
    | error r =>
      refine .inr (.inr (.inl ⟨ch, h, ?_, by simp [hd]⟩))
      match hw : ch.rxq.take b.left with
      | [] => rfl
      | [x] => rw [hw] at hd; cases hd
      | x :: y :: r =>
        rw [hw] at hd
        simp only [decodeSymbol] at hd
        split at hd
        · cases hd
        · split at hd <;> cases hd
    | ok p => exact .inr (.inr (.inr ⟨ch, p.1, p.2, h, hd, by simp [hd]⟩))

/-- What the symbol decoder gives is always a symbol. -/
theorem isSymbol_of_decodeSymbol {cfg : Config} {w rest : ByteSeq} {i : Instr} (h : decodeSymbol cfg w = .ok (i, rest)) :
    i.isSymbol = true := by
  have single : ∀ x, (decodeSingle cfg x).isSymbol = true := by
    intro x
    unfold decodeSingle
    split <;> rfl
  match w with
  | [] => cases h
  | [x] =>
    simp only [decodeSymbol, Except.ok.injEq, Prod.mk.injEq] at h
    rw [← h.1]
    exact single x
  | x :: y :: r =>
    simp only [decodeSymbol] at h
    split at h
    · cases h; rfl
    · split at h
      · cases h; rfl
      · simp only [Except.ok.injEq, Prod.mk.injEq] at h
        rw [← h.1]
        exact single x

end Machine
end Sys2Proof
end

