-- ==== Sys2Proof/Tests/Slice0.lean ====
section
/-! SUPPORT. The model's own tests. Words are written out from the encodings of spec/30_encoding.md, expected results are the vectors of
spec/95_test_vectors.md or hand calculation from the rules; and for every statement with hypotheses a state and operands that meet them. -/

namespace Sys2Proof
namespace Tests

open Sys2Proof.Machine

/-! ### WellFormed: each check and an ill-formed term that it refuses -/

abbrev kinds : List ChannelKind := [.stream, .datagram]

theorem test_illFormed_literal_is_not_esc :
    (Instr.wellFormed Config.frc kinds (.literal 0x5C)) = false := by decide

theorem test_illFormed_rxbyte_needs_stream :
    (Instr.wellFormed Config.frc kinds (.rxbyte 1 0x00)) = false := by decide

theorem test_illFormed_append_needs_stream :
    (Instr.wellFormed Config.frc kinds (.rxbyteAppend 1 0x00)) = false := by decide

theorem test_illFormed_hdrMatch_needs_stream :
    (Instr.wellFormed Config.frc kinds (.rxbyteHdrMatch 1)) = false := by decide

theorem test_illFormed_idleDiscard_needs_stream :
    (Instr.wellFormed Config.frc kinds (.rxbyteIdleDiscard 2)) = false := by decide

theorem test_illFormed_idleHold_needs_stream :
    (Instr.wellFormed Config.frc kinds (.rxbyteIdleHold 1)) = false := by decide

theorem test_illFormed_frameDone_needs_stream :
    (Instr.wellFormed Config.frc kinds (.rxbyteFrameDone 1)) = false := by decide

theorem test_illFormed_overflow_needs_stream :
    (Instr.wellFormed Config.frc kinds (.rxbyteOverflow 2)) = false := by decide

theorem test_illFormed_accum_needs_stream :
    (Instr.wellFormed Config.frc kinds (.rxbyteAccum 1)) = false := by decide

theorem test_illFormed_poll_needs_channel :
    (Instr.wellFormed Config.frc kinds (.poll 2)) = false := by decide

theorem test_illFormed_rxdgram_needs_datagram :
    (Instr.wellFormed Config.frc kinds (.rxdgram 0 [0x45])) = false := by decide

theorem test_illFormed_reset_needs_channel :
    (Instr.wellFormed Config.frc kinds (.reset 2)) = false := by decide

theorem test_illFormed_dispatch_needs_channel :
    (Instr.wellFormed Config.frc kinds (.dispatch 2 [0x45, 0x44, 0x4D, 0x4F])) = false := by decide

theorem test_illFormed_dispatch_needs_header :
    (Instr.wellFormed Config.frc kinds (.dispatch 0 [0x45, 0x45, 0x4D, 0x4F])) = false := by decide

theorem test_illFormed_dispatch_needs_footer :
    (Instr.wellFormed Config.frc kinds (.dispatch 0 [0x45, 0x44, 0x4D, 0x4D])) = false := by decide

theorem test_illFormed_dispatch_needs_four_bytes :
    (Instr.wellFormed Config.frc kinds (.dispatch 0 [0x45, 0x44, 0x4F])) = false := by decide

theorem test_illFormed_rxseq_needs_stream :
    (Instr.wellFormed Config.frc kinds (.rxseq 1 [0x00])) = false := by decide

theorem test_illFormed_arrive_needs_channel :
    (Instr.wellFormed Config.frc kinds (.arrive 2 [])) = false := by decide

theorem test_wellFormed_dispatch :
    (Instr.wellFormed Config.frc kinds (.dispatch 1 [0x45, 0x44, 0x4D, 0x4F])) = true := by decide

theorem test_configuration_of_this_hardware_is_wellFormed :
    Config.frc.wf = true := by decide

theorem test_illFormed_configuration_P1 :
    ({ Config.frc with esc := 0x45 } : Config).wf = false := by decide

theorem test_illFormed_configuration_P2 :
    ({ Config.frc with f0 := 0x45, f1 := 0x44 } : Config).wf = false := by decide

theorem test_illFormed_configuration_P3 :
    ({ Config.frc with h1 := 0x4D } : Config).wf = false := by decide

theorem test_illFormed_configuration_P4 :
    ({ Config.frc with maxFrame := 3 } : Config).wf = false := by decide

theorem test_illFormed_configuration_P5 :
    ({ Config.frc with burstCap := 0 } : Config).wf = false := by decide

/-! ### Decoding: the word of every constructor, written out from its encoding -/

theorem test_decode_HDR :
    decodeSymbol Config.frc [0x45, 0x44, 0x01] = .ok (.hdr, [0x01]) := rfl

theorem test_decode_FTR :
    decodeSymbol Config.frc [0x4D, 0x4F] = .ok (.ftr, []) := rfl

theorem test_decode_ESC :
    decodeSymbol Config.frc [0x5C, 0x45, 0x44] = .ok (.esc, [0x45, 0x44]) := rfl

/-- Vector V8: the reversed pair is no marker. -/
theorem test_decode_LITERAL :
    decodeSymbol Config.frc [0x44, 0x45] = .ok (.literal 0x44, [0x45]) := rfl

/-- The line "ESCLEN []". -/
theorem test_decode_ESCLEN :
    decodeLine ([0x45, 0x53, 0x43, 0x4C, 0x45, 0x4E, 0x20, 0x5B, 0x5D, 0x0A])
      = .ok (.esclen [], []) := rfl

/-- The line "ENCODE [45 44]". -/
theorem test_decode_ENCODE :
    decodeLine ([0x45, 0x4E, 0x43, 0x4F, 0x44, 0x45, 0x20, 0x5B, 0x34, 0x35, 0x20, 0x34, 0x34, 0x5D, 0x0A])
      = .ok (.encode [0x45, 0x44], []) := rfl

/-- The line "DECODE [5C]". -/
theorem test_decode_DECODE :
    decodeLine ([0x44, 0x45, 0x43, 0x4F, 0x44, 0x45, 0x20, 0x5B, 0x35, 0x43, 0x5D, 0x0A])
      = .ok (.decode [0x5C], []) := rfl

/-- The line "TXFRAME [01 02]". -/
theorem test_decode_TXFRAME :
    decodeLine ([0x54, 0x58, 0x46, 0x52, 0x41, 0x4D, 0x45, 0x20, 0x5B, 0x30, 0x31, 0x20, 0x30, 0x32, 0x5D, 0x0A])
      = .ok (.txframe [0x01, 0x02], []) := rfl

/-- The line "RXBYTE c0 5C". -/
theorem test_decode_RXBYTE :
    decodeLine ([0x52, 0x58, 0x42, 0x59, 0x54, 0x45, 0x20, 0x63, 0x30, 0x20, 0x35, 0x43, 0x0A])
      = .ok (.rxbyte 0 0x5C, []) := rfl

/-- The line "RXBYTE.APPEND c0 0A". -/
theorem test_decode_RXBYTE_APPEND :
    decodeLine ([0x52, 0x58, 0x42, 0x59, 0x54, 0x45, 0x2E, 0x41, 0x50, 0x50, 0x45, 0x4E, 0x44, 0x20, 0x63, 0x30, 0x20, 0x30, 0x41, 0x0A])
      = .ok (.rxbyteAppend 0 0x0A, []) := rfl

/-- The line "RXBYTE.HDRMATCH c1". -/
theorem test_decode_RXBYTE_HDRMATCH :
    decodeLine ([0x52, 0x58, 0x42, 0x59, 0x54, 0x45, 0x2E, 0x48, 0x44, 0x52, 0x4D, 0x41, 0x54, 0x43, 0x48, 0x20, 0x63, 0x31, 0x0A])
      = .ok (.rxbyteHdrMatch 1, []) := rfl

/-- The line "RXBYTE.IDLEDISCARD c2". -/
theorem test_decode_RXBYTE_IDLEDISCARD :
    decodeLine ([0x52, 0x58, 0x42, 0x59, 0x54, 0x45, 0x2E, 0x49, 0x44, 0x4C, 0x45, 0x44, 0x49, 0x53, 0x43, 0x41, 0x52, 0x44, 0x20, 0x63, 0x32, 0x0A])
      = .ok (.rxbyteIdleDiscard 2, []) := rfl

/-- The line "RXBYTE.IDLEHOLD c3". -/
theorem test_decode_RXBYTE_IDLEHOLD :
    decodeLine ([0x52, 0x58, 0x42, 0x59, 0x54, 0x45, 0x2E, 0x49, 0x44, 0x4C, 0x45, 0x48, 0x4F, 0x4C, 0x44, 0x20, 0x63, 0x33, 0x0A])
      = .ok (.rxbyteIdleHold 3, []) := rfl

/-- The line "RXBYTE.FRAMEDONE c9". -/
theorem test_decode_RXBYTE_FRAMEDONE :
    decodeLine ([0x52, 0x58, 0x42, 0x59, 0x54, 0x45, 0x2E, 0x46, 0x52, 0x41, 0x4D, 0x45, 0x44, 0x4F, 0x4E, 0x45, 0x20, 0x63, 0x39, 0x0A])
      = .ok (.rxbyteFrameDone 9, []) := rfl

/-- The line "RXBYTE.OVERFLOW c10". -/
theorem test_decode_RXBYTE_OVERFLOW :
    decodeLine ([0x52, 0x58, 0x42, 0x59, 0x54, 0x45, 0x2E, 0x4F, 0x56, 0x45, 0x52, 0x46, 0x4C, 0x4F, 0x57, 0x20, 0x63, 0x31, 0x30, 0x0A])
      = .ok (.rxbyteOverflow 10, []) := rfl

/-- The line "RXBYTE.ACCUM c123". -/
theorem test_decode_RXBYTE_ACCUM :
    decodeLine ([0x52, 0x58, 0x42, 0x59, 0x54, 0x45, 0x2E, 0x41, 0x43, 0x43, 0x55, 0x4D, 0x20, 0x63, 0x31, 0x32, 0x33, 0x0A])
      = .ok (.rxbyteAccum 123, []) := rfl

/-- The line "POLL c0". -/
theorem test_decode_POLL :
    decodeLine ([0x50, 0x4F, 0x4C, 0x4C, 0x20, 0x63, 0x30, 0x0A])
      = .ok (.poll 0, []) := rfl

/-- The line "RXDGRAM c1 [45 44 4D 4F]". -/
theorem test_decode_RXDGRAM :
    decodeLine ([0x52, 0x58, 0x44, 0x47, 0x52, 0x41, 0x4D, 0x20, 0x63, 0x31, 0x20, 0x5B, 0x34, 0x35, 0x20, 0x34, 0x34, 0x20, 0x34, 0x44, 0x20, 0x34, 0x46, 0x5D, 0x0A])
      = .ok (.rxdgram 1 [0x45, 0x44, 0x4D, 0x4F], []) := rfl

/-- The line "RESET c0". -/
theorem test_decode_RESET :
    decodeLine ([0x52, 0x45, 0x53, 0x45, 0x54, 0x20, 0x63, 0x30, 0x0A])
      = .ok (.reset 0, []) := rfl

/-- The line "DISPATCH c0 [45 44 4D 4F]". -/
theorem test_decode_DISPATCH :
    decodeLine ([0x44, 0x49, 0x53, 0x50, 0x41, 0x54, 0x43, 0x48, 0x20, 0x63, 0x30, 0x20, 0x5B, 0x34, 0x35, 0x20, 0x34, 0x34, 0x20, 0x34, 0x44, 0x20, 0x34, 0x46, 0x5D, 0x0A])
      = .ok (.dispatch 0 [0x45, 0x44, 0x4D, 0x4F], []) := rfl

/-- The line "RXSEQ c0 [ff FF]". -/
theorem test_decode_RXSEQ :
    decodeLine ([0x52, 0x58, 0x53, 0x45, 0x51, 0x20, 0x63, 0x30, 0x20, 0x5B, 0x66, 0x66, 0x20, 0x46, 0x46, 0x5D, 0x0A])
      = .ok (.rxseq 0 [0xFF, 0xFF], []) := rfl

/-- The line "ARRIVE c1 []". -/
theorem test_decode_ARRIVE :
    decodeLine ([0x41, 0x52, 0x52, 0x49, 0x56, 0x45, 0x20, 0x63, 0x31, 0x20, 0x5B, 0x5D, 0x0A])
      = .ok (.arrive 1 [], []) := rfl

/-- The line "HELLO". -/
theorem test_decode_rejects_unknown_word :
    decodeLine ([0x48, 0x45, 0x4C, 0x4C, 0x4F, 0x0A]) = .error .unknownMnemonic := rfl

/-- The line "POLL". -/
theorem test_decode_rejects_missing_operand :
    decodeLine ([0x50, 0x4F, 0x4C, 0x4C, 0x0A]) = .error .badOperands := rfl

/-- The line "RXBYTE c0 5". -/
theorem test_decode_rejects_one_hex_digit :
    decodeLine ([0x52, 0x58, 0x42, 0x59, 0x54, 0x45, 0x20, 0x63, 0x30, 0x20, 0x35, 0x0A]) = .error .badOperands := rfl

theorem test_fetchWord_HDR_runs :
    step (State.reset.withFetchWord 16 0x4544)
      = exec .hdr { State.reset.withFetchWord 16 0x4544 with
          channels := State.reset.channels, polling := some { left := 1022, taken := 2 } } := rfl

theorem test_fetchWord_LITERAL_takes_one_byte :
    step (State.reset.withFetchWord 8 0x00)
      = exec (.literal 0x00) { State.reset.withFetchWord 8 0x00 with
          channels := [.stream { st := .idle, buf := [], rxq := [0x00] }, .datagram DatagramChannel.reset],
          polling := some { left := 1023, taken := 1 } } := rfl

/-! ### Meanings: single steps on small states -/

/-- A small configuration, as in program P4. -/
abbrev small : Config := { Config.frc with maxFrame := 8, burstCap := 3 }

/-- A machine with the small configuration, one stream channel and one datagram channel. -/
abbrev mk (st : Reassembly) (buf rxq : ByteSeq) : State :=
  { State.reset with cfg := small, channels := [.stream { st := st, buf := buf, rxq := rxq }, .datagram DatagramChannel.reset] }

/-- The same with frames and labels recorded. -/
abbrev after (st : Reassembly) (buf : ByteSeq) (frames : List (Nat × ByteSeq)) (events : List (Nat × Event)) : State :=
  { mk st buf [] with frames := frames, events := events }

/-- The results of an answer. -/
def resultsOf : Answer → List Result
  | .next s => s.results
  | .fault _ => []
  | .refused _ => []

/-- The state of an answer. -/
def stateOf : Answer → Option State
  | .next s => some s
  | .fault _ => none
  | .refused _ => none

/-- Vector V9. -/
theorem test_ESCLEN_V9 :
    resultsOf (exec (.esclen [0x45, 0x44, 0x4D, 0x4F]) State.reset) = [.length 6] := by decide

/-- Vector V7. -/
theorem test_ESCLEN_V7 :
    resultsOf (exec (.esclen [0x45]) State.reset) = [.length 1] := by decide

/-- Vector V10. -/
theorem test_ENCODE_V10 :
    resultsOf (exec (.encode [0x45, 0x45, 0x44]) State.reset) = [.bytes [0x45, 0x5C, 0x45, 0x44]] := by decide

/-- Vector V14. -/
theorem test_ENCODE_V14 :
    resultsOf (exec (.encode [0x45, 0x44, 0x5C]) State.reset) = [.bytes [0x5C, 0x45, 0x44, 0x5C, 0x5C]] := by decide

/-- Vector V19. -/
theorem test_DECODE_V19 :
    resultsOf (exec (.decode [0x41, 0x5C, 0x5C, 0x42, 0x5C]) State.reset) = [.decoded 3 [0x41, 0x5C, 0x42]] := by decide

/-- Vector V20c. -/
theorem test_DECODE_V20c :
    resultsOf (exec (.decode [0x45, 0x44, 0x5C, 0x4D, 0x4F]) State.reset) = [.decoded 4 [0x45, 0x44, 0x4D, 0x4F]] := by decide

/-- Vector T4. -/
theorem test_TXFRAME_T4 :
    resultsOf (exec (.txframe [0x45, 0x44]) State.reset) = [.bytes [0x45, 0x44, 0x5C, 0x45, 0x44, 0x4D, 0x4F]] := by decide

/-- Vector T1. -/
theorem test_TXFRAME_T1 :
    resultsOf (exec (.txframe []) State.reset) = [.bytes [0x45, 0x44, 0x4D, 0x4F]] := by decide

/-- Vector V25, bytes 3 and 4. -/
theorem test_HDR_phase_two_is_lost :
    stateOf (exec (.hdr) (mk .idle [0x00, 0x00] [])) = some (after .idle [0x44] [] [(0, .idleDiscard 3)]) := by decide

/-- Program P2, bytes 5 and 6. -/
theorem test_HDR_resynchronises :
    stateOf (exec (.hdr) (mk .receiving [0x45, 0x44, 0xAA, 0xBB] [])) = some (after .receiving [0x45, 0x44] [] [(0, .resync 4)]) := by decide

/-- Program P1, bytes 5 and 6. -/
theorem test_FTR_ends_the_frame :
    stateOf (exec (.ftr) (mk .receiving [0x45, 0x44, 0x01, 0x02] [])) = some (after .idle [] [(0, [0x45, 0x44, 0x01, 0x02, 0x4D, 0x4F])] [(0, .frameDone [0x45, 0x44, 0x01, 0x02, 0x4D, 0x4F])]) := by decide

/-- Vector V23 after two bytes. -/
theorem test_FTR_in_Idle_is_held :
    stateOf (exec (.ftr) (mk .idle [] [])) = some (after .idle [0x4D, 0x4F] [] []) := by decide

/-- R147, the worked example. -/
theorem test_ESC_is_buffered :
    stateOf (exec (.esc) (mk .receiving [0x45, 0x44] [])) = some (after .receiving [0x45, 0x44, 0x5C] [] []) := by decide

/-- R144, the worked example. -/
theorem test_LITERAL_is_held :
    stateOf (exec (.literal 0x45) (mk .idle [] [])) = some (after .idle [0x45] [] []) := by decide

/-- Program P4: eight bytes are delivered with MAX_FRAME = 8. -/
theorem test_RXBYTE_footer_before_overflow :
    stateOf (exec (.rxbyte 0 0x4F) (mk .receiving [0x45, 0x44, 0x01, 0x02, 0x03, 0x04, 0x4D] [])) = some (after .idle [] [(0, [0x45, 0x44, 0x01, 0x02, 0x03, 0x04, 0x4D, 0x4F])]
      [(0, .frameDone [0x45, 0x44, 0x01, 0x02, 0x03, 0x04, 0x4D, 0x4F])]) := by decide

/-- Program P4: a header completed by byte 8 resynchronises. -/
theorem test_RXBYTE_header_before_overflow :
    stateOf (exec (.rxbyte 0 0x44) (mk .receiving [0x45, 0x44, 0x01, 0x02, 0x03, 0x04, 0x45] [])) = some (after .receiving [0x45, 0x44] [] [(0, .resync 6)]) := by decide

/-- R141. -/
theorem test_APPEND_stores_at_len :
    stateOf (exec (.rxbyteAppend 0 0x07) (mk .idle [0x01] [])) = some (after .idle [0x01, 0x07] [] []) := by decide

/-- R142, phase 1. -/
theorem test_HDRMATCH_in_Idle :
    stateOf (exec (.rxbyteHdrMatch 0) (mk .idle [0x00, 0x45, 0x44] [])) = some (after .receiving [0x45, 0x44] [] [(0, .frameStart)]) := by decide

/-- R85: no window below two bytes. -/
theorem test_HDRMATCH_not_selected :
    stateOf (exec (.rxbyteHdrMatch 0) (mk .idle [0x45] [])) = some (after .idle [0x45] [] []) := by decide

/-- R143, the worked example. -/
theorem test_IDLEDISCARD_keeps_nothing :
    stateOf (exec (.rxbyteIdleDiscard 0) (mk .idle [0x00, 0x00, 0x45] [])) = some (after .idle [] [] [(0, .idleDiscard 3)]) := by decide

/-- R144. -/
theorem test_IDLEHOLD_keeps :
    stateOf (exec (.rxbyteIdleHold 0) (mk .idle [0x45] [])) = some (after .idle [0x45] [] []) := by decide

/-- Vector V38. -/
theorem test_FRAMEDONE_unescapes :
    stateOf (exec (.rxbyteFrameDone 0) (mk .receiving [0x45, 0x44, 0x5C, 0x5C, 0x4D, 0x4F] [])) = some (after .idle [] [(0, [0x45, 0x44, 0x5C, 0x4D, 0x4F])] [(0, .frameDone [0x45, 0x44, 0x5C, 0x4D, 0x4F])]) := by decide

/-- Program P4, byte 8. -/
theorem test_OVERFLOW_drops :
    stateOf (exec (.rxbyteOverflow 0) (mk .receiving [0x45, 0x44, 0x01, 0x02, 0x03, 0x04, 0x05, 0x06] [])) = some (after .idle [] [] [(0, .overflow 8)]) := by decide

/-- R147. -/
theorem test_ACCUM_keeps :
    stateOf (exec (.rxbyteAccum 0) (mk .receiving [0x45, 0x44, 0x01] [])) = some (after .receiving [0x45, 0x44, 0x01] [] []) := by decide

/-- R150 with a cap of 3. -/
theorem test_POLL_takes_the_cap :
    stateOf (exec (.poll 0) (mk .idle [] [0x45, 0x44, 0x01, 0x02])) = some ({ mk .receiving [0x45, 0x44, 0x01] [0x02] with
      events := [(0, .frameStart)], results := [.polled 0 3] }) := by decide

/-- Vector X3. -/
theorem test_POLL_empty_queue :
    stateOf (exec (.poll 0) (mk .receiving [0x45, 0x44] [])) = some ({ mk .receiving [0x45, 0x44] [] with results := [.polled 0 0] }) := by decide

/-- Vector G6. -/
theorem test_RXDGRAM_G6 :
    stateOf (exec (.rxdgram 1 [0x45, 0x44, 0x5C, 0x45, 0x44, 0x4D, 0x4F]) (mk .idle [] [])) = some (after .idle [] [(1, [0x45, 0x44, 0x45, 0x44, 0x4D, 0x4F])] []) := by decide

/-- Vector G2. -/
theorem test_RXDGRAM_G2 :
    stateOf (exec (.rxdgram 1 [0x45, 0x44, 0x4D]) (mk .idle [] [])) = some (after .idle [] [] [(1, .datagramRejected 3)]) := by decide

/-- Vector X1; the queue is not touched. -/
theorem test_RESET_X1 :
    stateOf (exec (.reset 0) (mk .receiving [0x45, 0x44, 0x01] [0x07])) = some (mk .idle [] [0x07]) := by decide

/-- R191. -/
theorem test_DISPATCH_joins_the_trace :
    stateOf (exec (.dispatch 0 [0x45, 0x44, 0x4D, 0x4F]) (mk .idle [] [])) = some (after .idle [] [(0, [0x45, 0x44, 0x4D, 0x4F])] []) := by decide

/-- Vector V34. -/
theorem test_RXSEQ_V34 :
    stateOf (exec (.rxseq 0 [0x45, 0x44, 0x5C, 0x4D, 0x4F, 0x4D, 0x4F]) (mk .idle [] [])) = some (after .idle [0x4D, 0x4F] [(0, [0x45, 0x44, 0x4D, 0x4F])]
      [(0, .frameStart), (0, .frameDone [0x45, 0x44, 0x4D, 0x4F])]) := by decide

/-- R94. -/
theorem test_ARRIVE_appends :
    stateOf (exec (.arrive 0 [0x02, 0x03]) (mk .idle [] [0x01])) = some (mk .idle [] [0x01, 0x02, 0x03]) := by decide

/-- Log 16. -/
theorem test_ARRIVE_one_datagram :
    stateOf (exec (.arrive 1 [0x02, 0x03]) (mk .idle [] [])) = some ({ mk .idle [] [] with channels := [.stream { st := .idle, buf := [], rxq := [] }, .datagram { pending := [[0x02, 0x03]], draws := 0 }] }) := by decide

/-- R21, R22. -/
theorem test_port_bits :
    Reassembly.bit .idle = 0 ∧ Reassembly.bit .receiving = 1 ∧ lenWidth Config.frc = 10 := by decide

/-- R112: the pseudocode by hand. -/
theorem test_inPlace_leaves_stale_bytes :
    Codec.decodeInPlace Config.frc [0x5C, 0x41, 0x42] = ([0x41, 0x42, 0x42], 2) := by decide

/-! ### Hypotheses that can be met, statement by statement -/

theorem inv_of_first {ch : StreamChannel} {dc : DatagramChannel} {cfg : Config} (h : ch.Inv cfg) :
    ∀ x ∈ [Channel.stream ch, .datagram dc], x.Inv cfg := by
  intro x hx
  simp only [List.mem_cons, List.not_mem_nil, or_false] at hx
  rcases hx with rfl | rfl
  · exact h
  · trivial

theorem witness_Inv_idle : (mk .idle [0x00, 0x45] []).Inv :=
  ⟨by decide, by decide, inv_of_first (by decide), by decide⟩

theorem witness_Inv_receiving : (mk .receiving [0x45, 0x44, 0x01, 0x4D] [0x4F]).Inv :=
  ⟨by decide, by decide, inv_of_first (by decide), by decide⟩

/-- A machine in the middle of a POLL started through the port. -/
abbrev polled (st : Reassembly) (buf rxq : ByteSeq) (left taken : Nat) : State :=
  { mk st buf rxq with polling := some { left := left, taken := taken } }

theorem witness_Inv_polling : (polled .receiving [0x45, 0x44] [0x45, 0x44] 3 0).Inv :=
  ⟨by decide, by decide, inv_of_first (by decide), by decide⟩

theorem witness_SymbolsDecodeWhatTheyEncode_hdr :
    Config.frc.wf = true ∧ Instr.isSymbol .hdr = true ∧ Instr.wellFormed Config.frc kinds .hdr = true
      ∧ ∀ (b y : Byte) (r : ByteSeq), Instr.hdr = .literal b → [0x44] = y :: r → (b, y) ≠ Config.frc.hdr ∧ (b, y) ≠ Config.frc.ftr :=
  ⟨rfl, rfl, rfl, nofun⟩

theorem witness_SymbolsDecodeWhatTheyEncode_literal :
    Config.frc.wf = true ∧ Instr.isSymbol (.literal 0x45) = true ∧ Instr.wellFormed Config.frc kinds (.literal 0x45) = true
      ∧ ∀ (b y : Byte) (r : ByteSeq), Instr.literal 0x45 = .literal b → [0x45] = y :: r →
        (b, y) ≠ Config.frc.hdr ∧ (b, y) ≠ Config.frc.ftr := by
  refine ⟨rfl, rfl, rfl, ?_⟩
  intro b y r hb hy
  cases hb
  cases hy
  decide

theorem witness_EveryStepKeepsTheStateInvariant :
    (mk .idle [0x00, 0x45] []).Inv ∧ step (mk .idle [0x00, 0x45] []) = .next (mk .idle [0x00, 0x45] []) :=
  ⟨witness_Inv_idle, rfl⟩

theorem witness_EveryDispatchedFrameHasTheFrameShape :
    ∃ t, step (polled .receiving [0x45, 0x44, 0x01, 0x4D] [0x4F] 3 0) = .next t ∧ t.frames = [(0, [0x45, 0x44, 0x01, 0x4D, 0x4F])] :=
  ⟨_, rfl, rfl⟩

theorem witness_Inv_before_a_dispatch : (polled .receiving [0x45, 0x44, 0x01, 0x4D] [0x4F] 3 0).Inv :=
  ⟨by decide, by decide, inv_of_first (by decide), by decide⟩

theorem witness_OnlyPayloadsWithoutMarkersArriveIntact :
    small.wf = true ∧ ∃ t, exec (.rxseq 0 (Codec.txFrame small [0x01])) (mk .idle [] []) = .next t
      ∧ t.frames = [(0, [0x45, 0x44, 0x01, 0x4D, 0x4F])] :=
  ⟨rfl, _, rfl, rfl⟩

theorem witness_IdleHeaderIsLostAtPhaseTwo_phase_zero :
    exec (.rxseq 0 []) (mk .idle [] []) = .next (after .idle [] [] []) ∧ (0, Event.frameStart) ∉ ([] : List (Nat × Event)) :=
  ⟨rfl, by decide⟩

theorem witness_IdleHeaderIsLostAtPhaseTwo_phase_one :
    exec (.rxseq 0 [0x00, 0x00, 0x00, 0x45]) (mk .idle [] []) = .next (after .idle [0x45] [] [(0, .idleDiscard 3)])
      ∧ (0, Event.frameStart) ∉ [(0, Event.idleDiscard 3)] :=
  ⟨rfl, by decide⟩

theorem witness_IdleHeaderIsLostAtPhaseTwo_phase_two :
    exec (.rxseq 0 [0x00, 0x45]) (mk .idle [] []) = .next (after .idle [0x00, 0x45] [] [])
      ∧ (0, Event.frameStart) ∉ ([] : List (Nat × Event)) :=
  ⟨rfl, by decide⟩

theorem witness_ConstantsNeverChange :
    (∃ t, exec (.reset 0) (mk .idle [] []) = .next t) ∧ ∃ t, step (mk .idle [] []) = .next t :=
  ⟨⟨_, rfl⟩, ⟨_, rfl⟩⟩

theorem witness_ChannelsDoNotShareState :
    (∃ t, exec (.rxbyte 0 0x45) (mk .idle [] []) = .next t) ∧ Instr.channel? (.rxbyte 0 0x45) = some 0
      ∧ (∃ t, exec .esc (mk .idle [] []) = .next t) ∧ Instr.isSymbol .esc = true
      ∧ (∃ t, exec (.esclen []) (mk .idle [] []) = .next t) ∧ Instr.channel? (.esclen []) = none
      ∧ Instr.isSymbol (.esclen []) = false :=
  ⟨⟨_, rfl⟩, rfl, ⟨_, rfl⟩, rfl, ⟨_, rfl⟩, rfl, rfl⟩

theorem witness_AnInstructionReadsOnlyItsChannel :
    Instr.channel? (.rxbyte 0 0x44) = some 0
      ∧ ({ mk .idle [0x45] [] with events := [(1, .frameStart)], script := [0x00] } : State).channels[0]?
          = (mk .idle [0x45] []).channels[0]?
      ∧ ∃ t, exec (.rxbyte 0 0x44) (mk .idle [0x45] []) = .next t :=
  ⟨rfl, rfl, _, rfl⟩

theorem witness_NothingReadsTheHistory : ∃ t, step (polled .idle [] [0x45] 3 0) = .next t := ⟨_, rfl⟩

theorem witness_ProgramRunsEachChannelOverItsBytes :
    (∀ i ∈ [Instr.arrive 0 [0x45, 0x44], .rxdgram 1 [], .poll 0, .encode [], .rxbyte 0 0x01], i.isProgramLine = true)
      ∧ (mk .idle [] []).channels[0]? = some (.stream { st := .idle, buf := [], rxq := [] })
      ∧ ∃ t, runLines [Instr.arrive 0 [0x45, 0x44], .rxdgram 1 [], .poll 0, .encode [], .rxbyte 0 0x01] (mk .idle [] []) = .next t :=
  ⟨by decide, rfl, _, rfl⟩

theorem witness_ProgramRunsEachChannelOverItsBytes_received :
    (∀ i ∈ [Instr.rxbyte 0 0x45, .rxseq 0 [0x44]], i.isProgramLine = true)
      ∧ ∃ t, runLines [Instr.rxbyte 0 0x45, .rxseq 0 [0x44]] (mk .idle [] []) = .next t :=
  ⟨by decide, _, rfl⟩

/-- R150 by hand, cap 3: bytes arrive before and after a POLL that leaves some pending. -/
theorem test_consumed_leaves_what_the_cap_leaves :
    consumed 3 0 [0x01] [.arrive 0 [0x02, 0x03, 0x04], .poll 0, .arrive 1 [0x09], .arrive 0 [0x05], .rxbyte 0 0x06]
      = ([0x01, 0x02, 0x03, 0x06], [0x04, 0x05]) := by decide

theorem witness_LinesDecodeWhatTheyEncode :
    Instr.isSymbol (.poll 0) = false := by decide

theorem witness_StepRunsTheDecodedSymbol :
    small.wf = true ∧ (polled .idle [] [0x45, 0x44, 0x01] 3 0).polling = some { left := 3, taken := 0 }
      ∧ (mk .idle [] [0x45, 0x44, 0x01]).channels[0]? = some (.stream { st := .idle, buf := [], rxq := [0x45, 0x44, 0x01] })
      ∧ decodeSymbol small ([0x45, 0x44, 0x01].take 3) = .ok (.hdr, [0x01]) := ⟨rfl, rfl, rfl, rfl⟩

theorem witness_StepRunsTheDecodedSymbol_cut_by_the_cap :
    (polled .idle [] [0x45, 0x44, 0x01] 1 2).polling = some { left := 1, taken := 2 }
      ∧ decodeSymbol small ([0x45, 0x44, 0x01].take 1) = .ok (.literal 0x45, []) := ⟨rfl, rfl⟩

theorem witness_StepRunsTheDecodedLine :
    small.wf = true ∧ (mk .idle [] []).channels ≠ [] ∧ (mk .idle [] []).polling = none
      ∧ decodeLine [0x50, 0x4F, 0x4C, 0x4C, 0x20, 0x63, 0x30, 0x0A] = .ok (.poll 0, []) ∧ Instr.isProgramLine (.poll 0) = true := ⟨rfl, by decide, rfl, rfl, rfl⟩

theorem witness_StepWithNothingToDecode_empty_queue :
    small.wf = true ∧ (polled .idle [] [] 3 0).polling = some { left := 3, taken := 0 } ∧ (mk .idle [] []).channels[0]? = some (.stream { st := .idle, buf := [], rxq := [] }) := by decide

theorem witness_StepWithNothingToDecode_cap_reached :
    (polled .idle [] [0x00] 0 3).polling = some { left := 0, taken := 3 } ∧ (mk .idle [] [0x00]).channels[0]? = some (.stream { st := .idle, buf := [], rxq := [0x00] }) := by decide

theorem witness_StepWithNothingToDecode_no_line :
    (mk .idle [] []).channels ≠ [] ∧ (mk .idle [] []).polling = none ∧ (mk .idle [] []).script = [] := by decide

theorem witness_StepRefusesConstantsOutsideP1ToP5_P1 :
    ({ State.reset with cfg := { Config.frc with esc := 0x45 } } : State).cfg.esc = 0x45 := by decide

theorem witness_StepRefusesConstantsOutsideP1ToP5_P2 :
    ({ State.reset with cfg := { Config.frc with f0 := 0x45, f1 := 0x44 } } : State).cfg.f0 = 0x45 := by decide

theorem witness_StepRefusesConstantsOutsideP1ToP5_P3 :
    ({ State.reset with cfg := { Config.frc with h1 := 0x4D } } : State).cfg.h1 = 0x4D := by decide

theorem witness_StepRefusesConstantsOutsideP1ToP5_P4 :
    ({ State.reset with cfg := { Config.frc with maxFrame := 3 } } : State).cfg.maxFrame < 4 := by decide

theorem witness_StepRefusesConstantsOutsideP1ToP5_P5 :
    ({ State.reset with cfg := { Config.frc with burstCap := 0 } } : State).cfg.burstCap < 1 := by decide

theorem witness_PartsAndDispatchNeverRunOnTheirOwn_APPEND :
    decodeLine ([0x52, 0x58, 0x42, 0x59, 0x54, 0x45, 0x2E, 0x41, 0x50, 0x50, 0x45, 0x4E, 0x44, 0x20, 0x63, 0x30, 0x20, 0x30, 0x41, 0x0A])
      = .ok (.rxbyteAppend 0 0x0A, []) := rfl

theorem witness_PartsAndDispatchNeverRunOnTheirOwn_HDRMATCH :
    decodeLine ([0x52, 0x58, 0x42, 0x59, 0x54, 0x45, 0x2E, 0x48, 0x44, 0x52, 0x4D, 0x41, 0x54, 0x43, 0x48, 0x20, 0x63, 0x30, 0x0A])
      = .ok (.rxbyteHdrMatch 0, []) := rfl

theorem witness_PartsAndDispatchNeverRunOnTheirOwn_IDLEDISCARD :
    decodeLine ([0x52, 0x58, 0x42, 0x59, 0x54, 0x45, 0x2E, 0x49, 0x44, 0x4C, 0x45, 0x44, 0x49, 0x53, 0x43, 0x41, 0x52, 0x44, 0x20, 0x63, 0x30, 0x0A])
      = .ok (.rxbyteIdleDiscard 0, []) := rfl

theorem witness_PartsAndDispatchNeverRunOnTheirOwn_IDLEHOLD :
    decodeLine ([0x52, 0x58, 0x42, 0x59, 0x54, 0x45, 0x2E, 0x49, 0x44, 0x4C, 0x45, 0x48, 0x4F, 0x4C, 0x44, 0x20, 0x63, 0x30, 0x0A])
      = .ok (.rxbyteIdleHold 0, []) := rfl

theorem witness_PartsAndDispatchNeverRunOnTheirOwn_FRAMEDONE :
    decodeLine ([0x52, 0x58, 0x42, 0x59, 0x54, 0x45, 0x2E, 0x46, 0x52, 0x41, 0x4D, 0x45, 0x44, 0x4F, 0x4E, 0x45, 0x20, 0x63, 0x30, 0x0A])
      = .ok (.rxbyteFrameDone 0, []) := rfl

theorem witness_PartsAndDispatchNeverRunOnTheirOwn_OVERFLOW :
    decodeLine ([0x52, 0x58, 0x42, 0x59, 0x54, 0x45, 0x2E, 0x4F, 0x56, 0x45, 0x52, 0x46, 0x4C, 0x4F, 0x57, 0x20, 0x63, 0x30, 0x0A])
      = .ok (.rxbyteOverflow 0, []) := rfl

theorem witness_PartsAndDispatchNeverRunOnTheirOwn_ACCUM :
    decodeLine ([0x52, 0x58, 0x42, 0x59, 0x54, 0x45, 0x2E, 0x41, 0x43, 0x43, 0x55, 0x4D, 0x20, 0x63, 0x30, 0x0A])
      = .ok (.rxbyteAccum 0, []) := rfl

theorem witness_PartsAndDispatchNeverRunOnTheirOwn_DISPATCH :
    decodeLine ([0x44, 0x49, 0x53, 0x50, 0x41, 0x54, 0x43, 0x48, 0x20, 0x63, 0x30, 0x20, 0x5B, 0x5D, 0x0A]) = .ok (.dispatch 0 [], []) := rfl

theorem witness_SteppingThroughAProgramPerformsItsLines :
    small.wf = true ∧ (mk .idle [] []).channels ≠ [] ∧ (mk .idle [] []).polling = none
      ∧ (∀ i ∈ [Instr.poll 0, .rxbyte 0 0x45], i.isProgramLine = true)
      ∧ ({ mk .idle [] [] with
            script := [0x50, 0x4F, 0x4C, 0x4C, 0x20, 0x63, 0x30, 0x0A]
              ++ [0x52, 0x58, 0x42, 0x59, 0x54, 0x45, 0x20, 0x63, 0x30, 0x20, 0x34, 0x35, 0x0A] } : State).script
          = programText small [.poll 0, .rxbyte 0 0x45] ++ [] := by decide

theorem witness_EscapeTriggerIsConditionAOrB :
    0 < [(0x45 : Byte), 0x44].length ∧ needsEsc small [0x45, 0x44] 0 = true ∧ needsEsc small [0x45, 0x44] 1 = false := by decide

theorem witness_DecodeIsIdentityWithoutEscapes :
    small.esc ∉ [(0x45 : Byte), 0x44] := by decide

theorem witness_CodecLengthsAreBounded :
    Config.frc.wf = true ∧ (∀ b ∈ [(0x5C : Byte), 0x5C], b = Config.frc.esc) ∧ ¬ ∀ b ∈ [(0x45 : Byte), 0x44], b = Config.frc.esc := by decide

theorem witness_EncodeKeepsMarkerPairs :
    Config.frc.wf = true ∧ MarkerFree Config.frc [0x45, 0x5C, 0x44] ∧ ¬ MarkerFree Config.frc [0x45, 0x44] := by decide

theorem witness_AppendStoresTheByteAtLen_last_cell :
    (mk .receiving [0x45, 0x44, 1, 2, 3, 4, 5] []).channels[0]? = some (.stream { st := .receiving, buf := [0x45, 0x44, 1, 2, 3, 4, 5], rxq := [] }) ∧ ({ st := .receiving, buf := [0x45, 0x44, 1, 2, 3, 4, 5], rxq := [] } : StreamChannel).len < small.maxFrame := by decide

theorem witness_AppendStoresTheByteAtLen_full :
    (mk .receiving [0x45, 0x44, 1, 2, 3, 4, 5, 6] []).channels[0]? = some (.stream { st := .receiving, buf := [0x45, 0x44, 1, 2, 3, 4, 5, 6], rxq := [] }) ∧ small.maxFrame ≤ ({ st := .receiving, buf := [0x45, 0x44, 1, 2, 3, 4, 5, 6], rxq := [] } : StreamChannel).len := by decide

theorem witness_HeaderCheckStartsOrRestartsAFrame_idle :
    (mk .idle [0x45, 0x44] []).channels[0]? = some (.stream { st := .idle, buf := [0x45, 0x44], rxq := [] }) ∧ [small.h0, small.h1] <:+ [0x45, 0x44] := by decide

theorem witness_HeaderCheckStartsOrRestartsAFrame_receiving :
    (mk .receiving [0x45, 0x44, 0x45, 0x44] []).channels[0]? = some (.stream { st := .receiving, buf := [0x45, 0x44, 0x45, 0x44], rxq := [] }) ∧ [small.h0, small.h1] <:+ [0x45, 0x44, 0x45, 0x44] := by decide

theorem witness_IdleDiscardEmptiesAndUnselectedRowsKeep_no_header :
    (mk .idle [0x45] []).channels[0]? = some (.stream { st := .idle, buf := [0x45], rxq := [] }) ∧ ¬ [small.h0, small.h1] <:+ [0x45] := by decide

theorem witness_IdleDiscardEmptiesAndUnselectedRowsKeep_selected :
    (mk .idle [0, 0, 0] []).channels[0]? = some (.stream { st := .idle, buf := [0, 0, 0], rxq := [] }) ∧ ¬ [small.h0, small.h1] <:+ [0, 0, 0] := by decide

theorem witness_IdleDiscardEmptiesAndUnselectedRowsKeep_two_bytes :
    (mk .idle [0, 0] []).channels[0]? = some (.stream { st := .idle, buf := [0, 0], rxq := [] }) ∧ ({ st := .idle, buf := [0, 0], rxq := [] } : StreamChannel).len ≤ 2 := by decide

theorem witness_FrameDoneDispatchesTheDecodedBuffer :
    (mk .receiving [0x45, 0x44, 0x4D, 0x4F] []).channels[0]? = some (.stream { st := .receiving, buf := [0x45, 0x44, 0x4D, 0x4F], rxq := [] }) ∧ ¬ [small.h0, small.h1] <:+ [0x45, 0x44, 0x4D, 0x4F] ∧ [small.f0, small.f1] <:+ [0x45, 0x44, 0x4D, 0x4F] := by decide

theorem witness_IdleDiscardEmptiesAndUnselectedRowsKeep_no_footer :
    (mk .receiving [0x45, 0x44, 0x4D] []).channels[0]? = some (.stream { st := .receiving, buf := [0x45, 0x44, 0x4D], rxq := [] }) ∧ ¬ [small.f0, small.f1] <:+ [0x45, 0x44, 0x4D] := by decide

theorem witness_OverflowDropsTheFrame :
    (mk .receiving [0x45, 0x44, 1, 2, 3, 4, 5, 6] []).channels[0]? = some (.stream { st := .receiving, buf := [0x45, 0x44, 1, 2, 3, 4, 5, 6], rxq := [] }) ∧ ¬ [small.h0, small.h1] <:+ [0x45, 0x44, 1, 2, 3, 4, 5, 6] ∧ ¬ [small.f0, small.f1] <:+ [0x45, 0x44, 1, 2, 3, 4, 5, 6] ∧ small.maxFrame ≤ ({ st := .receiving, buf := [0x45, 0x44, 1, 2, 3, 4, 5, 6], rxq := [] } : StreamChannel).len := by decide

theorem witness_IdleDiscardEmptiesAndUnselectedRowsKeep_one_below :
    (mk .receiving [0x45, 0x44, 1, 2, 3, 4, 5] []).channels[0]? = some (.stream { st := .receiving, buf := [0x45, 0x44, 1, 2, 3, 4, 5], rxq := [] }) ∧ ({ st := .receiving, buf := [0x45, 0x44, 1, 2, 3, 4, 5], rxq := [] } : StreamChannel).len < small.maxFrame := by decide

theorem witness_ReceivedByteFollowsTheTransitionTable_start :
    (mk .idle [0x00, 0x45] []).channels[0]? = some (.stream { st := .idle, buf := [0x00, 0x45], rxq := [] }) ∧ ({ st := .idle, buf := [0x00, 0x45], rxq := [] } : StreamChannel).len < small.maxFrame
      ∧ [small.h0, small.h1] <:+ ([0x00, 0x45] ++ [0x44]) := by decide

theorem witness_ReceivedByteFollowsTheTransitionTable_resync :
    (mk .receiving [0x45, 0x44, 1, 2, 3, 4, 0x45] []).channels[0]? = some (.stream { st := .receiving, buf := [0x45, 0x44, 1, 2, 3, 4, 0x45], rxq := [] }) ∧ ({ st := .receiving, buf := [0x45, 0x44, 1, 2, 3, 4, 0x45], rxq := [] } : StreamChannel).len < small.maxFrame
      ∧ [small.h0, small.h1] <:+ ([0x45, 0x44, 1, 2, 3, 4, 0x45] ++ [0x44]) := by decide

theorem witness_ReceivedByteFollowsTheTransitionTable_discard :
    (mk .idle [0x00, 0x45] []).channels[0]? = some (.stream { st := .idle, buf := [0x00, 0x45], rxq := [] }) ∧ ({ st := .idle, buf := [0x00, 0x45], rxq := [] } : StreamChannel).len < small.maxFrame
      ∧ ¬ [small.h0, small.h1] <:+ ([0x00, 0x45] ++ [0x45]) := by decide

theorem witness_ReceivedByteFollowsTheTransitionTable_hold :
    (mk .idle [0x45] []).channels[0]? = some (.stream { st := .idle, buf := [0x45], rxq := [] }) ∧ ({ st := .idle, buf := [0x45], rxq := [] } : StreamChannel).len < small.maxFrame
      ∧ ¬ [small.h0, small.h1] <:+ ([0x45] ++ [0x45]) := by decide

theorem witness_ReceivedByteFollowsTheTransitionTable_done :
    (mk .receiving [0x45, 0x44, 1, 2, 3, 4, 0x4D] []).channels[0]? = some (.stream { st := .receiving, buf := [0x45, 0x44, 1, 2, 3, 4, 0x4D], rxq := [] }) ∧ ({ st := .receiving, buf := [0x45, 0x44, 1, 2, 3, 4, 0x4D], rxq := [] } : StreamChannel).len < small.maxFrame
      ∧ ¬ [small.h0, small.h1] <:+ ([0x45, 0x44, 1, 2, 3, 4, 0x4D] ++ [0x4F]) ∧ [small.f0, small.f1] <:+ ([0x45, 0x44, 1, 2, 3, 4, 0x4D] ++ [0x4F]) := by decide

theorem witness_ReceivedByteFollowsTheTransitionTable_overflow :
    (mk .receiving [0x45, 0x44, 1, 2, 3, 4, 5] []).channels[0]? = some (.stream { st := .receiving, buf := [0x45, 0x44, 1, 2, 3, 4, 5], rxq := [] }) ∧ ({ st := .receiving, buf := [0x45, 0x44, 1, 2, 3, 4, 5], rxq := [] } : StreamChannel).len < small.maxFrame
      ∧ ¬ [small.h0, small.h1] <:+ ([0x45, 0x44, 1, 2, 3, 4, 5] ++ [6]) ∧ ¬ [small.f0, small.f1] <:+ ([0x45, 0x44, 1, 2, 3, 4, 5] ++ [6]) := by decide

theorem witness_ReceivedByteFollowsTheTransitionTable_accumulate :
    (mk .receiving [0x45, 0x44, 1, 2, 3, 4] []).channels[0]? = some (.stream { st := .receiving, buf := [0x45, 0x44, 1, 2, 3, 4], rxq := [] }) ∧ ({ st := .receiving, buf := [0x45, 0x44, 1, 2, 3, 4], rxq := [] } : StreamChannel).len < small.maxFrame
      ∧ ¬ [small.h0, small.h1] <:+ ([0x45, 0x44, 1, 2, 3, 4] ++ [5]) ∧ ¬ [small.f0, small.f1] <:+ ([0x45, 0x44, 1, 2, 3, 4] ++ [5]) := by decide

theorem witness_FallThroughOfTheChecksGivesRxbyte :
    ((mk .idle [] []).cfg.h0, (mk .idle [] []).cfg.h1) ≠ ((mk .idle [] []).cfg.f0, (mk .idle [] []).cfg.f1)
      ∧ 4 ≤ (mk .idle [] []).cfg.maxFrame := by decide

/-- R148 names P2: with equal markers a check after the header check fires too. -/
theorem test_fallThrough_differs_without_P2 :
    fallThrough { small with f0 := 0x45, f1 := 0x44 } 0x44 { st := .idle, buf := [0x45], rxq := [] }
      ≠ rxStep { small with f0 := 0x45, f1 := 0x44 } 0x44 { st := .idle, buf := [0x45], rxq := [] } := by decide

/-- R148 names P4: in a buffer of two bytes the overflow check fires after the header check. -/
theorem test_fallThrough_differs_without_P4 :
    fallThrough { small with maxFrame := 2 } 0x44 { st := .idle, buf := [0x45], rxq := [] }
      ≠ rxStep { small with maxFrame := 2 } 0x44 { st := .idle, buf := [0x45], rxq := [] } := by decide

theorem witness_OperationsRefuseChannelsOfTheOtherKind_absent :
    (mk .idle [] []).channels.length ≤ 2 := by decide

theorem witness_OperationsRefuseChannelsOfTheOtherKind_datagram :
    (mk .idle [] []).channels[1]? = some (.datagram DatagramChannel.reset) := by decide

theorem witness_OperationsRefuseChannelsOfTheOtherKind_stream :
    (mk .idle [] []).channels[0]? = some (.stream { st := .idle, buf := [], rxq := [] }) := by decide

theorem witness_RxseqAndSymbolsRunTheirBytes :
    small.wf = true ∧ (mk .receiving [0x45, 0x44, 1, 2, 3, 4, 5] []).channels[0]? = some (.stream { st := .receiving, buf := [0x45, 0x44, 1, 2, 3, 4, 5], rxq := [] })
      ∧ ({ st := .receiving, buf := [0x45, 0x44, 1, 2, 3, 4, 5], rxq := [] } : StreamChannel).Inv small := by decide

theorem witness_HeaderSymbolIsFoundOrLostByPhase_phase_zero :
    small.wf = true ∧ (mk .idle [] []).channels[0]? = some (.stream { st := .idle, buf := [], rxq := [] })
      ∧ ({ st := .idle, buf := [], rxq := [] } : StreamChannel).Inv small := by decide

theorem witness_FooterSymbolEndsTheFrame_phase_zero :
    small.wf = true ∧ (mk .idle [] []).channels[0]? = some (.stream { st := .idle, buf := [], rxq := [] })
      ∧ ({ st := .idle, buf := [], rxq := [] } : StreamChannel).Inv small := by decide

theorem witness_HeaderSymbolIsFoundOrLostByPhase_phase_one :
    small.wf = true ∧ (mk .idle [0x45] []).channels[0]? = some (.stream { st := .idle, buf := [0x45], rxq := [] })
      ∧ ({ st := .idle, buf := [0x45], rxq := [] } : StreamChannel).Inv small := by decide

theorem witness_FooterSymbolEndsTheFrame_phase_one :
    small.wf = true ∧ (mk .idle [0x45] []).channels[0]? = some (.stream { st := .idle, buf := [0x45], rxq := [] })
      ∧ ({ st := .idle, buf := [0x45], rxq := [] } : StreamChannel).Inv small := by decide

theorem witness_HeaderSymbolIsFoundOrLostByPhase_phase_two :
    small.wf = true ∧ (mk .idle [0x00, 0x45] []).channels[0]? = some (.stream { st := .idle, buf := [0x00, 0x45], rxq := [] })
      ∧ ({ st := .idle, buf := [0x00, 0x45], rxq := [] } : StreamChannel).Inv small := by decide

theorem witness_FooterSymbolEndsTheFrame_phase_two :
    small.wf = true ∧ (mk .idle [0x00, 0x45] []).channels[0]? = some (.stream { st := .idle, buf := [0x00, 0x45], rxq := [] })
      ∧ ({ st := .idle, buf := [0x00, 0x45], rxq := [] } : StreamChannel).Inv small := by decide

theorem witness_HeaderSymbolIsFoundOrLostByPhase_receiving :
    small.wf = true ∧ (mk .receiving [0x45, 0x44, 1, 2, 3, 4] []).channels[0]? = some (.stream { st := .receiving, buf := [0x45, 0x44, 1, 2, 3, 4], rxq := [] })
      ∧ ({ st := .receiving, buf := [0x45, 0x44, 1, 2, 3, 4], rxq := [] } : StreamChannel).Inv small := by decide

theorem witness_FooterSymbolEndsTheFrame_receiving :
    small.wf = true ∧ (mk .receiving [0x45, 0x44, 1, 2, 3, 4] []).channels[0]? = some (.stream { st := .receiving, buf := [0x45, 0x44, 1, 2, 3, 4], rxq := [] })
      ∧ ({ st := .receiving, buf := [0x45, 0x44, 1, 2, 3, 4], rxq := [] } : StreamChannel).Inv small := by decide

theorem witness_HeaderSymbolIsFoundOrLostByPhase_overflow :
    small.wf = true ∧ (mk .receiving [0x45, 0x44, 1, 2, 3, 4, 5] []).channels[0]? = some (.stream { st := .receiving, buf := [0x45, 0x44, 1, 2, 3, 4, 5], rxq := [] })
      ∧ ({ st := .receiving, buf := [0x45, 0x44, 1, 2, 3, 4, 5], rxq := [] } : StreamChannel).Inv small := by decide

theorem witness_FooterSymbolEndsTheFrame_overflow :
    small.wf = true ∧ (mk .receiving [0x45, 0x44, 1, 2, 3, 4, 5] []).channels[0]? = some (.stream { st := .receiving, buf := [0x45, 0x44, 1, 2, 3, 4, 5], rxq := [] })
      ∧ ({ st := .receiving, buf := [0x45, 0x44, 1, 2, 3, 4, 5], rxq := [] } : StreamChannel).Inv small := by decide

theorem witness_PollConsumesABoundedBurst :
    small.wf = true ∧ (mk .idle [] [0x45, 0x44, 0x01, 0x02]).channels[0]? = some (.stream { st := .idle, buf := [], rxq := [0x45, 0x44, 0x01, 0x02] })
      ∧ ({ st := .idle, buf := [], rxq := [0x45, 0x44, 0x01, 0x02] } : StreamChannel).Inv small := by decide

theorem witness_PollOfDatagramsHandlesSomeInOrder :
    ({ mk .idle [] [] with channels := [.datagram { pending := [[0x01], [0x02]], draws := 0 }] } : State).channels[0]? = some (.datagram { pending := [[0x01], [0x02]], draws := 0 }) := by decide

theorem witness_FramesDoNotDependOnTheCutIntoPolls :
    small.wf = true ∧ (mk .idle [] [0x45]).channels[0]? = some (.stream { st := .idle, buf := [], rxq := [0x45] })
      ∧ ({ st := .idle, buf := [], rxq := [0x45] } : StreamChannel).Inv small
      ∧ (consumed small.burstCap 0 [0x45] [.arrive 0 [0x44, 1, 2], .poll 0, .arrive 0 [3]]).2 = [2, 3] := by decide

theorem witness_FramesDoNotDependOnTheCutIntoPolls_drained :
    [Instr.arrive 0 [0x44, 1, 2], .poll 0, .poll 0] = [.arrive 0 [0x44, 1, 2]] ++ List.replicate 2 (.poll 0)
      ∧ ([(0x45 : Byte)] ++ programBytes 0 [.arrive 0 [0x44, 1, 2]]).length ≤ 2 * small.burstCap := by decide

theorem witness_SteppingAPollSymbolBySymbolIsPoll :
    (polled .receiving [0x45, 0x44] [0x45, 0x44] 3 0).polling = some { left := small.burstCap, taken := 0 }
      ∧ (mk .receiving [0x45, 0x44] [0x45, 0x44]).channels[0]? = some (.stream { st := .receiving, buf := [0x45, 0x44], rxq := [0x45, 0x44] }) := by decide

theorem witness_DatagramIsValidatedWhole_shortest :
    4 ≤ ([0x45, 0x44, 0x4D, 0x4F] : ByteSeq).length ∧ ([0x45, 0x44, 0x4D, 0x4F] : ByteSeq).length ≤ small.maxFrame ∧ [small.h0, small.h1] <+: [0x45, 0x44, 0x4D, 0x4F] ∧ [small.f0, small.f1] <:+ [0x45, 0x44, 0x4D, 0x4F] := by decide

theorem witness_DatagramIsValidatedWhole_longest :
    4 ≤ ([0x45, 0x44, 1, 2, 3, 4, 0x4D, 0x4F] : ByteSeq).length ∧ ([0x45, 0x44, 1, 2, 3, 4, 0x4D, 0x4F] : ByteSeq).length ≤ small.maxFrame ∧ [small.h0, small.h1] <+: [0x45, 0x44, 1, 2, 3, 4, 0x4D, 0x4F] ∧ [small.f0, small.f1] <:+ [0x45, 0x44, 1, 2, 3, 4, 0x4D, 0x4F] := by decide

theorem witness_DatagramIsValidatedWhole_too_short :
    ¬ (4 ≤ ([0x45, 0x44, 0x4D] : ByteSeq).length ∧ ([0x45, 0x44, 0x4D] : ByteSeq).length ≤ small.maxFrame ∧ [small.h0, small.h1] <+: [0x45, 0x44, 0x4D] ∧ [small.f0, small.f1] <:+ [0x45, 0x44, 0x4D]) := by decide

theorem witness_DatagramIsValidatedWhole_too_long :
    ¬ (4 ≤ ([0x45, 0x44, 1, 2, 3, 4, 5, 0x4D, 0x4F] : ByteSeq).length ∧ ([0x45, 0x44, 1, 2, 3, 4, 5, 0x4D, 0x4F] : ByteSeq).length ≤ small.maxFrame ∧ [small.h0, small.h1] <+: [0x45, 0x44, 1, 2, 3, 4, 5, 0x4D, 0x4F] ∧ [small.f0, small.f1] <:+ [0x45, 0x44, 1, 2, 3, 4, 5, 0x4D, 0x4F]) := by decide

theorem witness_DatagramIsValidatedWhole_no_footer :
    (mk .idle [] []).channels[1]? = some (.datagram DatagramChannel.reset) ∧ ¬ (4 ≤ ([0x45, 0x44, 1, 0x4F, 0x4D] : ByteSeq).length ∧ ([0x45, 0x44, 1, 0x4F, 0x4D] : ByteSeq).length ≤ small.maxFrame ∧ [small.h0, small.h1] <+: [0x45, 0x44, 1, 0x4F, 0x4D] ∧ [small.f0, small.f1] <:+ [0x45, 0x44, 1, 0x4F, 0x4D]) := by decide

theorem witness_DatagramCarriesEveryPayload :
    small.wf = true ∧ (mk .idle [] []).channels[1]? = some (.datagram DatagramChannel.reset) ∧ Codec.escLen small [0x45, 0x44, 0x01] + 4 ≤ small.maxFrame := by decide

theorem witness_ResetReturnsTheChannelToIdle :
    (mk .receiving [0x45, 0x44, 0x01] []).channels[0]? = some (.stream { st := .receiving, buf := [0x45, 0x44, 0x01], rxq := [] }) ∧ (mk .idle [] []).channels[1]? = some (.datagram DatagramChannel.reset) := by decide

theorem witness_DispatchOnlyAddsToTheTrace :
    1 < (mk .idle [] []).channels.length := by decide

theorem witness_ArriveAppendsToTheQueue :
    (mk .idle [] [0x01]).channels[0]? = some (.stream { st := .idle, buf := [], rxq := [0x01] }) ∧ (mk .idle [] []).channels[1]? = some (.datagram DatagramChannel.reset) := by decide

theorem witness_RawFrameThatFitsIsDelivered :
    small.wf = true ∧ (mk .idle [] []).channels[0]? = some (.stream { st := .idle, buf := [], rxq := [] }) ∧ MarkerFree small [0x5C, 2, 3, 0x45] ∧ ([0x5C, 2, 3, 0x45] : ByteSeq).length + 4 ≤ small.maxFrame := by decide

theorem witness_RawFrameThatIsTooLongIsDropped :
    small.wf = true ∧ (mk .idle [] []).channels[0]? = some (.stream { st := .idle, buf := [], rxq := [] }) ∧ MarkerFree small [1, 2, 3, 4, 5] ∧ small.maxFrame < ([1, 2, 3, 4, 5] : ByteSeq).length + 4 := by decide

theorem witness_SecondHeaderRestartsTheFrame :
    small.wf = true ∧ (mk .idle [] []).channels[0]? = some (.stream { st := .idle, buf := [], rxq := [] }) ∧ MarkerFree small [1, 2, 3, 0x45] ∧ MarkerFree small [0x44] ∧ ([1, 2, 3, 0x45] : ByteSeq).length + 4 ≤ small.maxFrame
      ∧ ([0x44] : ByteSeq).length + 4 ≤ small.maxFrame := by decide

theorem witness_PayloadWithoutMarkersArrivesIntact :
    small.wf = true ∧ (mk .idle [] []).channels[0]? = some (.stream { st := .idle, buf := [], rxq := [] }) ∧ MarkerFree small [0x5C, 0x45, 0x4D] ∧ Codec.escLen small [0x5C, 0x45, 0x4D] + 4 ≤ small.maxFrame := by decide

theorem witness_ReceivingIsNeverWedged :
    small.wf = true ∧ (mk .receiving [0x45, 0x44, 1, 2] []).channels[0]? = some (.stream { st := .receiving, buf := [0x45, 0x44, 1, 2], rxq := [] })
      ∧ ({ st := .receiving, buf := [0x45, 0x44, 1, 2], rxq := [] } : StreamChannel).Inv small ∧ ([1, 2, 3, 4] : ByteSeq).length = small.maxFrame - ({ st := .receiving, buf := [0x45, 0x44, 1, 2], rxq := [] } : StreamChannel).len := by decide

end Tests
end Sys2Proof
end

section
/-! PROOFS of the scope statements: what a step refuses, what it runs, that no step reads the histories, and that a POLL stepped symbol
by symbol is the one operation POLL. -/

namespace Sys2Proof
namespace Machine

/-! ### What the written channel and the taken bytes leave as it was -/

@[simp] theorem commit_cfg (c : Nat) (e : ChannelStep) (s : State) : (commit c e s).cfg = s.cfg := by simp [commit_eq]
@[simp] theorem commit_served (c : Nat) (e : ChannelStep) (s : State) : (commit c e s).served = s.served := by simp [commit_eq]
@[simp] theorem commit_polling (c : Nat) (e : ChannelStep) (s : State) : (commit c e s).polling = s.polling := by simp [commit_eq]

section TakeBytes
variable (n : Nat) (ch : StreamChannel) (b : Burst) (s : State)

@[simp] theorem takeBytes_cfg : (takeBytes n ch b s).cfg = s.cfg := rfl
@[simp] theorem takeBytes_served : (takeBytes n ch b s).served = s.served := rfl
@[simp] theorem takeBytes_polling : (takeBytes n ch b s).polling = some { left := b.left - n, taken := b.taken + n } := rfl

theorem takeBytes_channel {x : Channel} (h : s.channels[s.served]? = some x) :
    (takeBytes n ch b s).channels[s.served]? = some (.stream { ch with rxq := ch.rxq.drop n }) := by
  simp [takeBytes, (List.getElem?_eq_some_iff.mp h).1]

end TakeBytes

/-! ### A step by what it fetched -/

/-- The answer of a step that fetched this, in a configuration within P1 to P5. -/
def Fetched.answer : Fetched → Answer
  | .run i t => exec i t
  | .still t => .next t
  | .stop r => .refused r

/-- A step in full: the check of the configuration (R12, R13), then what was fetched. -/
theorem step_eq_answer (s : State) :
    step s = if (s.cfg.wf && !s.channels.isEmpty) = true then (fetch s).answer else .refused .badConfiguration := by
  unfold step
  cases s.cfg.wf && !s.channels.isEmpty <;> cases fetch s <;> rfl

/-- Constants that break P1 to P5 stop the step, whatever is fetched. -/
theorem step_of_not_wf {s : State} (h : s.cfg.wf ≠ true) : step s = .refused .badConfiguration := by
  simp [step_eq_answer, h]

theorem channels_ne_nil_of_getElem? {s : State} {c : Nat} {x : Channel} (h : s.channels[c]? = some x) : s.channels ≠ [] := by
  intro hn
  simp [hn] at h

/-- With a POLL in progress on a stream channel, a step on an allowed byte runs the symbol there at the state past its bytes. -/
theorem step_of_decodeSymbol {s : State} {b : Burst} {ch : StreamChannel} {i : Instr} {rest : ByteSeq} (hw : s.cfg.wf = true)
    (hp : s.polling = some b) (hc : s.channels[s.served]? = some (.stream ch))
    (hd : decodeSymbol s.cfg (ch.rxq.take b.left) = .ok (i, rest)) :
    step s = exec i (takeBytes ((ch.rxq.take b.left).length - rest.length) ch b s) := by
  have hf : fetch s = .run i (takeBytes ((ch.rxq.take b.left).length - rest.length) ch b s) := by
    simp [fetch, fetchSymbol, hp, hc, hd]
  exact step_of_fetch_run hw (channels_ne_nil_of_getElem? hc) hf

/-- With a POLL in progress on a stream channel and no byte it may take, a step ends the POLL. -/
theorem step_of_no_byte {s : State} {b : Burst} {ch : StreamChannel} (hw : s.cfg.wf = true) (hp : s.polling = some b)
    (hc : s.channels[s.served]? = some (.stream ch)) (hn : ch.rxq.take b.left = []) : step s = .next (endPoll b s) := by
  have hf : fetch s = .still (endPoll b s) := by
    simp [fetch, fetchSymbol, hp, hc, hn, decodeSymbol]
  simp [step_eq_answer, hf, Fetched.answer, hw, channels_ne_nil_of_getElem? hc]

/-- Settles O7: each disjunct denies one conjunct of P1 to P5. -/
theorem stepRefusesConstantsOutsideP1ToP5 : Obligations.StepRefusesConstantsOutsideP1ToP5 := by
  intro s broken
  apply step_of_not_wf
  rw [ne_eq, wf_iff]
  rintro ⟨e0, e1, e2, e3, pairs, p0, p1, p2, p3, room, cap⟩
  rcases broken with h | h | h | h | h | h | h | h | h | h | h
  · exact e0 h
  · exact e1 h
  · exact e2 h
  · exact e3 h
  · exact pairs h
  · exact p0 h
  · exact p1 h
  · exact p2 h
  · exact p3 h
  · omega
  · omega

/-- Settles O4: `takeBytes` is the state the statement writes out. -/
theorem stepRunsTheDecodedSymbol : Obligations.StepRunsTheDecodedSymbol :=
  fun _ _ _ _ _ hw hp hc hd => step_of_decodeSymbol hw hp hc hd

/-! ### Operations on a channel that is missing or of the other kind -/

theorem onStream_of_missing {c : Nat} {s : State} (f : StreamChannel → Option ChannelStep) (h : s.channels[c]? = none) :
    onStream c f s = .refused (.noSuchChannel c) := by
  simp [onStream, h]

theorem onStream_of_datagram {c : Nat} {s : State} {dc : DatagramChannel} (f : StreamChannel → Option ChannelStep)
    (h : s.channels[c]? = some (.datagram dc)) : onStream c f s = .refused (.wrongKind c) := by
  simp [onStream, h]

@[simp] theorem execRxseq_nil (c : Nat) (s : State) : execRxseq c [] s = .next s := rfl

/-- RXSEQ by structure: its first RXBYTE, then the others (R94). -/
theorem execRxseq_cons (c : Nat) (b : Byte) (w : ByteSeq) (s : State) :
    execRxseq c (b :: w) s = andThen (receive c b s) (execRxseq c w) := by
  unfold execRxseq
  rw [List.foldl_cons, foldl_andThen]
  rfl

/-- RXBYTE, its parts and RXSEQ of at least one byte begin with one operation of a stream channel. -/
theorem exec_begins_onStream {c : Nat} {i : Instr} (s : State)
    (h : (∃ b, i = .rxbyte c b) ∨ (∃ b, i = .rxbyteAppend c b) ∨ i = .rxbyteHdrMatch c ∨ i = .rxbyteIdleDiscard c
      ∨ i = .rxbyteIdleHold c ∨ i = .rxbyteFrameDone c ∨ i = .rxbyteOverflow c ∨ i = .rxbyteAccum c
      ∨ (∃ b w, i = .rxseq c (b :: w))) :
    ∃ f k, exec i s = andThen (onStream c f s) k := by
  have alone (f : StreamChannel → Option ChannelStep) (he : exec i s = onStream c f s) :
      ∃ f k, exec i s = andThen (onStream c f s) k := ⟨f, .next, by rw [he, andThen_next_right]⟩
  rcases h with ⟨b, rfl⟩ | ⟨b, rfl⟩ | rfl | rfl | rfl | rfl | rfl | rfl | ⟨b, w, rfl⟩
  · exact alone (rxStep s.cfg b) rfl
  · exact alone (appendStep s.cfg b) rfl
  · exact alone (some ∘ armStep s.cfg .hdrMatch) rfl
  · exact alone (some ∘ armStep s.cfg .idleDiscard) rfl
  · exact alone (some ∘ armStep s.cfg .idleHold) rfl
  · exact alone (some ∘ armStep s.cfg .frameDone) rfl
  · exact alone (some ∘ armStep s.cfg .overflow) rfl
  · exact alone (some ∘ armStep s.cfg .accum) rfl
  · exact ⟨_, _, execRxseq_cons c b w s⟩

/-- Settles O30: a stream operation is refused by the operation on the channel that it begins with, every other one by its own look-up
of the channel. -/
theorem operationsRefuseChannelsOfTheOtherKind : Obligations.OperationsRefuseChannelsOfTheOtherKind := by
  intro s c i
  refine ⟨fun stream => ?_, fun other absent => ?_, ?_⟩
  · obtain ⟨f, k, he⟩ := exec_begins_onStream s stream
    refine ⟨fun absent => ?_, fun dc hc => ?_⟩
    · rw [he, onStream_of_missing f (List.getElem?_eq_none absent), andThen_refused]
    · rw [he, onStream_of_datagram f hc, andThen_refused]
  · have missing : s.channels[c]? = none := List.getElem?_eq_none absent
    rcases other with ⟨d, rfl⟩ | rfl | rfl | ⟨f, rfl⟩ | ⟨bs, rfl⟩
    · simp [exec, execRxdgram, missing]
    · simp [exec, execPoll, missing]
    · simp [exec, execReset, missing]
    · simp [exec, execDispatch, missing]
    · simp [exec, execArrive, missing]
  · rintro d ch rfl hc
    simp [exec, execRxdgram, hc]

/-! ### The histories are written and never read

`s.after h` is the state `s` with the history `h` before its own. Every operation commutes with it, and every state is a state without
history after some history; so what a step adds does not depend on what was there. -/

/-- The three histories of the state (R16, R33, R207). -/
structure History where
  frames : List (Nat × ByteSeq)
  results : List Result
  events : List (Nat × Event)

/-- The state with the history `h` put before its own. -/
def State.after (h : History) (s : State) : State :=
  { s with frames := h.frames ++ s.frames, results := h.results ++ s.results, events := h.events ++ s.events }

/-- What an answer gives when the history `h` was there before. -/
def answerAfter (h : History) (o : Answer) : Answer := andThen o (fun t => .next (t.after h))

/-- An operation that only adds to the histories and does not read them. -/
def HistoryBlind (f : State → Answer) : Prop := ∀ h s, f (s.after h) = answerAfter h (f s)

section After
variable (h : History) (s : State) (c : Nat)

@[simp] theorem after_cfg : (s.after h).cfg = s.cfg := rfl
@[simp] theorem after_channels : (s.after h).channels = s.channels := rfl
@[simp] theorem after_script : (s.after h).script = s.script := rfl
@[simp] theorem after_served : (s.after h).served = s.served := rfl
@[simp] theorem after_polling : (s.after h).polling = s.polling := rfl

@[simp] theorem answerAfter_next : answerAfter h (.next s) = .next (s.after h) := rfl
@[simp] theorem answerAfter_fault (r : Fault) : answerAfter h (.fault r) = .fault r := rfl
@[simp] theorem answerAfter_refused (r : Refusal) : answerAfter h (.refused r) = .refused r := rfl

@[simp] theorem setChannel_after (x : Channel) : setChannel c x (s.after h) = (setChannel c x s).after h := rfl

@[simp] theorem give_after (r : Result) : give r (s.after h) = (give r s).after h := by
  simp [give, State.after]

@[simp] theorem dispatch_after (f : ByteSeq) : dispatch c f (s.after h) = (dispatch c f s).after h := by
  simp [dispatch, State.after]

@[simp] theorem raise_after (e : Event) : raise c e (s.after h) = (raise c e s).after h := by
  simp [raise, State.after]

@[simp] theorem commit_after (e : ChannelStep) : commit c e (s.after h) = (commit c e s).after h := by
  simp [commit_eq, State.after]

@[simp] theorem receiveDatagram_after (d : ByteSeq) : receiveDatagram c d (s.after h) = (receiveDatagram c d s).after h := by
  unfold receiveDatagram
  cases hd : datagramAccepted s.cfg d <;> simp [hd]

theorem foldl_receiveDatagram_after (ds : List ByteSeq) :
    ds.foldl (fun t d => receiveDatagram c d t) (s.after h) = (ds.foldl (fun t d => receiveDatagram c d t) s).after h := by
  induction ds generalizing s with
  | nil => rfl
  | cons d ds ih => simp [ih]

end After

/-- One blind operation after another is blind. -/
theorem HistoryBlind.andThen_answerAfter {g : State → Answer} (hg : HistoryBlind g) (h : History) (o : Answer) :
    andThen (answerAfter h o) g = answerAfter h (andThen o g) := by
  cases o with
  | next s => exact hg h s
  | fault r => rfl
  | refused r => rfl

theorem onStream_blind (c : Nat) (f : StreamChannel → Option ChannelStep) : HistoryBlind (onStream c f) := by
  intro h s
  match hc : s.channels[c]? with
  | none => simp [onStream, hc]
  | some (.datagram dc) => simp [onStream, hc]
  | some (.stream ch) => cases hf : f ch <;> simp [onStream, hc, hf]

theorem receive_blind (c : Nat) (b : Byte) : HistoryBlind (receive c b) :=
  fun h s => onStream_blind c (rxStep s.cfg b) h s

theorem execRxseq_blind (c : Nat) (w : ByteSeq) : HistoryBlind (execRxseq c w) := by
  induction w with
  | nil => exact fun _ _ => rfl
  | cons b w ih =>
    intro h s
    rw [execRxseq_cons, execRxseq_cons, receive_blind, ih.andThen_answerAfter]

theorem pollDatagram_blind (c : Nat) (dc : DatagramChannel) : HistoryBlind (pollDatagram c dc) := by
  intro h s
  have handled (t : State) := foldl_receiveDatagram_after h { t with served := c } c
    (dc.pending.take (Config.datagramsPerPoll c dc.draws))
  exact congrArg Host.Outcome.next ((congrArg (give _) (handled (setChannel c (.datagram _) s))).trans (give_after h _ _))

theorem pollStream_blind (c : Nat) (ch : StreamChannel) : HistoryBlind (pollStream c ch) := by
  intro h s
  unfold pollStream
  rw [after_cfg]
  cases burstStep s.cfg s.cfg.burstCap ch with
  | none => rfl
  | some r =>
    simp only [commit_after]
    exact congrArg Host.Outcome.next (give_after h { commit c r.1 s with served := c } (.polled c r.2))

theorem execPoll_blind (c : Nat) : HistoryBlind (execPoll c) := by
  intro h s
  match hc : s.channels[c]? with
  | none => simp [execPoll, hc]
  | some (.datagram dc) => simp [execPoll, hc, pollDatagram_blind c dc h s]
  | some (.stream ch) => simp [execPoll, hc, pollStream_blind c ch h s]

/-- No meaning of an instruction reads the histories (R33). -/
theorem exec_blind (i : Instr) : HistoryBlind (exec i) := by
  intro h s
  cases i with
  | hdr => exact execRxseq_blind s.served s.cfg.hdrBytes h s
  | ftr => exact execRxseq_blind s.served s.cfg.ftrBytes h s
  | esc => exact receive_blind s.served s.cfg.esc h s
  | literal b => exact receive_blind s.served b h s
  | esclen p => simp [exec, execEsclen]
  | encode p => simp [exec, execEncode]
  | decode b => simp [exec, execDecode]
  | txframe p => simp [exec, execTxframe]
  | rxbyte c b => exact receive_blind c b h s
  | rxbyteAppend c b => exact onStream_blind c (appendStep s.cfg b) h s
  | rxbyteHdrMatch c => exact onStream_blind c (some ∘ armStep s.cfg .hdrMatch) h s
  | rxbyteIdleDiscard c => exact onStream_blind c (some ∘ armStep s.cfg .idleDiscard) h s
  | rxbyteIdleHold c => exact onStream_blind c (some ∘ armStep s.cfg .idleHold) h s
  | rxbyteFrameDone c => exact onStream_blind c (some ∘ armStep s.cfg .frameDone) h s
  | rxbyteOverflow c => exact onStream_blind c (some ∘ armStep s.cfg .overflow) h s
  | rxbyteAccum c => exact onStream_blind c (some ∘ armStep s.cfg .accum) h s
  | poll c => exact execPoll_blind c h s
  | rxdgram c d => rcases hc : s.channels[c]? with _ | _ | _ <;> simp [exec, execRxdgram, hc]
  | reset c => rcases hc : s.channels[c]? with _ | _ | _ <;> simp [exec, execReset, hc]
  | dispatch c f => rcases hc : s.channels[c]? with _ | _ | _ <;> simp [exec, execDispatch, hc]
  | rxseq c bs => exact execRxseq_blind c bs h s
  | arrive c bs => rcases hc : s.channels[c]? with _ | _ | _ <;> simp [exec, execArrive, hc]

/-- What is fetched when the history `h` was there before. -/
def Fetched.after (h : History) : Fetched → Fetched
  | .run i t => .run i (t.after h)
  | .still t => .still (t.after h)
  | .stop r => .stop r

theorem answer_after (h : History) (x : Fetched) : (x.after h).answer = answerAfter h x.answer := by
  cases x with
  | run i t => exact exec_blind i h t
  | still t => rfl
  | stop r => rfl

theorem fetchSymbol_after (h : History) (b : Burst) (s : State) : fetchSymbol b (s.after h) = (fetchSymbol b s).after h := by
  have ended : endPoll b (s.after h) = (endPoll b s).after h := give_after h { s with polling := none } _
  unfold fetchSymbol
  rw [after_channels, after_served, after_cfg]
  match s.channels[s.served]? with
  | none => rfl
  | some (.datagram _) => rfl
  | some (.stream ch) =>
    dsimp only
    cases decodeSymbol s.cfg (ch.rxq.take b.left) with
    | error _ => exact congrArg Fetched.still ended
    | ok _ => rfl

theorem fetchLine_after (h : History) (s : State) : fetchLine (s.after h) = (fetchLine s).after h := by
  unfold fetchLine
  rw [after_script]
  split
  · rfl
  · rfl
  · rfl
  · split <;> rfl

theorem fetch_after (h : History) (s : State) : fetch (s.after h) = (fetch s).after h := by
  unfold fetch
  rw [after_polling]
  cases s.polling with
  | none => exact fetchLine_after h s
  | some b => exact fetchSymbol_after h b s

theorem step_blind : HistoryBlind step := by
  intro h s
  rw [step_eq_answer, step_eq_answer, fetch_after, answer_after, after_cfg, after_channels]
  split <;> rfl

/-- The state with empty histories. -/
def State.bare (s : State) : State := { s with frames := [], results := [], events := [] }

theorem bare_after (h : History) (s : State) :
    s.bare.after h = { s with frames := h.frames, results := h.results, events := h.events } := by
  simp [State.bare, State.after]

/-- A step with any histories is the step without them, after them. -/
theorem step_eq_answerAfter_bare (h : History) (s : State) :
    step { s with frames := h.frames, results := h.results, events := h.events } = answerAfter h (step s.bare) := by
  rw [← bare_after, step_blind]

/-- Settles O53: the two steps are one step without histories, after the histories of each. -/
theorem nothingReadsTheHistory : Obligations.NothingReadsTheHistory := by
  intro s t fr rs ev hs
  have own : step s = answerAfter ⟨s.frames, s.results, s.events⟩ (step s.bare) := step_eq_answerAfter_bare ⟨_, _, _⟩ s
  have other : step { s with frames := fr, results := rs, events := ev } = answerAfter ⟨fr, rs, ev⟩ (step s.bare) :=
    step_eq_answerAfter_bare ⟨fr, rs, ev⟩ s
  obtain ⟨u, hu, ht⟩ := andThen_eq_next.mp (own.symm.trans hs)
  cases ht
  exact ⟨u.frames, u.results, u.events, rfl, rfl, rfl, by rw [other, hu]; rfl⟩

/-! ### A POLL stepped symbol by symbol -/

/-- The symbol decoder takes exactly the bytes of the symbol it gives (R81 to R84). -/
theorem eq_encode_append_of_decodeSymbol {cfg : Config} {w rest : ByteSeq} {i : Instr} (h : decodeSymbol cfg w = .ok (i, rest)) :
    w = encode cfg i ++ rest := by
  have single (x : Byte) : encode cfg (decodeSingle cfg x) = [x] := by
    unfold decodeSingle
    split
    · rename_i hx
      simp [encode, hx]
    · rfl
  match w with
  | [] => cases h
  | [x] =>
    cases h
    simp [single]
  | x :: y :: r =>
    simp only [decodeSymbol] at h
    split at h
    · rename_i hp
      cases h
      obtain ⟨rfl, rfl⟩ := Prod.mk.inj hp
      rfl
    · split at h
      · rename_i hp
        cases h
        obtain ⟨rfl, rfl⟩ := Prod.mk.inj hp
        rfl
      · cases h
        simp [single]

/-- Only an empty stream is rejected (R89). -/
theorem eq_nil_of_decodeSymbol_error {cfg : Config} {w : ByteSeq} {r : Reject} (h : decodeSymbol cfg w = .error r) : w = [] := by
  match w with
  | [] => rfl
  | [x] => cases h
  | x :: y :: w =>
    simp only [decodeSymbol] at h
    split at h
    · cases h
    · split at h <;> cases h

theorem encode_symbol_length_pos {cfg : Config} {i : Instr} (h : i.isSymbol = true) : 0 < (encode cfg i).length :=
  match i, h with
  | .hdr, _ => Nat.zero_lt_succ 1
  | .ftr, _ => Nat.zero_lt_succ 1
  | .esc, _ => Nat.zero_lt_succ 0
  | .literal _, _ => Nat.zero_lt_succ 0

/-- A symbol of the wire is received as its bytes on the served channel (R81 to R84, log 8). -/
theorem exec_symbol_eq_execRxseq {i : Instr} (h : i.isSymbol = true) (s : State) :
    exec i s = execRxseq s.served (encode s.cfg i) s :=
  match i, h with
  | .hdr, _ => rfl
  | .ftr, _ => rfl
  | .esc, _ => rfl
  | .literal _, _ => rfl

theorem burstStep_of_take_nil {cfg : Config} {k : Nat} {ch : StreamChannel} (h : ch.rxq.take k = []) :
    burstStep cfg k ch = some (quiet ch, 0) := by
  cases k with
  | zero => rfl
  | succ k =>
    have hq : ch.rxq = [] := by simpa using h
    simp [burstStep, hq]

/-- A burst takes the bytes at the head of the queue as a run over them, then goes on with what it may still take (R150, R151). -/
theorem burstStep_append (cfg : Config) (v q : ByteSeq) (k : Nat) (ch : StreamChannel) :
    burstStep cfg (v.length + k) { ch with rxq := v ++ q }
      = (run cfg { ch with rxq := q } v).bind fun e =>
          (burstStep cfg k e.ch).map fun r => (e.followedBy r.1, r.2 + v.length) := by
  induction v generalizing ch with
  | nil => simp
  | cons b v ih =>
    have hk : (b :: v).length + k = (v.length + k) + 1 := by simp only [List.length_cons]; omega
    have hq := rxStep_with_rxq cfg { ch with rxq := q } b (v ++ q)
    rw [hk, run_cons]
    simp only [List.cons_append, burstStep, hq]
    cases hr : rxStep cfg b { ch with rxq := q } with
    | none => rfl
    | some e =>
      have he : ({ e.ch with rxq := q } : StreamChannel) = e.ch := by rw [← show e.ch.rxq = q from rxStep_rxq hr]
      simp only [Option.map_some, Option.bind_some, ih, he]
      cases run cfg e.ch v with
      | none => rfl
      | some e1 =>
        simp only [Option.map_some, Option.bind_some, followedBy_ch]
        cases burstStep cfg k e1.ch with
        | none => rfl
        | some r => simp [ChannelStep.followedBy, Nat.add_assoc]

/-- What the POLL in progress `b` does to the served channel `ch` in all the steps it still has. -/
def restOfPoll (b : Burst) (ch : StreamChannel) (s : State) : Answer :=
  match burstStep s.cfg b.left ch with
  | none => .fault (.bufferOverrun s.served)
  | some (e, n) => .next (endPoll { b with taken := b.taken + n } (commit s.served e s))

/-- A POLL that has just begun has the whole of POLL before it. -/
theorem restOfPoll_of_begun {s : State} {ch : StreamChannel} (hc : s.channels[s.served]? = some (.stream ch)) :
    restOfPoll { left := s.cfg.burstCap, taken := 0 } ch s = exec (.poll s.served) { s with polling := none } := by
  cases hb : burstStep s.cfg s.cfg.burstCap ch <;> simp [restOfPoll, exec, execPoll, pollStream, hc, hb, endPoll, commit_eq]

theorem restOfPoll_of_no_byte {s : State} {b : Burst} {ch : StreamChannel} (hc : s.channels[s.served]? = some (.stream ch))
    (hn : ch.rxq.take b.left = []) : restOfPoll b ch s = .next (endPoll b s) := by
  simp [restOfPoll, burstStep_of_take_nil hn, commit_quiet hc]

section SymbolOfABurst
variable {s : State} {b : Burst} {ch : StreamChannel} {v rest : ByteSeq} (hw : ch.rxq.take b.left = v ++ rest)
include hw

theorem length_le_of_take : v.length ≤ b.left := by
  have := congrArg List.length hw
  simp only [List.length_take, List.length_append] at this
  omega

/-- The burst of a POLL, cut after the first bytes it takes. -/
theorem burstStep_of_take (cfg : Config) :
    burstStep cfg b.left ch
      = (run cfg { ch with rxq := ch.rxq.drop v.length } v).bind fun e =>
          (burstStep cfg (b.left - v.length) e.ch).map fun r => (e.followedBy r.1, r.2 + v.length) := by
  have hq : v ++ ch.rxq.drop v.length = ch.rxq := by
    have hp : v <+: ch.rxq := (List.prefix_append v rest).trans (hw ▸ List.take_prefix b.left ch.rxq)
    exact List.prefix_append_drop hp |>.symm
  have hl : v.length + (b.left - v.length) = b.left := Nat.add_sub_cancel' (length_le_of_take hw)
  have := burstStep_append cfg v (ch.rxq.drop v.length) (b.left - v.length) ch
  rwa [hq, hl] at this

/-- Where the first bytes overrun the buffer, so does the POLL. -/
theorem restOfPoll_of_run_none (hr : run s.cfg { ch with rxq := ch.rxq.drop v.length } v = none) :
    restOfPoll b ch s = .fault (.bufferOverrun s.served) := by
  simp [restOfPoll, burstStep_of_take hw, hr]

/-- Else the POLL is those bytes, then the rest of the POLL. -/
theorem restOfPoll_of_run_some {e : ChannelStep} (hr : run s.cfg { ch with rxq := ch.rxq.drop v.length } v = some e) :
    restOfPoll b ch s
      = restOfPoll { left := b.left - v.length, taken := b.taken + v.length } e.ch
          (commit s.served e (takeBytes v.length ch b s)) := by
  simp only [restOfPoll, burstStep_of_take hw, hr, commit_cfg, commit_served, takeBytes_cfg, takeBytes_served, Option.bind_some]
  cases burstStep s.cfg (b.left - v.length) e.ch with
  | none => rfl
  | some r =>
    have : b.taken + (r.2 + v.length) = b.taken + v.length + r.2 := by omega
    simp [commit_eq, endPoll, takeBytes, this]

end SymbolOfABurst

theorem core_run_succ (n : Nat) (s : State) : Sys2Proof.core.run (n + 1) s = andThen (step s) (Sys2Proof.core.run n) := by
  have h : Sys2Proof.core.step s = step s := rfl
  simp only [Host.Core.run, h]
  cases step s <;> rfl

theorem core_run_one (s : State) : Sys2Proof.core.run 1 s = step s := by
  rw [core_run_succ]
  exact andThen_next_right _

/-- A step on a symbol receives its bytes, taken from the queue. -/
theorem step_symbol_eq_execRxseq {s : State} {b : Burst} {ch : StreamChannel} {i : Instr} {rest : ByteSeq} (hw : s.cfg.wf = true)
    (hp : s.polling = some b) (hc : s.channels[s.served]? = some (.stream ch))
    (hd : decodeSymbol s.cfg (ch.rxq.take b.left) = .ok (i, rest)) :
    step s = execRxseq s.served (encode s.cfg i) (takeBytes (encode s.cfg i).length ch b s) := by
  have hk : (ch.rxq.take b.left).length - rest.length = (encode s.cfg i).length := by
    simp [eq_encode_append_of_decodeSymbol hd]
  rw [step_of_decodeSymbol hw hp hc hd, hk, exec_symbol_eq_execRxseq (isSymbol_of_decodeSymbol hd), takeBytes_served,
    takeBytes_cfg]

/-- From any point of a POLL, a step for each byte that it may still take, and one to end it, are enough to do the rest of it. -/
theorem steps_do_restOfPoll {s : State} {b : Burst} {ch : StreamChannel} (hw : s.cfg.wf = true) (hp : s.polling = some b)
    (hc : s.channels[s.served]? = some (.stream ch)) :
    ∃ n, n ≤ b.left + 1 ∧ Sys2Proof.core.run n s = restOfPoll b ch s := by
  induction hl : b.left using Nat.strong_induction_on generalizing s b ch with
  | _ left ih =>
  subst hl
  cases hd : decodeSymbol s.cfg (ch.rxq.take b.left) with
  | error r =>
    have hn : ch.rxq.take b.left = [] := eq_nil_of_decodeSymbol_error hd
    exact ⟨1, by omega, by rw [core_run_one, step_of_no_byte hw hp hc hn, restOfPoll_of_no_byte hc hn]⟩
  | ok p =>
    obtain ⟨i, rest⟩ := p
    have hv : ch.rxq.take b.left = encode s.cfg i ++ rest := eq_encode_append_of_decodeSymbol hd
    have hpos : 0 < (encode s.cfg i).length := encode_symbol_length_pos (isSymbol_of_decodeSymbol hd)
    have hle : (encode s.cfg i).length ≤ b.left := length_le_of_take hv
    have hstep := (step_symbol_eq_execRxseq hw hp hc hd).trans (execRxseq_eq_run (takeBytes_channel _ ch b s hc) _)
    rw [takeBytes_cfg] at hstep
    cases hr : run s.cfg { ch with rxq := ch.rxq.drop (encode s.cfg i).length } (encode s.cfg i) with
    | none => exact ⟨1, by omega, by rw [core_run_one, hstep, hr, restOfPoll_of_run_none hv hr]⟩
    | some e =>
      have later := ih (b.left - (encode s.cfg i).length) (by omega)
        (s := commit s.served e (takeBytes (encode s.cfg i).length ch b s))
        (b := { left := b.left - (encode s.cfg i).length, taken := b.taken + (encode s.cfg i).length }) (ch := e.ch)
        (by simpa using hw) (by simp) (by simpa using commit_channel e (takeBytes_channel _ ch b s hc)) rfl
      obtain ⟨n, hn, hrun⟩ := later
      refine ⟨n + 1, by omega, ?_⟩
      rw [core_run_succ, hstep, hr, restOfPoll_of_run_some hv hr]
      exact hrun

/-- Settles O38: the steps that the rest of a POLL takes, from a POLL just begun. -/
theorem steppingAPollSymbolBySymbolIsPoll : Obligations.SteppingAPollSymbolBySymbolIsPoll := by
  intro s ch inv hp hc
  rw [← restOfPoll_of_begun hc]
  exact steps_do_restOfPoll inv.cfgWf hp hc

end Machine
end Sys2Proof
end

section
/-! PROOFS of the statements about the state: what it is after reset, what each instruction writes and reads, that no constant changes,
and that every step keeps the invariant of 10_state.md R24. -/

namespace Sys2Proof
namespace Machine

/-! ### The state after reset -/

/-- Settles O45: the two channels and the constants of `State.reset`, read off. -/
theorem resetStateIsIdleAndEmpty : Obligations.ResetStateIsIdleAndEmpty := by
  refine ⟨fun ch hch => ?_, rfl, rfl, rfl, rfl, rfl, by decide⟩
  have : ch = StreamChannel.reset := by simpa [State.reset] using hch
  subst this
  exact ⟨rfl, rfl⟩

/-- Settles O46: the only stream channel is idle and empty. -/
theorem resetMeetsTheStateInvariant : Obligations.ResetMeetsTheStateInvariant where
  cfgWf := by decide
  someChannel := List.cons_ne_nil _ _
  channels := by
    intro x hx
    have hx : x = .stream StreamChannel.reset ∨ x = .datagram DatagramChannel.reset := by simpa [State.reset] using hx
    rcases hx with rfl | rfl
    · exact inv_of_idle_nil rfl rfl
    · trivial
  burst := nofun

/-! ### What an operation of one channel writes -/

/-- From `s` to `t` at most channel `c` was written, which is `y` after it, and the frames `fs` and the labels `es` of channel `c` were
added. The constants, the kinds and the POLL in progress are as they were. -/
structure Wrote (c : Nat) (y : Option Channel) (fs : List ByteSeq) (es : List Event) (s t : State) : Prop where
  cfg : t.cfg = s.cfg
  polling : t.polling = s.polling
  kinds : t.kinds = s.kinds
  own : t.channels[c]? = y
  others : ∀ d, d ≠ c → t.channels[d]? = s.channels[d]?
  frames : t.frames = s.frames ++ fs.map (Prod.mk c)
  events : t.events = s.events ++ es.map (Prod.mk c)

/-- Writing a channel of the same kind changes no kind. -/
theorem kinds_set {l : List Channel} {c : Nat} {x x' : Channel} (h : l[c]? = some x) (hk : x'.kind = x.kind) :
    (l.set c x').map Channel.kind = l.map Channel.kind := by
  rw [List.map_set, hk]
  exact set_getElem?_self (by simp [h])

section Wrote
variable {s t u : State} {c : Nat} {y z : Option Channel} {fs gs : List ByteSeq} {es ds : List Event}

/-- An operation that writes no channel and adds no frame and no label. -/
theorem wrote_nothing (cfg : t.cfg = s.cfg) (polling : t.polling = s.polling) (channels : t.channels = s.channels)
    (frames : t.frames = s.frames) (events : t.events = s.events) : Wrote c s.channels[c]? [] [] s t where
  cfg := cfg
  polling := polling
  kinds := by simp [State.kinds, channels]
  own := by rw [channels]
  others _ _ := by rw [channels]
  frames := by simp [frames]
  events := by simp [events]

theorem Wrote.trans (h : Wrote c y fs es s t) (k : Wrote c z gs ds t u) : Wrote c z (fs ++ gs) (es ++ ds) s u where
  cfg := k.cfg.trans h.cfg
  polling := k.polling.trans h.polling
  kinds := k.kinds.trans h.kinds
  own := k.own
  others d hd := (k.others d hd).trans (h.others d hd)
  frames := by simp [k.frames, h.frames]
  events := by simp [k.events, h.events]

theorem wrote_commit {ch : StreamChannel} (h : s.channels[c]? = some (.stream ch)) (e : ChannelStep) :
    Wrote c (some (.stream e.ch)) e.frames e.events s (commit c e s) where
  cfg := commit_cfg c e s
  polling := commit_polling c e s
  kinds := by rw [commit_eq]; exact kinds_set h rfl
  own := commit_channel e h
  others d hd := by simp [commit_eq, Ne.symm hd]
  frames := by rw [commit_eq]
  events := by rw [commit_eq]

theorem wrote_setChannel {x x' : Channel} (h : s.channels[c]? = some x) (hk : x'.kind = x.kind) :
    Wrote c (some x') [] [] s (setChannel c x' s) where
  cfg := rfl
  polling := rfl
  kinds := kinds_set h hk
  own := by simp [(List.getElem?_eq_some_iff.mp h).1]
  others d hd := by simp [Ne.symm hd]
  frames := by simp
  events := by simp

theorem wrote_dispatch (f : ByteSeq) : Wrote c s.channels[c]? [f] [] s (dispatch c f s) :=
  { wrote_nothing (c := c) (s := s) rfl rfl rfl rfl rfl with frames := rfl }

theorem wrote_raise (e : Event) : Wrote c s.channels[c]? [] [e] s (raise c e s) :=
  { wrote_nothing (c := c) (s := s) rfl rfl rfl rfl rfl with events := rfl }

/-- The frames of another channel are as they were. -/
theorem Wrote.framesOf (h : Wrote c y fs es s t) {d : Nat} (hd : d ≠ c) : t.framesOf d = s.framesOf d := by
  simp [State.framesOf, h.frames, List.filter_map, Function.comp_def, Ne.symm hd]

end Wrote

/-! ### What an operation of one channel reads -/

/-- Two states agree on the constants and on channel `c`. -/
def Agree (c : Nat) (s s' : State) : Prop := s'.cfg = s.cfg ∧ s'.channels[c]? = s.channels[c]?

/-- Where `f` completes at `s`, it completes at every state that agrees with `s` on channel `c`, and writes the same there, of channel
`c` alone. -/
def LocalAt (c : Nat) (f : State → Answer) (s : State) : Prop :=
  ∀ t, f s = .next t → ∃ y fs es, ∀ s', Agree c s s' → ∃ t', f s' = .next t' ∧ Wrote c y fs es s' t'

section LocalAt
variable {s : State} {c : Nat} {f g : State → Answer}

/-- What was written where the operation completed. -/
theorem LocalAt.wrote (h : LocalAt c f s) {t : State} (ht : f s = .next t) : ∃ y fs es, Wrote c y fs es s t := by
  obtain ⟨y, fs, es, hw⟩ := h t ht
  obtain ⟨t', ht', hw⟩ := hw s ⟨rfl, rfl⟩
  cases ht.symm.trans ht'
  exact ⟨y, fs, es, hw⟩

/-- An operation that always completes and leaves the channel as it was. -/
theorem localAt_of_wrote {k : State → State} {fs : List ByteSeq} {es : List Event}
    (h : ∀ s, Wrote c s.channels[c]? fs es s (k s)) : LocalAt c (fun s => .next (k s)) s :=
  fun _ _ => ⟨s.channels[c]?, fs, es, fun s' hs' => ⟨k s', rfl, hs'.2 ▸ h s'⟩⟩

/-- Operations that are the same at every state that agrees. -/
theorem LocalAt.congr (hg : LocalAt c g s) (h : ∀ s', Agree c s s' → f s' = g s') : LocalAt c f s := by
  intro t ht
  rw [h s ⟨rfl, rfl⟩] at ht
  obtain ⟨y, fs, es, hw⟩ := hg t ht
  refine ⟨y, fs, es, fun s' hs' => ?_⟩
  rw [h s' hs']
  exact hw s' hs'

/-- One operation of the channel after another: what the first leaves agrees again. -/
theorem LocalAt.andThen (hf : LocalAt c f s) (hg : ∀ t, f s = .next t → LocalAt c g t) :
    LocalAt c (fun s => andThen (f s) g) s := by
  intro u hu
  obtain ⟨t, ht, hu⟩ := andThen_eq_next.mp hu
  obtain ⟨y, fs, es, hw⟩ := hf t ht
  obtain ⟨z, gs, ds, hv⟩ := hg t ht u hu
  refine ⟨z, fs ++ gs, es ++ ds, fun s' hs' => ?_⟩
  obtain ⟨t₀, ht₀, w⟩ := hw s ⟨rfl, rfl⟩
  cases ht.symm.trans ht₀
  obtain ⟨t', ht', w'⟩ := hw s' hs'
  have agree : Agree c t t' := ⟨w'.cfg.trans (hs'.1.trans w.cfg.symm), w'.own.trans w.own.symm⟩
  obtain ⟨u', hu', v⟩ := hv t' agree
  exact ⟨u', andThen_eq_next.mpr ⟨t', ht', hu'⟩, w'.trans v⟩

end LocalAt

/-! ### Every instruction of a channel is local to it -/

section LocalOperations
variable (c : Nat) (s : State)

theorem next_localAt : LocalAt c .next s := localAt_of_wrote fun _ => wrote_nothing rfl rfl rfl rfl rfl

/-- Results are no part of what is written or read of a channel. -/
theorem give_localAt (r : Result) : LocalAt c (fun s => .next (give r s)) s :=
  localAt_of_wrote fun _ => wrote_nothing rfl rfl rfl rfl rfl

/-- Nor is the number of the served channel. -/
theorem serve_localAt (n : Nat) : LocalAt c (fun s => .next { s with served := n }) s :=
  localAt_of_wrote fun _ => wrote_nothing rfl rfl rfl rfl rfl

theorem dispatch_localAt (f : ByteSeq) : LocalAt c (fun s => .next (dispatch c f s)) s :=
  localAt_of_wrote fun _ => wrote_dispatch f

theorem raise_localAt (e : Event) : LocalAt c (fun s => .next (raise c e s)) s :=
  localAt_of_wrote fun _ => wrote_raise e

/-- Every operation of a stream channel that reads the constants only. -/
theorem onStream_localAt (f : Config → StreamChannel → Option ChannelStep) : LocalAt c (fun s => onStream c (f s.cfg) s) s := by
  intro t ht
  obtain ⟨ch, e, hc, he, -⟩ := onStream_eq_next.mp ht
  refine ⟨some (.stream e.ch), e.frames, e.events, fun s' hs' => ?_⟩
  have hc' : s'.channels[c]? = some (.stream ch) := hs'.2.trans hc
  exact ⟨_, onStream_of_some hc' (hs'.1 ▸ he), wrote_commit hc' e⟩

theorem receive_localAt (b : Byte) : LocalAt c (receive c b) s := onStream_localAt c s (rxStep · b)

theorem execRxseq_localAt (w : ByteSeq) : LocalAt c (execRxseq c w) s := by
  induction w generalizing s with
  | nil => exact next_localAt c s
  | cons b w ih => exact ((receive_localAt c s b).andThen fun t _ => ih t).congr fun s' _ => execRxseq_cons c b w s'

/-- A datagram is accepted or dropped by the constants alone (R180). -/
theorem receiveDatagram_localAt (d : ByteSeq) : LocalAt c (fun s => .next (receiveDatagram c d s)) s := by
  cases ha : datagramAccepted s.cfg d with
  | true =>
    refine (dispatch_localAt c s (Codec.decode s.cfg d)).congr fun s' hs' => ?_
    simp [receiveDatagram, hs'.1, ha]
  | false =>
    refine (raise_localAt c s (.datagramRejected d.length)).congr fun s' hs' => ?_
    simp [receiveDatagram, hs'.1, ha]

theorem foldl_receiveDatagram_localAt (ds : List ByteSeq) :
    LocalAt c (fun s => .next (ds.foldl (fun t d => receiveDatagram c d t) s)) s := by
  induction ds generalizing s with
  | nil => exact next_localAt c s
  | cons d ds ih => exact (receiveDatagram_localAt c s d).andThen fun t _ => ih t

variable {c s}

/-- Writing the channel that is there by one of its kind. -/
theorem setChannel_localAt {x x' : Channel} (h : s.channels[c]? = some x) (hk : x'.kind = x.kind) :
    LocalAt c (fun s => .next (setChannel c x' s)) s :=
  fun _ _ => ⟨some x', [], [], fun s' hs' => ⟨setChannel c x' s', rfl, wrote_setChannel (hs'.2.trans h) hk⟩⟩

/-- An operation refused where the channel is missing. -/
theorem localAt_of_refused {f : State → Answer} {r : Refusal} (h : f s = .refused r) : LocalAt c f s := by
  intro t ht
  cases h.symm.trans ht

/-- A POLL of a datagram channel: its queue and its counter are written, the datagrams handled, the number recorded (R182). -/
theorem pollDatagram_localAt {dc : DatagramChannel} (h : s.channels[c]? = some (.datagram dc)) :
    LocalAt c (pollDatagram c dc) s :=
  let n := Config.datagramsPerPoll c dc.draws
  let handled := dc.pending.take n
  let left : DatagramChannel := { pending := dc.pending.drop n, draws := dc.draws + 1 }
  (setChannel_localAt (x' := .datagram left) h rfl).andThen fun t _ => (serve_localAt c t c).andThen fun u _ =>
    (foldl_receiveDatagram_localAt c u handled).andThen fun v _ => give_localAt c v (.polledDatagrams c handled.length)

/-- A POLL of a stream channel: the burst is written and the number of bytes recorded (R150). -/
theorem pollStream_localAt {ch : StreamChannel} (h : s.channels[c]? = some (.stream ch)) : LocalAt c (pollStream c ch) s := by
  cases hb : burstStep s.cfg s.cfg.burstCap ch with
  | none =>
    intro t ht
    simp [pollStream, hb] at ht
  | some r =>
    have burst : LocalAt c (fun s => onStream c (fun ch => (burstStep s.cfg s.cfg.burstCap ch).map Prod.fst) s) s :=
      onStream_localAt c s fun cfg ch => (burstStep cfg cfg.burstCap ch).map Prod.fst
    refine (burst.andThen fun t _ => (serve_localAt c t c).andThen fun u _ => give_localAt c u (.polled c r.2)).congr ?_
    intro s' hs'
    simp [pollStream, onStream_stream (hs'.2.trans h), hs'.1, hb]

theorem execPoll_localAt (c : Nat) (s : State) : LocalAt c (execPoll c) s := by
  match hc : s.channels[c]? with
  | none => exact localAt_of_refused (r := .noSuchChannel c) (by simp [execPoll, hc])
  | some (.datagram dc) => exact (pollDatagram_localAt hc).congr fun s' hs' => by simp [execPoll, hs'.2, hc]
  | some (.stream ch) => exact (pollStream_localAt hc).congr fun s' hs' => by simp [execPoll, hs'.2, hc]

theorem execRxdgram_localAt (c : Nat) (d : ByteSeq) (s : State) : LocalAt c (execRxdgram c d) s := by
  match hc : s.channels[c]? with
  | none => exact localAt_of_refused (r := .noSuchChannel c) (by simp [execRxdgram, hc])
  | some (.datagram _) =>
    exact (receiveDatagram_localAt c s d).congr fun s' hs' => by simp [execRxdgram, hs'.2, hc]
  | some (.stream _) => exact localAt_of_refused (r := .wrongKind c) (by simp [execRxdgram, hc])

theorem execReset_localAt (c : Nat) (s : State) : LocalAt c (execReset c) s := by
  match hc : s.channels[c]? with
  | none => exact localAt_of_refused (r := .noSuchChannel c) (by simp [execReset, hc])
  | some (.datagram _) => exact (next_localAt c s).congr fun s' hs' => by simp [execReset, hs'.2, hc]
  | some (.stream ch) =>
    exact (setChannel_localAt (x' := .stream { ch.clear with st := .idle }) hc rfl).congr fun s' hs' => by
      simp [execReset, hs'.2, hc]

theorem execDispatch_localAt (c : Nat) (f : ByteSeq) (s : State) : LocalAt c (execDispatch c f) s := by
  match hc : s.channels[c]? with
  | none => exact localAt_of_refused (r := .noSuchChannel c) (by simp [execDispatch, hc])
  | some _ => exact (dispatch_localAt c s f).congr fun s' hs' => by simp [execDispatch, hs'.2, hc]

theorem execArrive_localAt (c : Nat) (bs : ByteSeq) (s : State) : LocalAt c (execArrive c bs) s := by
  match hc : s.channels[c]? with
  | none => exact localAt_of_refused (r := .noSuchChannel c) (by simp [execArrive, hc])
  | some (.datagram dc) =>
    exact (setChannel_localAt (x' := .datagram { dc with pending := dc.pending ++ [bs] }) hc rfl).congr fun s' hs' => by
      simp [execArrive, hs'.2, hc]
  | some (.stream ch) =>
    exact (setChannel_localAt (x' := .stream { ch with rxq := ch.rxq ++ bs }) hc rfl).congr fun s' hs' => by
      simp [execArrive, hs'.2, hc]

end LocalOperations

/-- Every instruction that names a channel reads and writes that channel alone (R34). -/
theorem exec_localAt {i : Instr} {c : Nat} (h : i.channel? = some c) (s : State) : LocalAt c (exec i) s := by
  cases i <;> cases h
  case rxbyte b => exact receive_localAt c s b
  case rxbyteAppend b => exact onStream_localAt c s (appendStep · b)
  case rxbyteHdrMatch => exact onStream_localAt c s fun cfg ch => some (armStep cfg .hdrMatch ch)
  case rxbyteIdleDiscard => exact onStream_localAt c s fun cfg ch => some (armStep cfg .idleDiscard ch)
  case rxbyteIdleHold => exact onStream_localAt c s fun cfg ch => some (armStep cfg .idleHold ch)
  case rxbyteFrameDone => exact onStream_localAt c s fun cfg ch => some (armStep cfg .frameDone ch)
  case rxbyteOverflow => exact onStream_localAt c s fun cfg ch => some (armStep cfg .overflow ch)
  case rxbyteAccum => exact onStream_localAt c s fun cfg ch => some (armStep cfg .accum ch)
  case poll => exact execPoll_localAt c s
  case rxdgram d => exact execRxdgram_localAt c d s
  case reset => exact execReset_localAt c s
  case dispatch f => exact execDispatch_localAt c f s
  case rxseq bs => exact execRxseq_localAt c s bs
  case arrive bs => exact execArrive_localAt c bs s

/-- A symbol writes the served channel alone (log 8). -/
theorem exec_symbol_wrote {i : Instr} {s t : State} (hi : i.isSymbol = true) (h : exec i s = .next t) :
    ∃ y fs es, Wrote s.served y fs es s t := by
  rw [exec_symbol_eq_execRxseq hi] at h
  exact (execRxseq_localAt s.served s _).wrote h

/-- A codec operation gives one result and does nothing else (R28). -/
theorem exec_codec_eq_give {i : Instr} (hc : i.channel? = none) (hi : i.isSymbol = false) (s : State) :
    ∃ r, exec i s = .next (give r s) := by
  cases i <;> cases hc <;> cases hi <;> exact ⟨_, rfl⟩

/-- Every instruction writes at most one channel. -/
theorem exec_wrote {i : Instr} {s t : State} (h : exec i s = .next t) : ∃ c y fs es, Wrote c y fs es s t := by
  cases hc : i.channel? with
  | some c => exact ⟨c, (exec_localAt hc s).wrote h⟩
  | none =>
    cases hi : i.isSymbol with
    | true => exact ⟨s.served, exec_symbol_wrote hi h⟩
    | false =>
      obtain ⟨r, hr⟩ := exec_codec_eq_give hc hi s
      exact ⟨s.served, (give_localAt s.served s r).wrote (hr.symm.trans h)⟩

/-- Settles O51: what is written of a channel is written of the one the instruction is local to. -/
theorem channelsDoNotShareState : Obligations.ChannelsDoNotShareState := by
  intro s t i h
  refine ⟨fun c d hc hd => ?_, fun d hi hd => ?_, fun hc hi => ?_⟩
  · obtain ⟨y, fs, es, w⟩ := (exec_localAt hc s).wrote h
    exact ⟨w.others d hd, w.framesOf hd⟩
  · obtain ⟨y, fs, es, w⟩ := exec_symbol_wrote hi h
    exact ⟨w.others d hd, w.framesOf hd⟩
  · obtain ⟨r, hr⟩ := exec_codec_eq_give hc hi s
    cases hr.symm.trans h
    exact ⟨rfl, rfl, rfl⟩

/-- Settles O52: the instruction is local to its channel, on which the two states agree. -/
theorem anInstructionReadsOnlyItsChannel : Obligations.AnInstructionReadsOnlyItsChannel := by
  intro s s' t i c hc hcfg hch h
  obtain ⟨y, fs, es, hw⟩ := exec_localAt hc s t h
  obtain ⟨t₀, ht₀, w⟩ := hw s ⟨rfl, rfl⟩
  cases h.symm.trans ht₀
  obtain ⟨t', ht', w'⟩ := hw s' ⟨hcfg, hch⟩
  exact ⟨t', ht', w'.own.trans w.own.symm, fs.map (Prod.mk c), es.map (Prod.mk c), w.frames, w'.frames, w.events, w'.events⟩

/-! ### What fetching leaves as it was -/

/-- Everything that can be fetched to be run: a line of the program, the POLL of a datagram channel, or a symbol within what the POLL
in progress may still take. -/
theorem fetch_eq_run {s u : State} {i : Instr} (h : fetch s = .run i u) :
    (∃ rest, i.isProgramLine = true ∧ u = { s with script := rest })
    ∨ (i = .poll s.served ∧ u = { s with polling := none })
    ∨ (∃ b ch n, s.polling = some b ∧ s.channels[s.served]? = some (.stream ch) ∧ n ≤ b.left ∧ i.isSymbol = true
        ∧ u = takeBytes n ch b s) := by
  unfold fetch at h
  rcases Option.eq_none_or_eq_some s.polling with hp | ⟨b, hp⟩ <;> rw [hp] at h
  · rcases fetchLine_cases s with hf | ⟨r, hf⟩ | ⟨j, rest, -, hj, hf⟩ <;> cases hf.symm.trans h
    exact .inl ⟨rest, hj, rfl⟩
  · rcases fetchSymbol_cases b s with ⟨-, hf⟩ | ⟨ds, -, hf⟩ | ⟨ch, -, -, hf⟩ | ⟨ch, j, rest, hc, hd, hf⟩ <;> cases hf.symm.trans h
    · exact .inr (.inl ⟨rfl, rfl⟩)
    · have hn : (ch.rxq.take b.left).length - rest.length ≤ b.left := by simp only [List.length_take]; omega
      exact .inr (.inr ⟨b, ch, _, hp, hc, hn, isSymbol_of_decodeSymbol hd, rfl⟩)

/-- Where nothing is fetched, the state stays or the POLL in progress ends. -/
theorem fetch_eq_still {s u : State} (h : fetch s = .still u) : u = s ∨ ∃ b, u = endPoll b s := by
  unfold fetch at h
  rcases Option.eq_none_or_eq_some s.polling with hp | ⟨b, hp⟩ <;> rw [hp] at h
  · rcases fetchLine_cases s with hf | ⟨r, hf⟩ | ⟨j, rest, -, -, hf⟩ <;> cases hf.symm.trans h
    exact .inl rfl
  · rcases fetchSymbol_cases b s with ⟨-, hf⟩ | ⟨ds, -, hf⟩ | ⟨ch, -, -, hf⟩ | ⟨ch, j, rest, -, -, hf⟩ <;> cases hf.symm.trans h
    exact .inr ⟨b, rfl⟩

theorem takeBytes_kinds {n : Nat} {ch : StreamChannel} {b : Burst} {s : State} (h : s.channels[s.served]? = some (.stream ch)) :
    (takeBytes n ch b s).kinds = s.kinds := kinds_set h rfl

/-- Settles O50: an instruction writes one channel by one of its kind, and so does fetching. -/
theorem constantsNeverChange : Obligations.ConstantsNeverChange := by
  have instr {i : Instr} {s t : State} (h : exec i s = .next t) : t.cfg = s.cfg ∧ t.kinds = s.kinds := by
    obtain ⟨c, y, fs, es, w⟩ := exec_wrote h
    exact ⟨w.cfg, w.kinds⟩
  intro s t i h
  rcases h with h | h
  · exact instr h
  · obtain ⟨-, -, ⟨j, u, hf, hu⟩ | hf⟩ := step_eq_next h
    · obtain ⟨hcfg, hkinds⟩ := instr hu
      rcases fetch_eq_run hf with ⟨rest, -, rfl⟩ | ⟨-, rfl⟩ | ⟨b, ch, n, -, hc, -, -, rfl⟩
      · exact ⟨hcfg, hkinds⟩
      · exact ⟨hcfg, hkinds⟩
      · exact ⟨hcfg, hkinds.trans (takeBytes_kinds hc)⟩
    · rcases fetch_eq_still hf with rfl | ⟨b, rfl⟩ <;> exact ⟨rfl, rfl⟩

/-! ### The invariant of R24 is kept -/

section Invariant
variable {s t : State}

/-- The invariant does not read the histories, the text of the program or the served channel. -/
theorem State.Inv.of_same (h : s.Inv) (cfg : t.cfg = s.cfg) (channels : t.channels = s.channels) (polling : t.polling = s.polling) :
    t.Inv where
  cfgWf := cfg ▸ h.cfgWf
  someChannel := channels ▸ h.someChannel
  channels := by rw [channels, cfg]; exact h.channels
  burst := by rw [polling, cfg]; exact h.burst

/-- Writing one channel that meets R24. -/
theorem State.Inv.setChannel (h : s.Inv) (c : Nat) {x : Channel} (hx : x.Inv s.cfg) : (setChannel c x s).Inv where
  cfgWf := h.cfgWf
  someChannel := by simpa using h.someChannel
  channels z hz := by
    rcases List.mem_or_eq_of_mem_set hz with hz | rfl
    · exact h.channels z hz
    · exact hx
  burst := h.burst

/-- A POLL in progress that has its whole cap divided, or none. -/
theorem State.Inv.setPolling (h : s.Inv) (p : Option Burst) (hp : ∀ b ∈ p, b.left + b.taken = s.cfg.burstCap) :
    State.Inv { s with polling := p } where
  cfgWf := h.cfgWf
  someChannel := h.someChannel
  channels := h.channels
  burst := hp

theorem State.Inv.stream (h : s.Inv) {c : Nat} {ch : StreamChannel} (hc : s.channels[c]? = some (.stream ch)) : ch.Inv s.cfg :=
  h.channels _ (List.mem_of_getElem? hc)

theorem State.Inv.commit (h : s.Inv) (c : Nat) {e : ChannelStep} (he : e.ch.Inv s.cfg) : (commit c e s).Inv :=
  (h.setChannel c (x := .stream e.ch) he).of_same (commit_cfg c e s) (by simp [commit_eq]) (commit_polling c e s)

end Invariant

/-- A burst keeps R24 on its channel, as each of its bytes does (R150). -/
theorem burstStep_keeps_inv {cfg : Config} (hw : cfg.wf = true) {k : Nat} {ch : StreamChannel} {r : ChannelStep × Nat}
    (h : ch.Inv cfg) (hr : burstStep cfg k ch = some r) : r.1.ch.Inv cfg := by
  induction k generalizing ch r with
  | zero =>
    cases hr
    exact h
  | succ k ih =>
    unfold burstStep at hr
    split at hr
    · cases hr
      exact h
    · split at hr
      · cases hr
      · rename_i b q _ _ e he
        obtain ⟨r', hr', rfl⟩ := Option.map_eq_some_iff.mp hr
        exact ih (r := r') (rxStep_keeps_inv (ch := { ch with rxq := q }) hw h he) hr'

/-- An operation that keeps the invariant where it completes. -/
def KeepsInv (f : State → Answer) : Prop := ∀ s t, s.Inv → f s = .next t → t.Inv

theorem receive_keepsInv (c : Nat) (b : Byte) : KeepsInv (receive c b) := by
  intro s t inv h
  obtain ⟨ch, e, hc, he, rfl⟩ := onStream_eq_next.mp h
  exact inv.commit c (rxStep_keeps_inv inv.cfgWf (inv.stream hc) he)

theorem execRxseq_keepsInv (c : Nat) (w : ByteSeq) : KeepsInv (execRxseq c w) := by
  induction w with
  | nil =>
    intro s t inv h
    cases h
    exact inv
  | cons b w ih =>
    intro s t inv h
    rw [execRxseq_cons] at h
    obtain ⟨u, hu, ht⟩ := andThen_eq_next.mp h
    exact ih u t (receive_keepsInv c b s u inv hu) ht

theorem execPoll_keepsInv (c : Nat) : KeepsInv (execPoll c) := by
  intro s t inv h
  obtain ⟨y, fs, es, w⟩ := (execPoll_localAt c s).wrote h
  unfold execPoll at h
  split at h
  · cases h
  · exact (inv.setChannel c (x := .datagram _) trivial).of_same w.cfg (pollDatagram_channels h) w.polling
  · rename_i ch hc
    unfold pollStream at h
    split at h
    · cases h
    · rename_i e n hb
      cases h
      exact (inv.commit c (burstStep_keeps_inv inv.cfgWf (inv.stream hc) hb)).of_same rfl rfl rfl

theorem execRxdgram_keepsInv (c : Nat) (d : ByteSeq) : KeepsInv (execRxdgram c d) := by
  intro s t inv h
  obtain ⟨y, fs, es, w⟩ := (execRxdgram_localAt c d s).wrote h
  unfold execRxdgram at h
  split at h <;> cases h
  exact inv.of_same w.cfg (receiveDatagram_channels c d s) w.polling

theorem execReset_keepsInv (c : Nat) : KeepsInv (execReset c) := by
  intro s t inv h
  unfold execReset at h
  split at h <;> cases h
  · exact inv
  · exact inv.setChannel c (inv_of_idle_nil rfl rfl)

theorem execArrive_keepsInv (c : Nat) (bs : ByteSeq) : KeepsInv (execArrive c bs) := by
  intro s t inv h
  unfold execArrive at h
  split at h <;> cases h
  · rename_i ch hc
    exact inv.setChannel c (x := .stream _) (inv.stream hc :)
  · exact inv.setChannel c trivial

/-- A symbol is received byte by byte. -/
theorem exec_symbol_keepsInv {i : Instr} (hi : i.isSymbol = true) : KeepsInv (exec i) := by
  intro s t inv h
  rw [exec_symbol_eq_execRxseq hi] at h
  exact execRxseq_keepsInv s.served _ s t inv h

/-- Every line of a program keeps the invariant; the append alone, which is no line, does not. -/
theorem exec_line_keepsInv {i : Instr} (hi : i.isProgramLine = true) : KeepsInv (exec i) := by
  have give_keepsInv {f : State → Result} : KeepsInv (fun s => .next (give (f s) s)) := by
    intro s t inv h
    cases h
    exact inv.of_same rfl rfl rfl
  cases i <;> cases hi
  case esclen p => exact give_keepsInv
  case encode p => exact give_keepsInv
  case decode b => exact give_keepsInv
  case txframe p => exact give_keepsInv
  case rxbyte c b => exact receive_keepsInv c b
  case poll c => exact execPoll_keepsInv c
  case rxdgram c d => exact execRxdgram_keepsInv c d
  case reset c => exact execReset_keepsInv c
  case rxseq c bs => exact execRxseq_keepsInv c bs
  case arrive c bs => exact execArrive_keepsInv c bs

/-- Taking bytes from the served queue moves their number from what the POLL may still take to what it has taken. -/
theorem takeBytes_keeps_inv {s : State} {n : Nat} {ch : StreamChannel} {b : Burst} (inv : s.Inv) (hp : s.polling = some b)
    (hc : s.channels[s.served]? = some (.stream ch)) (hn : n ≤ b.left) : (takeBytes n ch b s).Inv := by
  refine (inv.setChannel s.served (x := .stream { ch with rxq := ch.rxq.drop n }) (inv.stream hc :)).setPolling _ ?_
  have whole : b.left + b.taken = s.cfg.burstCap := inv.burst b hp
  rintro _ ⟨⟩
  change b.left - n + (b.taken + n) = s.cfg.burstCap
  omega

/-- Settles O47: fetching keeps the invariant, and what is fetched is a symbol, a POLL or a line. -/
theorem everyStepKeepsTheStateInvariant : Obligations.EveryStepKeepsTheStateInvariant := by
  intro s t inv h
  have idle : State.Inv { s with polling := none } := inv.setPolling none nofun
  obtain ⟨-, -, ⟨i, u, hf, hu⟩ | hf⟩ := step_eq_next h
  · rcases fetch_eq_run hf with ⟨rest, hi, rfl⟩ | ⟨rfl, rfl⟩ | ⟨b, ch, n, hp, hc, hn, hi, rfl⟩
    · exact exec_line_keepsInv hi { s with script := rest } t (inv.of_same rfl rfl rfl) hu
    · exact execPoll_keepsInv s.served _ t idle hu
    · exact exec_symbol_keepsInv hi _ t (takeBytes_keeps_inv inv hp hc hn) hu
  · rcases fetch_eq_still hf with rfl | ⟨b, rfl⟩
    · exact inv
    · exact idle.of_same rfl rfl rfl

end Machine
end Sys2Proof
end

section
/-! PROOFS of the statements about memory: the in-place loop of DECODE, and the lines that no step performs. -/

namespace Sys2Proof
namespace Machine

/-! ### A program line that is no operation of its own -/

/-- Without a POLL in progress, a step at a line that R93 does not let stand alone refuses it by name. -/
theorem step_of_not_isProgramLine {s : State} {i : Instr} {rest : ByteSeq} (hw : s.cfg.wf = true) (hc : s.channels ≠ [])
    (hp : s.polling = none) (hd : decodeLine s.script = .ok (i, rest)) (hi : i.isProgramLine = false) :
    step s = .refused (.notOnItsOwn i) := by
  have hf : fetch s = .stop (.notOnItsOwn i) := by simp [fetch, fetchLine, hp, hd, hi]
  simp [step_eq_answer, hf, Fetched.answer, hw, hc]

/-- Settles O8: none of the eight is a program line. -/
theorem partsAndDispatchNeverRunOnTheirOwn : Obligations.PartsAndDispatchNeverRunOnTheirOwn := by
  intro s i rest hw hc hp hd part
  refine step_of_not_isProgramLine hw hc hp hd ?_
  rcases part with ⟨c, b, rfl⟩ | ⟨c, rfl⟩ | ⟨c, rfl⟩ | ⟨c, rfl⟩ | ⟨c, rfl⟩ | ⟨c, rfl⟩ | ⟨c, rfl⟩ | ⟨c, f, rfl⟩ <;> rfl

namespace Codec

/-! ### A run of bytes written over a buffer -/

/-- The buffer `b` with the bytes `d` written over it from index `o` on. -/
def overwrite (b : ByteSeq) (o : Nat) (d : ByteSeq) : ByteSeq := b.take o ++ d ++ b.drop (o + d.length)

@[simp] theorem overwrite_nil (b : ByteSeq) (o : Nat) : overwrite b o [] = b := by simp [overwrite]

/-- Writing one byte and then a run after it is writing the longer run. -/
theorem overwrite_set {b : ByteSeq} {o : Nat} (h : o < b.length) (x : Byte) (d : ByteSeq) :
    overwrite (b.set o x) (o + 1) d = overwrite b o (x :: d) := by
  have front : (b.set o x).take (o + 1) = b.take o ++ [x] := by
    rw [List.take_add_one, List.take_set_of_le (Nat.le_refl o), List.getElem?_set_self h, Option.toList_some]
  have behind : (b.set o x).drop (o + 1 + d.length) = b.drop (o + (d.length + 1)) := by
    rw [List.drop_set_of_lt (by omega), Nat.add_assoc, Nat.add_comm 1]
  simp [overwrite, front, behind]

theorem take_overwrite {b : ByteSeq} {o : Nat} (h : o ≤ b.length) (d : ByteSeq) :
    (overwrite b o d).take (o + d.length) = b.take o ++ d := by
  have length_front : (b.take o ++ d).length = o + d.length := by simp [h]
  rw [overwrite, ← length_front, List.take_left]

theorem length_overwrite {b : ByteSeq} {o : Nat} {d : ByteSeq} (h : o + d.length ≤ b.length) :
    (overwrite b o d).length = b.length := by
  simp only [overwrite, List.length_append, List.length_take, List.length_drop]
  omega

/-! ### DECODE in place -/

/-- The loop of R112 in closed form. A write index at most the read index touches no byte still to be read (R64), so the loop writes the
decoding of what it has not read over the buffer, and leaves all behind it as it was. -/
theorem decodeLoop_eq_overwrite (cfg : Config) {fuel : Nat} {b : ByteSeq} {i o : Nat} (hoi : o ≤ i) (hf : b.length ≤ i + fuel) :
    decodeLoop cfg fuel b i o = (overwrite b o (decode cfg (b.drop i)), o + (decode cfg (b.drop i)).length) := by
  induction fuel generalizing b i o with
  | zero =>
    have allRead : b.drop i = [] := List.drop_eq_nil_of_le hf
    simp [decodeLoop, allRead]
  | succ fuel ih =>
    have pass (y : Byte) {j : Nat} (hij : i < j) (hi : i < b.length) :
        decodeLoop cfg fuel (b.set o y) j (o + 1)
          = (overwrite b o (y :: decode cfg (b.drop j)), o + (y :: decode cfg (b.drop j)).length) := by
      rw [ih (by omega) (by rw [List.length_set]; omega), List.drop_set_of_lt (by omega), overwrite_set (by omega),
        List.length_cons, Nat.add_assoc, Nat.add_comm 1]
    unfold decodeLoop
    split
    · rename_i hx
      simp [List.drop_eq_nil_of_le (List.getElem?_eq_none_iff.mp hx)]
    · rename_i x hx
      obtain ⟨hi, hx⟩ := List.getElem?_eq_some_iff.mp hx
      rw [List.drop_eq_getElem_cons hi, hx]
      split
      · rename_i he
        subst he
        split
        · rename_i y hy
          obtain ⟨hi', hy⟩ := List.getElem?_eq_some_iff.mp hy
          rw [List.drop_eq_getElem_cons hi', hy, decode_esc_cons]
          exact pass y (by omega) hi
        · rename_i hy
          simp [List.drop_eq_nil_of_le (List.getElem?_eq_none_iff.mp hy)]
      · rename_i he
        rw [decode_cons cfg he]
        exact pass x (by omega) hi

/-- Settles O19: each clause is read off the closed form of the loop. -/
theorem inPlaceDecodeGivesTheDecodedBytes : Obligations.InPlaceDecodeGivesTheDecodedBytes := by
  intro cfg b
  have whole : decodeInPlace cfg b = (overwrite b 0 (decode cfg b), 0 + (decode cfg b).length) :=
    decodeLoop_eq_overwrite cfg (Nat.le_refl 0) (by omega)
  rw [whole]
  refine ⟨Nat.zero_add _, take_overwrite (Nat.zero_le _) _, length_overwrite ?_, fun i o hoi hi => ?_⟩
  · rw [Nat.zero_add]
    exact length_decode_le cfg b
  · rw [decodeLoop_eq_overwrite cfg hoi (by omega)]
    exact take_overwrite (Nat.le_trans hoi hi) _

end Codec
end Machine
end Sys2Proof
end

section
/-! PROOFS of the statements about the two encodings: the bytes of a wire symbol and the written line of an operation are read back. -/

namespace Sys2Proof

/-! ### Wire symbols -/

/-- A byte that makes no marker with the byte after it is a symbol of its own (R83, R84). -/
theorem decodeSymbol_single {cfg : Config} {b : Byte} {rest : ByteSeq}
    (h : ∀ y r, rest = y :: r → (b, y) ≠ cfg.hdr ∧ (b, y) ≠ cfg.ftr) :
    decodeSymbol cfg (b :: rest) = .ok (decodeSingle cfg b, rest) := by
  cases rest with
  | nil => rfl
  | cons y r =>
    obtain ⟨hh, hf⟩ := h y r rfl
    simp [decodeSymbol, hh, hf]

theorem decodeSymbol_hdr (cfg : Config) (rest : ByteSeq) : decodeSymbol cfg (cfg.hdrBytes ++ rest) = .ok (.hdr, rest) :=
  if_pos rfl

/-- The footer is read as the footer because it is not the header (P2). -/
theorem decodeSymbol_ftr {cfg : Config} (h : cfg.hdr ≠ cfg.ftr) (rest : ByteSeq) :
    decodeSymbol cfg (cfg.ftrBytes ++ rest) = .ok (.ftr, rest) :=
  (if_neg h.symm).trans (if_pos rfl)

/-- Settles O2: P2 keeps the two markers apart, and P1 keeps the escape byte out of both. -/
theorem symbolsDecodeWhatTheyEncode : Obligations.SymbolsDecodeWhatTheyEncode := by
  intro cfg kinds i rest hw hi hwf apart
  obtain ⟨e0, -, e2, -, pairs, -⟩ := (Machine.wf_iff cfg).mp hw
  cases i <;> cases hi
  case hdr => exact decodeSymbol_hdr cfg rest
  case ftr => exact decodeSymbol_ftr pairs rest
  case esc =>
    have alone : decodeSymbol cfg (cfg.esc :: rest) = .ok (decodeSingle cfg cfg.esc, rest) :=
      decodeSymbol_single fun y r _ => ⟨fun h => e0 (Prod.mk.inj h).1, fun h => e2 (Prod.mk.inj h).1⟩
    rwa [decodeSingle, if_pos rfl] at alone
  case literal b =>
    have alone : decodeSymbol cfg (b :: rest) = .ok (decodeSingle cfg b, rest) :=
      decodeSymbol_single fun y r => apart b y r rfl
    have notEsc : b ≠ cfg.esc := by simpa [Instr.wellFormed] using hwf
    rwa [decodeSingle, if_neg notEsc] at alone

/-! ### Operands of a written line -/

/-- The digits of a number, read one after another, give the number, and reading goes on behind them. -/
theorem readDigits_decimalDigits {fuel n : Nat} (h : n < fuel) :
    ∃ d v ds, decimalDigits fuel n = d :: ds ∧ decimalVal d = some v ∧ ∀ t, readDigits v (ds ++ t) = readDigits n t := by
  induction fuel generalizing n with
  | zero => omega
  | succ fuel ih =>
    rw [decimalDigits]
    split
    · rename_i hn
      exact ⟨_, n, [], rfl, decimalVal_decimalDigit n hn, fun t => rfl⟩
    · rename_i hn
      obtain ⟨d, v, ds, hd, hv, read⟩ := ih (n := n / 10) (by omega)
      refine ⟨d, v, ds ++ [decimalDigit (n % 10)], by rw [hd]; rfl, hv, fun t => ?_⟩
      have last : decimalVal (decimalDigit (n % 10)) = some (n % 10) := decimalVal_decimalDigit _ (Nat.mod_lt n (by omega))
      rw [List.append_assoc, read, List.singleton_append, readDigits, last]
      simp only [Nat.div_add_mod]

/-- A channel (R93) is read back where something other than a digit follows. -/
theorem readChan_chanText (c : Nat) {b : Byte} (hb : decimalVal b = none) (t : ByteSeq) :
    readChan (chanText c ++ b :: t) = some (c, b :: t) := by
  obtain ⟨d, v, ds, hd, hv, read⟩ := readDigits_decimalDigits (Nat.lt_succ_self c)
  have stop : readDigits c (b :: t) = (c, b :: t) := by simp [readDigits, hb]
  simp [chanText, hd, readChan, hv, read, stop]

theorem readBytesTail_bytesTextTail (bs t : ByteSeq) : readBytesTail (bytesTextTail bs ++ t) = some (bs, t) := by
  induction bs with
  | nil => match t with
    | [] => rfl
    | [_] => rfl
    | _ :: _ :: _ => rfl
  | cons b bs ih =>
    have space : spaceByte ≠ ascii ']' := by decide
    simp [bytesTextTail, byteText, readBytesTail, space, hexPair_byteText, ih]

theorem hexDigit_ne_bracket : ∀ d < 16, hexDigit d ≠ ascii ']' := by decide

/-- A list of bytes (R93) is read back: no hexadecimal digit is the closing bracket. -/
theorem readBytes_bytesText (bs t : ByteSeq) : readBytes (bytesText bs ++ t) = some (bs, t) := by
  cases bs with
  | nil => rfl
  | cons b bs =>
    have notClosed : readChar (ascii ']') (byteText b ++ (bytesTextTail bs ++ t)) = none :=
      if_neg (hexDigit_ne_bracket _ (by omega))
    simp [bytesText, readBytes, notClosed, readByte_byteText, readBytesTail_bytesTextTail]

/-! ### Written lines, by the shape of their operands -/

section Lines
variable (c : Nat) (b : Byte) (bs rest : ByteSeq)

/-- A line is decoded by its mnemonic's reader of operands. -/
theorem decodeLine_word {o : Op} {t rest : ByteSeq} {i : Instr} (h : readOperands o (spaceByte :: t) = some (i, rest)) :
    decodeLine (o.word ++ spaceByte :: t) = .ok (i, rest) := by
  have word : takeWord (o.word ++ spaceByte :: t) = (o.word, spaceByte :: t) := takeWord_append_space (word_noBreak o) t
  generalize o.word ++ spaceByte :: t = l at word
  cases l with
  | nil => simp [takeWord] at word
  | cons x l => simp [decodeLine, word, opOf_word, h]

theorem decodeLine_lineChan {o : Op} {k : Nat → Instr} (h : readOperands o = readLineChan k) :
    decodeLine (lineChan o c ++ rest) = .ok (k c, rest) := by
  have operands : readOperands o (spaceByte :: (chanText c ++ newlineByte :: rest)) = some (k c, rest) := by
    simp [h, readLineChan, readChan_chanText c (b := newlineByte) rfl]
  simpa [lineChan] using decodeLine_word operands

theorem decodeLine_lineChanByte {o : Op} {k : Nat → Byte → Instr} (h : readOperands o = readLineChanByte k) :
    decodeLine (lineChanByte o c b ++ rest) = .ok (k c b, rest) := by
  have operands : readOperands o (spaceByte :: (chanText c ++ spaceByte :: (byteText b ++ newlineByte :: rest)))
      = some (k c b, rest) := by
    simp [h, readLineChanByte, readChan_chanText c (b := spaceByte) rfl, readByte_byteText]
  simpa [lineChanByte] using decodeLine_word operands

theorem decodeLine_lineChanBytes {o : Op} {k : Nat → ByteSeq → Instr} (h : readOperands o = readLineChanBytes k) :
    decodeLine (lineChanBytes o c bs ++ rest) = .ok (k c bs, rest) := by
  have operands : readOperands o (spaceByte :: (chanText c ++ spaceByte :: (bytesText bs ++ newlineByte :: rest)))
      = some (k c bs, rest) := by
    simp [h, readLineChanBytes, readChan_chanText c (b := spaceByte) rfl, readBytes_bytesText]
  simpa [lineChanBytes] using decodeLine_word operands

theorem decodeLine_lineBytes {o : Op} {k : ByteSeq → Instr} (h : readOperands o = readLineBytes k) :
    decodeLine (lineBytes o bs ++ rest) = .ok (k bs, rest) := by
  have operands : readOperands o (spaceByte :: (bytesText bs ++ newlineByte :: rest)) = some (k bs, rest) := by
    simp [h, readLineBytes, readBytes_bytesText]
  simpa [lineBytes] using decodeLine_word operands

end Lines

/-- Settles O3: each operation's line has one of the four shapes, and its reader is the reader of that shape. -/
theorem linesDecodeWhatTheyEncode : Obligations.LinesDecodeWhatTheyEncode := by
  intro cfg i rest hi
  cases i <;> cases hi
  case esclen p => exact decodeLine_lineBytes p rest rfl
  case encode p => exact decodeLine_lineBytes p rest rfl
  case decode b => exact decodeLine_lineBytes b rest rfl
  case txframe p => exact decodeLine_lineBytes p rest rfl
  case rxbyte c b => exact decodeLine_lineChanByte c b rest rfl
  case rxbyteAppend c b => exact decodeLine_lineChanByte c b rest rfl
  case rxbyteHdrMatch c => exact decodeLine_lineChan c rest rfl
  case rxbyteIdleDiscard c => exact decodeLine_lineChan c rest rfl
  case rxbyteIdleHold c => exact decodeLine_lineChan c rest rfl
  case rxbyteFrameDone c => exact decodeLine_lineChan c rest rfl
  case rxbyteOverflow c => exact decodeLine_lineChan c rest rfl
  case rxbyteAccum c => exact decodeLine_lineChan c rest rfl
  case poll c => exact decodeLine_lineChan c rest rfl
  case rxdgram c d => exact decodeLine_lineChanBytes c d rest rfl
  case reset c => exact decodeLine_lineChan c rest rfl
  case dispatch c f => exact decodeLine_lineChanBytes c f rest rfl
  case rxseq c bs => exact decodeLine_lineChanBytes c bs rest rfl
  case arrive c bs => exact decodeLine_lineChanBytes c bs rest rfl

/-- Settles O1: the decoders evaluated on the words and on the two lines. -/
theorem tableWordsDecodeToTheirSymbols : Obligations.TableWordsDecodeToTheirSymbols :=
  ⟨rfl, rfl, rfl, rfl, rfl, rfl, rfl, rfl⟩

end Sys2Proof
end

section
/-! PROOFS of the smaller statements of 30_encoding.md: the escape trigger, the selector, RXSEQ, ARRIVE, and a step at a line. -/

namespace Sys2Proof
namespace Machine

/-- Settles O10: the two bytes from an index, and the two markers, are written as pairs. -/
theorem escapeTriggerIsConditionAOrB : Obligations.EscapeTriggerIsConditionAOrB := by
  intro cfg p i hi
  have notFinal : i + 1 ≠ p.length ↔ i ≠ p.length - 1 := by omega
  simp only [needsEsc, Bool.or_eq_true, Bool.and_eq_true, bne_iff_ne, beq_iff_eq, notFinal, Config.hdr, Config.ftr,
    pairAt_eq_some_iff, Prod.mk.injEq]
  refine or_congr_right (and_congr_right fun _ => ?_)
  constructor
  · rintro (⟨h0, h1⟩ | ⟨h0, h1⟩)
    · exact ⟨_, _, h0, h1, .inl ⟨rfl, rfl⟩⟩
    · exact ⟨_, _, h0, h1, .inr ⟨rfl, rfl⟩⟩
  · rintro ⟨_, _, h0, h1, ⟨rfl, rfl⟩ | ⟨rfl, rfl⟩⟩
    · exact .inl ⟨h0, h1⟩
    · exact .inr ⟨h0, h1⟩

/-- Settles O27: the cases of the selector, each of which denies the condition of every other. -/
theorem everyByteHasExactlyOneOutcome : Obligations.EveryByteHasExactlyOneOutcome := by
  intro cfg ch
  have hdr : last2 ch.buf = some cfg.hdr ↔ [cfg.h0, cfg.h1] <:+ ch.buf := last2_eq_some_iff
  have ftr : last2 ch.buf = some cfg.ftr ↔ [cfg.f0, cfg.f1] <:+ ch.buf := last2_eq_some_iff
  have selected := selectOutcome_cases cfg ch
  simp only [ne_eq, hdr, ftr] at selected
  rcases selected with ⟨ho, h⟩ | ⟨ho, h, hs, hl⟩ | ⟨ho, h, hs, hl⟩ | ⟨ho, h, hs, hf⟩ | ⟨ho, h, hs, hf, hl⟩ | ⟨ho, h, hs, hf, hl⟩
  · simp [ho, h]
  · simp [ho, h, hs, hl]
  · simp [ho, h, hs, hl]
  · simp [ho, h, hs, hf]
  · simp [ho, h, hs, hf, hl]
  · simp [ho, h, hs, hf, hl]

/-- Settles O44: what ARRIVE writes is written out. -/
theorem arriveAppendsToTheQueue : Obligations.ArriveAppendsToTheQueue := by
  refine fun s c bs => ⟨fun ch hc => ?_, fun dc hc => ?_⟩
  · simp [exec, execArrive, hc, setChannel]
  · simp [exec, execArrive, hc, setChannel]

theorem execRxseq_append (c : Nat) (u v : ByteSeq) (s : State) :
    execRxseq c (u ++ v) s = andThen (execRxseq c u s) (execRxseq c v) := by
  unfold execRxseq
  rw [List.foldl_append, foldl_andThen]

theorem execRxseq_singleton (c : Nat) (b : Byte) (s : State) : execRxseq c [b] s = receive c b s := rfl

/-- Settles O31: a fold over a sequence is a fold over its parts. -/
theorem rxseqIsRxbyteForEachByte : Obligations.RxseqIsRxbyteForEachByte :=
  fun s c => ⟨rfl, fun b => execRxseq_singleton c b s, fun u v => execRxseq_append c u v s⟩

/-- With no POLL in progress, a step performs the program line at the head of the text, at the state past it. -/
theorem step_of_decodeLine {s : State} {i : Instr} {rest : ByteSeq} (hw : s.cfg.wf = true) (hc : s.channels ≠ [])
    (hp : s.polling = none) (hd : decodeLine s.script = .ok (i, rest)) (hi : i.isProgramLine = true) :
    step s = exec i { s with script := rest } := by
  have hf : fetch s = .run i { s with script := rest } := by simp [fetch, fetchLine, hp, hd, hi]
  exact step_of_fetch_run hw hc hf

/-- Settles O5, by what is fetched from the text. -/
theorem stepRunsTheDecodedLine : Obligations.StepRunsTheDecodedLine :=
  fun _ _ _ hw hc hp hd hi => step_of_decodeLine hw hc hp hd hi

end Machine
end Sys2Proof
end

section
/-! PROOFS of the statements about received bytes: RXBYTE row by row, the marker symbols, and that RXSEQ and every symbol is the run
over its bytes. -/

namespace Sys2Proof
namespace Machine

/-! ### RXBYTE row by row (R140, R95) -/

/-- The last two bytes are the last byte of the buffer and the one appended. -/
theorem pair_suffix_iff {x y a b : Byte} {u : ByteSeq} : [x, y] <:+ u ++ [a] ++ [b] ↔ x = a ∧ y = b := by
  rw [← last2_eq_some_iff, last2_append_singleton, List.getLast?_concat, Option.map_some, Option.some_inj, Prod.mk.injEq]
  exact and_congr eq_comm eq_comm

theorem not_pair_suffix_of_ne {x y b : Byte} (h : b ≠ y) (u : ByteSeq) : ¬ [x, y] <:+ u ++ [b] := by
  rw [← last2_eq_some_iff, last2_append_singleton]
  simp [h]

theorem len_append_byte (ch : StreamChannel) (b : Byte) : ({ ch with buf := ch.buf ++ [b] } : StreamChannel).len = ch.len + 1 := by
  simp [StreamChannel.len]

section Rows
variable {cfg : Config} {ch : StreamChannel} {b : Byte}

theorem rxStep_hdrMatch (room : ch.len < cfg.maxFrame) (hdr : [cfg.h0, cfg.h1] <:+ ch.buf ++ [b]) :
    rxStep cfg b ch = some (hdrMatchStep cfg { ch with buf := ch.buf ++ [b] }) := by
  obtain ⟨selected, -⟩ := everyByteHasExactlyOneOutcome cfg { ch with buf := ch.buf ++ [b] }
  rw [rxStep_of_lt b room, selected.mpr hdr]
  rfl

variable (room : ch.len < cfg.maxFrame) (noHdr : ¬ [cfg.h0, cfg.h1] <:+ ch.buf ++ [b])
include room noHdr

theorem rxStep_idleDiscard (idle : ch.st = .idle) (hl : ch.len = 2) :
    rxStep cfg b ch = some { ch := { ch with buf := [] }, frames := [], events := [.idleDiscard 3] } := by
  obtain ⟨-, selected, -⟩ := everyByteHasExactlyOneOutcome cfg { ch with buf := ch.buf ++ [b] }
  have length := len_append_byte ch b
  rw [rxStep_of_lt b room, selected.mpr ⟨noHdr, idle, by omega⟩]
  simp [outcomeStep, idleDiscardStep, StreamChannel.clear, length, hl]

theorem rxStep_idleHold (idle : ch.st = .idle) (hl : ch.len ≤ 1) :
    rxStep cfg b ch = some (quiet { ch with buf := ch.buf ++ [b] }) := by
  obtain ⟨-, -, selected, -⟩ := everyByteHasExactlyOneOutcome cfg { ch with buf := ch.buf ++ [b] }
  have length := len_append_byte ch b
  rw [rxStep_of_lt b room, selected.mpr ⟨noHdr, idle, by omega⟩]
  rfl

theorem rxStep_frameDone (receiving : ch.st = .receiving) (ftr : [cfg.f0, cfg.f1] <:+ ch.buf ++ [b]) :
    rxStep cfg b ch = some (frameDoneStep cfg { ch with buf := ch.buf ++ [b] }) := by
  obtain ⟨-, -, -, selected, -⟩ := everyByteHasExactlyOneOutcome cfg { ch with buf := ch.buf ++ [b] }
  rw [rxStep_of_lt b room, selected.mpr ⟨noHdr, receiving, ftr⟩]
  rfl

variable (noFtr : ¬ [cfg.f0, cfg.f1] <:+ ch.buf ++ [b]) (receiving : ch.st = .receiving)
include noFtr receiving

theorem rxStep_overflow (full : cfg.maxFrame ≤ ch.len + 1) :
    rxStep cfg b ch = some { ch := { ch with st := .idle, buf := [] }, frames := [], events := [.overflow cfg.maxFrame] } := by
  obtain ⟨-, -, -, -, selected, -⟩ := everyByteHasExactlyOneOutcome cfg { ch with buf := ch.buf ++ [b] }
  have length := len_append_byte ch b
  have filled : ch.len + 1 = cfg.maxFrame := by omega
  rw [rxStep_of_lt b room, selected.mpr ⟨noHdr, receiving, noFtr, by omega⟩]
  simp [outcomeStep, overflowStep, StreamChannel.clear, length, filled]

theorem rxStep_accum (notFull : ch.len + 1 < cfg.maxFrame) :
    rxStep cfg b ch = some (quiet { ch with buf := ch.buf ++ [b] }) := by
  obtain ⟨-, -, -, -, -, selected⟩ := everyByteHasExactlyOneOutcome cfg { ch with buf := ch.buf ++ [b] }
  have length := len_append_byte ch b
  rw [rxStep_of_lt b room, selected.mpr ⟨noHdr, receiving, noFtr, by omega⟩]
  rfl

end Rows

/-- One byte alone in Idle waits. -/
theorem rxStep_of_idle_nil {cfg : Config} {ch : StreamChannel} (hw : cfg.wf = true) (idle : ch.st = .idle) (empty : ch.buf = [])
    (b : Byte) : rxStep cfg b ch = some (quiet { ch with buf := [b] }) := by
  have room : ch.len < cfg.maxFrame := len_lt_of_inv hw (inv_of_idle_nil idle empty)
  have noHdr : ¬ [cfg.h0, cfg.h1] <:+ ch.buf ++ [b] := by
    rw [empty, ← last2_eq_some_iff]
    nofun
  simpa [empty] using rxStep_idleHold room noHdr idle (by simp [StreamChannel.len, empty])

/-! ### Markers received as wire symbols -/

theorem execRxseq_of_run {c : Nat} {s : State} {ch : StreamChannel} {w : ByteSeq} {e : ChannelStep}
    (hc : s.channels[c]? = some (.stream ch)) (ran : run s.cfg ch w = some e) : execRxseq c w s = .next (commit c e s) := by
  rw [execRxseq_eq_run hc, ran]

/-- A marker symbol is the receipt of its two bytes on the served channel, written once (R81, R82). -/
theorem exec_symbol_of_two_rxSteps {s : State} {ch : StreamChannel} {i : Instr} {x y : Byte} {e e' : ChannelStep}
    (hi : i.isSymbol = true) (bytes : encode s.cfg i = [x, y]) (hc : s.channels[s.served]? = some (.stream ch))
    (first : rxStep s.cfg x ch = some e) (second : rxStep s.cfg y e.ch = some e') :
    exec i s = .next (commit s.served (e.followedBy e') s) := by
  rw [exec_symbol_eq_execRxseq hi, bytes]
  exact execRxseq_of_run hc (by simp [run_cons, first, second])

/-- Settles O33: `H0` ends no marker, so it waits, is dropped, is accumulated or overflows; then `H1` completes the header unless the
buffer was emptied. -/
theorem headerSymbolIsFoundOrLostByPhase : Obligations.HeaderSymbolIsFoundOrLostByPhase := by
  intro s ch hw hc inv
  obtain ⟨-, -, -, -, -, h1h0, -, f1h0, -⟩ := (wf_iff s.cfg).mp hw
  have room : ch.len < s.cfg.maxFrame := len_lt_of_inv hw inv
  have noHdr : ¬ [s.cfg.h0, s.cfg.h1] <:+ ch.buf ++ [s.cfg.h0] := not_pair_suffix_of_ne h1h0.symm _
  have noFtr : ¬ [s.cfg.f0, s.cfg.f1] <:+ ch.buf ++ [s.cfg.h0] := not_pair_suffix_of_ne f1h0.symm _
  have hdr : [s.cfg.h0, s.cfg.h1] <:+ ch.buf ++ [s.cfg.h0] ++ [s.cfg.h1] := pair_suffix_iff.mpr ⟨rfl, rfl⟩
  have symbol {e e' : ChannelStep} (first : rxStep s.cfg s.cfg.h0 ch = some e) (second : rxStep s.cfg s.cfg.h1 e.ch = some e') :
      exec .hdr s = .next (commit s.served (e.followedBy e') s) := exec_symbol_of_two_rxSteps rfl rfl hc first second
  refine ⟨fun idle hl => ?_, fun idle hl => ?_, fun receiving hl => ?_, fun receiving hl => ?_⟩
  · have held := rxStep_idleHold room noHdr idle hl
    have room' := len_lt_of_inv hw (rxStep_keeps_inv hw inv held)
    rw [symbol held (rxStep_hdrMatch room' hdr)]
    simp [commit_eq, hdrMatchStep, StreamChannel.keepHeader, Config.hdrBytes, idle]
  · have waits := rxStep_of_idle_nil (ch := { ch with buf := [] }) hw idle rfl s.cfg.h1
    rw [symbol (rxStep_idleDiscard room noHdr idle hl) waits]
    simp [commit_eq, idle]
  · have accumulated := rxStep_accum room noHdr noFtr receiving hl
    have room' := len_lt_of_inv hw (rxStep_keeps_inv hw inv accumulated)
    rw [symbol accumulated (rxStep_hdrMatch room' hdr)]
    simp [commit_eq, hdrMatchStep, StreamChannel.keepHeader, Config.hdrBytes, receiving, StreamChannel.len]
  · have waits := rxStep_of_idle_nil (ch := { ch with st := .idle, buf := [] }) hw rfl rfl s.cfg.h1
    rw [symbol (rxStep_overflow room noHdr noFtr receiving hl) waits]
    simp [commit_eq]

/-- Settles O34: `F0` ends no marker, so it is accumulated, overflows, waits or is dropped; then `F1` completes the footer, which ends
the frame in Receiving only. -/
theorem footerSymbolEndsTheFrame : Obligations.FooterSymbolEndsTheFrame := by
  intro s ch hw hc inv
  obtain ⟨-, -, -, -, pairs, -, h1f0, -, f1f0, -⟩ := (wf_iff s.cfg).mp hw
  have room : ch.len < s.cfg.maxFrame := len_lt_of_inv hw inv
  have noHdr : ¬ [s.cfg.h0, s.cfg.h1] <:+ ch.buf ++ [s.cfg.f0] := not_pair_suffix_of_ne h1f0.symm _
  have noFtr : ¬ [s.cfg.f0, s.cfg.f1] <:+ ch.buf ++ [s.cfg.f0] := not_pair_suffix_of_ne f1f0.symm _
  have ftr : [s.cfg.f0, s.cfg.f1] <:+ ch.buf ++ [s.cfg.f0] ++ [s.cfg.f1] := pair_suffix_iff.mpr ⟨rfl, rfl⟩
  have noHdr' : ¬ [s.cfg.h0, s.cfg.h1] <:+ ch.buf ++ [s.cfg.f0] ++ [s.cfg.f1] := fun h =>
    pairs (Prod.ext (pair_suffix_iff.mp h).1 (pair_suffix_iff.mp h).2)
  have symbol {e e' : ChannelStep} (first : rxStep s.cfg s.cfg.f0 ch = some e) (second : rxStep s.cfg s.cfg.f1 e.ch = some e') :
      exec .ftr s = .next (commit s.served (e.followedBy e') s) := exec_symbol_of_two_rxSteps rfl rfl hc first second
  refine ⟨fun receiving hl => ?_, fun receiving hl => ?_, fun idle hl => ?_, fun idle hl => ?_, fun idle hl => ?_⟩
  · have accumulated := rxStep_accum room noHdr noFtr receiving hl
    have room' := len_lt_of_inv hw (rxStep_keeps_inv hw inv accumulated)
    rw [symbol accumulated (rxStep_frameDone room' noHdr' receiving ftr)]
    simp [commit_eq, frameDoneStep, enterDispatch, returnFromDispatch, StreamChannel.clear]
  · have waits := rxStep_of_idle_nil (ch := { ch with st := .idle, buf := [] }) hw rfl rfl s.cfg.f1
    rw [symbol (rxStep_overflow room noHdr noFtr receiving hl) waits]
    simp [commit_eq]
  · have held := rxStep_idleHold room noHdr idle (by omega)
    have room' := len_lt_of_inv hw (rxStep_keeps_inv hw inv held)
    have length := len_append_byte ch s.cfg.f0
    have empty : ch.buf = [] := List.eq_nil_of_length_eq_zero hl
    rw [symbol held (rxStep_idleHold room' noHdr' idle (length.trans_le (by omega)))]
    simp [commit_eq, empty, idle]
  · have held := rxStep_idleHold room noHdr idle (by omega)
    have room' := len_lt_of_inv hw (rxStep_keeps_inv hw inv held)
    have length := len_append_byte ch s.cfg.f0
    rw [symbol held (rxStep_idleDiscard room' noHdr' idle (length.trans (by omega)))]
    simp [commit_eq, idle]
  · have waits := rxStep_of_idle_nil (ch := { ch with buf := [] }) hw idle rfl s.cfg.f1
    rw [symbol (rxStep_idleDiscard room noHdr idle hl) waits]
    simp [commit_eq, idle]

/-! ### The shape of a dispatched frame (R157) -/

/-- A footer that ends the operand of DECODE ends the result: neither of its bytes is the escape byte (P1). -/
theorem decode_append_pair {cfg : Config} {x y : Byte} (hx : x ≠ cfg.esc) (hy : y ≠ cfg.esc) (u : ByteSeq) :
    ∃ v, Codec.decode cfg (u ++ [x, y]) = v ++ [x, y] := by
  have pair : Codec.decode cfg [x, y] = [x, y] := by simp [Codec.decode, hx, hy]
  induction u using Codec.decode.induct cfg with
  | case1 => exact ⟨[], pair⟩
  | case2 => exact ⟨[], by simp [Codec.decode, hy]⟩
  | case3 b hb => exact ⟨[b], by rw [List.singleton_append, Codec.decode_cons cfg hb, pair]⟩
  | case4 b rest ih =>
    obtain ⟨v, hv⟩ := ih
    exact ⟨b :: v, by simp [hv]⟩
  | case5 b b' rest hb ih =>
    obtain ⟨v, hv⟩ := ih
    exact ⟨b :: v, by rw [List.cons_append, Codec.decode_cons cfg hb, hv]; rfl⟩

theorem isFrame_of_delimited {cfg : Config} {p : ByteSeq} (h : (cfg.hdrBytes ++ p ++ cfg.ftrBytes).length ≤ cfg.maxFrame) :
    isFrame cfg (cfg.hdrBytes ++ p ++ cfg.ftrBytes) = true := by
  simp [isFrame, Config.hdrBytes, Config.ftrBytes] at h ⊢
  omega

/-- DECODE keeps the delimiters of a buffer and does not lengthen it, so a delimited buffer that fits is a frame. -/
theorem isFrame_decode {cfg : Config} (hw : cfg.wf = true) {p : ByteSeq}
    (h : (cfg.hdrBytes ++ p ++ cfg.ftrBytes).length ≤ cfg.maxFrame) :
    isFrame cfg (Codec.decode cfg (cfg.hdrBytes ++ p ++ cfg.ftrBytes)) = true := by
  obtain ⟨e0, e1, e2, e3, -⟩ := (wf_iff cfg).mp hw
  have noEsc : cfg.esc ∉ cfg.hdrBytes := by simp [Config.hdrBytes, e0, e1]
  obtain ⟨q, hq⟩ : ∃ q, Codec.decode cfg (p ++ cfg.ftrBytes) = q ++ cfg.ftrBytes := decode_append_pair e2.symm e3.symm p
  have shape : Codec.decode cfg (cfg.hdrBytes ++ p ++ cfg.ftrBytes) = cfg.hdrBytes ++ q ++ cfg.ftrBytes := by
    rw [List.append_assoc, Codec.decode_append_of_notMem cfg noEsc, hq, List.append_assoc]
  have shorter := Codec.length_decode_le cfg (cfg.hdrBytes ++ p ++ cfg.ftrBytes)
  rw [shape] at shorter ⊢
  exact isFrame_of_delimited (shorter.trans h)

/-- A buffer that a footer completes is delimited: the footer's two bytes are not the header's last and the first after it (P3). -/
theorem delimited_of_footer {cfg : Config} {ch : StreamChannel} {b : Byte} (hw : cfg.wf = true) (inv : ch.ReceivingInv cfg)
    (ftr : [cfg.f0, cfg.f1] <:+ ch.buf ++ [b]) : ∃ p, ch.buf ++ [b] = cfg.hdrBytes ++ p ++ cfg.ftrBytes := by
  obtain ⟨-, -, -, -, -, -, h1f0, -⟩ := (wf_iff cfg).mp hw
  obtain ⟨-, -, hdr, -⟩ := inv
  have whole : ch.buf ++ [b] = cfg.hdrBytes ++ (ch.buf.drop 2 ++ [b]) := by
    rw [← List.append_assoc, ← hdr, List.take_append_drop]
  rw [whole] at ftr ⊢
  match hr : ch.buf.drop 2 with
  | [] =>
    rw [hr] at ftr
    exact absurd (pair_suffix_iff (u := [cfg.h0]) (a := cfg.h1) |>.mp ftr).1.symm h1f0
  | x :: r =>
    rw [hr] at ftr
    obtain ⟨p, hp⟩ : [cfg.f0, cfg.f1] <:+ x :: r ++ [b] :=
      List.suffix_of_suffix_length_le ftr (List.suffix_append _ _) (by simp)
    exact ⟨p, by rw [← hp, List.append_assoc]; rfl⟩

/-- Every frame that RXBYTE dispatches from a channel within R24 has the shape of R157. -/
theorem isFrame_of_rxStep {cfg : Config} {ch : StreamChannel} {b : Byte} {e : ChannelStep} (hw : cfg.wf = true) (inv : ch.Inv cfg)
    (he : rxStep cfg b ch = some e) : ∀ f ∈ e.frames, isFrame cfg f = true := by
  have room : ch.len < cfg.maxFrame := len_lt_of_inv hw inv
  rw [rxStep_of_lt b room] at he
  cases he
  rcases selectOutcome_cases cfg { ch with buf := ch.buf ++ [b] } with ⟨ho, -⟩ | ⟨ho, -⟩ | ⟨ho, -⟩ | ⟨ho, -, hs, ftr⟩ | ⟨ho, -⟩
    | ⟨ho, -⟩ <;> rw [ho]
  case inr.inr.inr.inl =>
    obtain ⟨p, hp⟩ := delimited_of_footer hw (inv.2 hs) (last2_eq_some_iff.mp ftr)
    have fits : (ch.buf ++ [b]).length ≤ cfg.maxFrame := (len_append_byte ch b).trans_le room
    intro f hf
    obtain rfl : f = Codec.decode cfg (ch.buf ++ [b]) := List.mem_singleton.mp hf
    rw [hp] at fits ⊢
    exact isFrame_decode hw fits
  all_goals exact nofun

/-- A run from a channel within R24 goes to the end, leaves the queue, keeps R24 and dispatches frames of the shape of R157 (R152). -/
theorem run_of_inv {cfg : Config} {ch : StreamChannel} (hw : cfg.wf = true) (inv : ch.Inv cfg) (w : ByteSeq) :
    ∃ e, run cfg ch w = some e ∧ e.ch.Inv cfg ∧ e.ch.rxq = ch.rxq ∧ ∀ f ∈ e.frames, isFrame cfg f = true := by
  induction w generalizing ch with
  | nil => exact ⟨quiet ch, rfl, inv, rfl, nofun⟩
  | cons b w ih =>
    obtain ⟨e, he⟩ := rxStep_isSome_of_inv b hw inv
    obtain ⟨e', he', inv', rxq, frames⟩ := ih (rxStep_keeps_inv hw inv he)
    refine ⟨e.followedBy e', by simp [run_cons, he, he'], inv', rxq.trans (rxStep_rxq he), fun f hf => ?_⟩
    rcases List.mem_append.mp hf with hf | hf
    · exact isFrame_of_rxStep hw inv he f hf
    · exact frames f hf

/-- Settles O32: RXSEQ and every symbol is the run over its bytes. -/
theorem rxseqAndSymbolsRunTheirBytes : Obligations.RxseqAndSymbolsRunTheirBytes := by
  intro s c w ch i hw hc inv hi
  have received : exec i s = execRxseq c w s := by
    rcases hi with rfl | ⟨rfl, ⟨rfl, rfl⟩ | ⟨rfl, rfl⟩ | ⟨rfl, rfl⟩ | ⟨b, rfl, rfl⟩⟩
    · rfl
    all_goals exact exec_symbol_eq_execRxseq rfl s
  obtain ⟨e, he, inv', rxq, frames⟩ := run_of_inv hw inv w
  refine ⟨e, he, ?_, inv', rxq, frames⟩
  rw [received, execRxseq_of_run hc he, commit_eq]

end Machine
end Sys2Proof
end

section
/-! PROOFS of the statements about programs: the text of a program stepped through, and each channel's own lines. -/

namespace Sys2Proof
namespace Machine

/-! ### No instruction reads the text of the program -/

/-- The state with the text `text` of lines not yet performed. -/
def State.withScript (text : ByteSeq) (s : State) : State := { s with script := text }

/-- An operation that neither reads nor writes the text of the program. -/
def ScriptBlind (f : State → Answer) : Prop :=
  ∀ text s, f (s.withScript text) = andThen (f s) (fun t => .next (t.withScript text))

section WithScript
variable (text : ByteSeq) (s : State) (c : Nat)

@[simp] theorem withScript_cfg : (s.withScript text).cfg = s.cfg := rfl
@[simp] theorem withScript_channels : (s.withScript text).channels = s.channels := rfl
@[simp] theorem withScript_script : (s.withScript text).script = text := rfl
@[simp] theorem withScript_served : (s.withScript text).served = s.served := rfl
@[simp] theorem withScript_polling : (s.withScript text).polling = s.polling := rfl

@[simp] theorem give_withScript (r : Result) : give r (s.withScript text) = (give r s).withScript text := rfl
@[simp] theorem setChannel_withScript (x : Channel) : setChannel c x (s.withScript text) = (setChannel c x s).withScript text := rfl
@[simp] theorem dispatch_withScript (f : ByteSeq) : dispatch c f (s.withScript text) = (dispatch c f s).withScript text := rfl

@[simp] theorem commit_withScript (e : ChannelStep) : commit c e (s.withScript text) = (commit c e s).withScript text := by
  simp [commit_eq, State.withScript]

@[simp] theorem receiveDatagram_withScript (d : ByteSeq) :
    receiveDatagram c d (s.withScript text) = (receiveDatagram c d s).withScript text := by
  unfold receiveDatagram
  rw [withScript_cfg]
  split <;> rfl

theorem foldl_receiveDatagram_withScript (ds : List ByteSeq) :
    ds.foldl (fun t d => receiveDatagram c d t) (s.withScript text)
      = (ds.foldl (fun t d => receiveDatagram c d t) s).withScript text := by
  induction ds generalizing s with
  | nil => rfl
  | cons d ds ih => simp [ih]

end WithScript

theorem onStream_scriptBlind (c : Nat) (f : Config → StreamChannel → Option ChannelStep) :
    ScriptBlind (fun s => onStream c (f s.cfg) s) := by
  intro text s
  match hc : s.channels[c]? with
  | none => simp [onStream, hc]
  | some (.datagram dc) => simp [onStream, hc]
  | some (.stream ch) => cases hf : f s.cfg ch <;> simp [onStream, hc, hf]

theorem receive_scriptBlind (c : Nat) (b : Byte) : ScriptBlind (receive c b) := onStream_scriptBlind c (rxStep · b)

theorem execRxseq_scriptBlind (c : Nat) (w : ByteSeq) : ScriptBlind (execRxseq c w) := by
  induction w with
  | nil => exact fun _ _ => rfl
  | cons b w ih =>
    intro text s
    rw [execRxseq_cons, execRxseq_cons, receive_scriptBlind, andThen_assoc, andThen_assoc]
    congr 1
    funext t
    exact ih text t

theorem execPoll_scriptBlind (c : Nat) : ScriptBlind (execPoll c) := by
  intro text s
  match hc : s.channels[c]? with
  | none => simp [execPoll, hc]
  | some (.datagram dc) =>
    have handled (t : State) := foldl_receiveDatagram_withScript text { t with served := c } c
      (dc.pending.take (Config.datagramsPerPoll c dc.draws))
    simp only [execPoll, withScript_channels, hc]
    exact congrArg (fun t => Host.Outcome.next (give _ t)) (handled (setChannel c (.datagram _) s))
  | some (.stream ch) =>
    cases hb : burstStep s.cfg s.cfg.burstCap ch with
    | none => simp [execPoll, pollStream, hc, hb]
    | some r =>
      simp only [execPoll, pollStream, withScript_channels, withScript_cfg, hc, hb, commit_withScript]
      rfl

/-- No instruction reads or writes the text of the program. -/
theorem exec_scriptBlind (i : Instr) : ScriptBlind (exec i) := by
  intro text s
  cases i with
  | hdr => exact execRxseq_scriptBlind s.served s.cfg.hdrBytes text s
  | ftr => exact execRxseq_scriptBlind s.served s.cfg.ftrBytes text s
  | esc => exact receive_scriptBlind s.served s.cfg.esc text s
  | literal b => exact receive_scriptBlind s.served b text s
  | esclen p => rfl
  | encode p => rfl
  | decode b => rfl
  | txframe p => rfl
  | rxbyte c b => exact receive_scriptBlind c b text s
  | rxbyteAppend c b => exact onStream_scriptBlind c (appendStep · b) text s
  | rxbyteHdrMatch c => exact onStream_scriptBlind c (fun cfg ch => some (armStep cfg .hdrMatch ch)) text s
  | rxbyteIdleDiscard c => exact onStream_scriptBlind c (fun cfg ch => some (armStep cfg .idleDiscard ch)) text s
  | rxbyteIdleHold c => exact onStream_scriptBlind c (fun cfg ch => some (armStep cfg .idleHold ch)) text s
  | rxbyteFrameDone c => exact onStream_scriptBlind c (fun cfg ch => some (armStep cfg .frameDone ch)) text s
  | rxbyteOverflow c => exact onStream_scriptBlind c (fun cfg ch => some (armStep cfg .overflow ch)) text s
  | rxbyteAccum c => exact onStream_scriptBlind c (fun cfg ch => some (armStep cfg .accum ch)) text s
  | poll c => exact execPoll_scriptBlind c text s
  | rxdgram c d => rcases hc : s.channels[c]? with _ | _ | _ <;> simp [exec, execRxdgram, hc]
  | reset c => rcases hc : s.channels[c]? with _ | _ | _ <;> simp [exec, execReset, hc]
  | dispatch c f => rcases hc : s.channels[c]? with _ | _ | _ <;> simp [exec, execDispatch, hc]
  | rxseq c bs => exact execRxseq_scriptBlind c bs text s
  | arrive c bs => rcases hc : s.channels[c]? with _ | _ | _ <;> simp [exec, execArrive, hc]

/-! ### Lines one after another -/

@[simp] theorem runLines_nil (s : State) : runLines [] s = .next s := rfl

/-- A program by structure: its first line, then the others. -/
theorem runLines_cons (i : Instr) (prog : List Instr) (s : State) : runLines (i :: prog) s = andThen (exec i s) (runLines prog) := by
  unfold runLines
  rw [List.foldl_cons, foldl_andThen]
  rfl

theorem channels_ne_nil_of_kinds {s t : State} (h : t.kinds = s.kinds) (hc : s.channels ≠ []) : t.channels ≠ [] := by
  have hl : t.channels.length = s.channels.length := by simpa [State.kinds] using congrArg List.length h
  exact List.length_pos_iff.mp (hl ▸ List.length_pos_iff.mpr hc)

theorem isSymbol_of_isProgramLine {i : Instr} (h : i.isProgramLine = true) : i.isSymbol = false := by
  cases i <;> cases h <;> rfl

/-- Settles O9: a step reads one line and performs it, which is done alike whatever text stands behind it. -/
theorem steppingThroughAProgramPerformsItsLines : Obligations.SteppingThroughAProgramPerformsItsLines := by
  intro s prog rest hw hc hp lines text
  change _ = runLines prog (s.withScript rest)
  induction prog generalizing s with
  | nil =>
    have same : s = s.withScript rest := by rw [← show s.script = rest from text]; rfl
    exact congrArg Host.Outcome.next same
  | cons i prog ih =>
    have line : i.isProgramLine = true := lines i (by simp)
    let behind := programText s.cfg prog ++ rest
    have decoded : decodeLine s.script = .ok (i, behind) := by
      rw [text, programText, List.flatMap_cons, List.append_assoc]
      exact linesDecodeWhatTheyEncode s.cfg i _ (isSymbol_of_isProgramLine line)
    have stepped : step s = exec i (s.withScript behind) := step_of_decodeLine hw hc hp decoded line
    rw [List.length_cons, core_run_succ, runLines_cons, stepped, exec_scriptBlind i behind, exec_scriptBlind i rest]
    cases performed : exec i s with
    | fault r => rfl
    | refused r => rfl
    | next t =>
      obtain ⟨_, _, _, _, w⟩ := exec_wrote performed
      exact ih (t.withScript behind) (by simpa [w.cfg] using hw) (channels_ne_nil_of_kinds w.kinds hc) (w.polling.trans hp)
        (fun j hj => lines j (by simp [hj])) (by simp [behind, w.cfg])

end Machine
end Sys2Proof
end

section
/-! PROOFS of the statement about the channels of a program: each channel does what its own lines do, and a stream channel runs over the
bytes it consumed. -/

namespace Sys2Proof
namespace Machine

/-! ### What a line leaves of a channel it does not name -/

theorem Wrote.framesOf_own {s t : State} {c : Nat} {y : Option Channel} {fs : List ByteSeq} {es : List Event}
    (w : Wrote c y fs es s t) : t.framesOf c = s.framesOf c ++ fs := by
  simp [State.framesOf, w.frames, List.filter_map, Function.comp_def]

theorem framesOf_eq_of_frames_eq {s t : State} (h : t.frames = s.frames) (c : Nat) : t.framesOf c = s.framesOf c := by
  rw [State.framesOf, h, State.framesOf]

/-- A line that names another channel, or none, leaves channel `c` and its frames as they were (R34). -/
theorem exec_other_line {i : Instr} {s t : State} {c : Nat} (hi : i.isProgramLine = true) (hc : i.channel? ≠ some c)
    (h : exec i s = .next t) : Agree c s t ∧ t.framesOf c = s.framesOf c := by
  obtain ⟨named, -, codec⟩ := channelsDoNotShareState s t i h
  have cfg : t.cfg = s.cfg := (constantsNeverChange s t i (.inl h)).1
  cases hd : i.channel? with
  | some d =>
    obtain ⟨channel, frames⟩ := named d c hd (fun e => hc (e ▸ hd))
    exact ⟨⟨cfg, channel⟩, frames⟩
  | none =>
    obtain ⟨channels, frames, -⟩ := codec hd (isSymbol_of_isProgramLine hi)
    exact ⟨⟨cfg, by rw [channels]⟩, framesOf_eq_of_frames_eq frames c⟩

/-! ### The lines of one channel alone -/

/-- From states that agree on channel `c`, a program and its lines of channel `c` alone do the same to that channel (R34, R215). -/
theorem runLines_filter_channel {s s' t : State} {c : Nat} {prog : List Instr} (lines : ∀ i ∈ prog, i.isProgramLine = true)
    (agree : Agree c s s') (frames : s'.framesOf c = s.framesOf c) (h : runLines prog s = .next t) :
    ∃ t', runLines (prog.filter (fun i => i.channel? = some c)) s' = .next t'
      ∧ t'.channels[c]? = t.channels[c]? ∧ t'.framesOf c = t.framesOf c := by
  induction prog generalizing s s' with
  | nil =>
    cases h
    exact ⟨s', rfl, agree.2, frames⟩
  | cons i prog ih =>
    have lines' : ∀ j ∈ prog, j.isProgramLine = true := fun j hj => lines j (by simp [hj])
    rw [runLines_cons] at h
    obtain ⟨u, hu, ht⟩ := andThen_eq_next.mp h
    by_cases hi : i.channel? = some c
    · obtain ⟨y, fs, es, same⟩ := exec_localAt hi s u hu
      obtain ⟨u₀, hu₀, w⟩ := same s ⟨rfl, rfl⟩
      cases hu.symm.trans hu₀
      obtain ⟨u', hu', w'⟩ := same s' agree
      have agree' : Agree c u u' := ⟨w'.cfg.trans (agree.1.trans w.cfg.symm), w'.own.trans w.own.symm⟩
      obtain ⟨t', ht', own⟩ := ih lines' agree' (by rw [w'.framesOf_own, w.framesOf_own, frames]) ht
      refine ⟨t', ?_, own⟩
      rw [List.filter_cons_of_pos (by simpa using hi), runLines_cons, hu', andThen_next, ht']
    · obtain ⟨left, leftFrames⟩ := exec_other_line (lines i (by simp)) hi hu
      rw [List.filter_cons_of_neg (by simpa using hi)]
      exact ih lines' ⟨agree.1.trans left.1.symm, agree.2.trans left.2.symm⟩ (frames.trans leftFrames.symm) ht

/-! ### Runs and bursts with a queue -/

/-- A run does not depend on the pending queue. -/
theorem run_with_rxq (cfg : Config) (ch : StreamChannel) (w q : ByteSeq) :
    run cfg { ch with rxq := q } w = (run cfg ch w).map (fun e => { e with ch := { e.ch with rxq := q } }) := by
  induction w generalizing ch with
  | nil => rfl
  | cons b w ih =>
    rw [run_cons, run_cons, rxStep_with_rxq]
    cases rxStep cfg b ch with
    | none => rfl
    | some e =>
      simp only [Option.map_some, Option.bind_some, ih, Option.map_map]
      rfl

theorem run_rxq {cfg : Config} {ch : StreamChannel} {w : ByteSeq} {e : ChannelStep} (h : run cfg ch w = some e) :
    e.ch.rxq = ch.rxq := by
  have same := run_with_rxq cfg ch w ch.rxq
  rw [h, Option.map_some, Option.some_inj] at same
  exact congrArg (fun e : ChannelStep => e.ch.rxq) same

/-- A burst is the run over the bytes it takes, with the others left in the queue (R150). -/
theorem burstStep_eq_run (cfg : Config) (k : Nat) (ch : StreamChannel) :
    burstStep cfg k ch
      = (run cfg { ch with rxq := ch.rxq.drop k } (ch.rxq.take k)).map (fun e => (e, (ch.rxq.take k).length)) := by
  have cut : ch.rxq.drop (ch.rxq.take k).length = ch.rxq.drop k := by
    rw [List.length_take]
    rcases Nat.le_total k ch.rxq.length with h | h
    · rw [Nat.min_eq_left h]
    · rw [Nat.min_eq_right h, List.drop_length, List.drop_eq_nil_of_le h]
  have taken := burstStep_of_take (ch := ch) (b := { left := k, taken := 0 }) (v := ch.rxq.take k) (rest := []) (by simp) cfg
  rw [cut] at taken
  rw [taken]
  cases hr : run cfg { ch with rxq := ch.rxq.drop k } (ch.rxq.take k) with
  | none => rfl
  | some e =>
    have nothingLeft : e.ch.rxq.take (k - (ch.rxq.take k).length) = [] := by
      rw [run_rxq hr, List.length_take]
      simp only [List.take_eq_nil_iff, List.drop_eq_nil_iff]
      omega
    simp only [Option.bind_some, burstStep_of_take_nil nothingLeft, Option.map_some, followedBy_quiet, Nat.zero_add]

/-! ### A stream channel runs over the bytes it consumes (R151) -/

/-- From `s` to `t` the stream channel `c`, which is `ch` at `s`, received the bytes `w` one after another, and has `q` pending after. -/
def RanOver (c : Nat) (ch : StreamChannel) (w q : ByteSeq) (s t : State) : Prop :=
  ∃ e, run s.cfg { ch with rxq := [] } w = some e ∧ t.channels[c]? = some (.stream { e.ch with rxq := q })
    ∧ t.framesOf c = s.framesOf c ++ e.frames

section RanOver
variable {s t : State} {c : Nat} {ch : StreamChannel} {w q : ByteSeq}

theorem ranOver_nil (channel : t.channels[c]? = some (.stream { ch with rxq := q })) (frames : t.framesOf c = s.framesOf c) :
    RanOver c ch [] q s t :=
  ⟨quiet { ch with rxq := [] }, rfl, channel, by simp [frames]⟩

/-- The bytes `w`, then the bytes `v`, are the bytes `w ++ v` (R151). -/
theorem RanOver.trans {u : State} {v p : ByteSeq} (first : RanOver c ch w q s u) (cfg : u.cfg = s.cfg)
    (second : ∀ x : StreamChannel, u.channels[c]? = some (.stream x) → x.rxq = q → RanOver c x v p u t) :
    RanOver c ch (w ++ v) p s t := by
  obtain ⟨e, ran, channel, frames⟩ := first
  obtain ⟨e', ran', channel', frames'⟩ := second _ channel rfl
  have emptied : ({ e.ch with rxq := [] } : StreamChannel) = e.ch := by rw [← show e.ch.rxq = [] from run_rxq ran]
  change run u.cfg { e.ch with rxq := [] } v = some e' at ran'
  rw [cfg, emptied] at ran'
  refine ⟨e.followedBy e', ?_, channel', by rw [frames', frames, List.append_assoc]; rfl⟩
  rw [run_append, ran, Option.bind_some, ran', Option.map_some]

/-- What a run with the queue `q` pending writes. -/
theorem ranOver_of_commit (hc : s.channels[c]? = some (.stream ch)) {e : ChannelStep} (ran : run s.cfg { ch with rxq := q } w = some e)
    (channels : t.channels = (commit c e s).channels) (frames : t.frames = (commit c e s).frames) : RanOver c ch w q s t := by
  have queue : e.ch.rxq = q := run_rxq ran
  have swap := run_with_rxq s.cfg { ch with rxq := q } w []
  rw [ran] at swap
  refine ⟨_, swap, ?_, ?_⟩
  · rw [channels, commit_channel e hc]
    subst queue
    rfl
  · rw [framesOf_eq_of_frames_eq frames, (wrote_commit hc e).framesOf_own]

theorem exec_rxseq_ranOver (hc : s.channels[c]? = some (.stream ch)) (h : exec (.rxseq c w) s = .next t) :
    RanOver c ch w ch.rxq s t := by
  change execRxseq c w s = .next t at h
  rw [execRxseq_eq_run hc] at h
  cases ran : run s.cfg ch w with
  | none => simp [ran] at h
  | some e =>
    obtain rfl : commit c e s = t := by simpa [ran] using h
    exact ranOver_of_commit hc ran rfl rfl

theorem exec_poll_ranOver (hc : s.channels[c]? = some (.stream ch)) (h : exec (.poll c) s = .next t) :
    RanOver c ch (ch.rxq.take s.cfg.burstCap) (ch.rxq.drop s.cfg.burstCap) s t := by
  simp only [exec, execPoll, hc, pollStream, burstStep_eq_run] at h
  cases ran : run s.cfg { ch with rxq := ch.rxq.drop s.cfg.burstCap } (ch.rxq.take s.cfg.burstCap) with
  | none => simp [ran] at h
  | some e =>
    rw [ran] at h
    cases h
    exact ranOver_of_commit hc ran rfl rfl

theorem exec_arrive_ranOver (hc : s.channels[c]? = some (.stream ch)) (h : exec (.arrive c w) s = .next t) :
    RanOver c ch [] (ch.rxq ++ w) s t := by
  rw [(arriveAppendsToTheQueue s c w).1 ch hc] at h
  cases h
  have bound : c < s.channels.length := (List.getElem?_eq_some_iff.mp hc).1
  exact ranOver_nil (by simp [bound]) rfl

/-- A line that does not name a channel moves none of its bytes. -/
theorem lineConsumes_of_channel_ne {i : Instr} (h : i.channel? ≠ some c) (cap : Nat) (q : ByteSeq) :
    lineConsumes cap c q i = ([], q) := by
  cases i
  case rxbyte d b => exact if_neg fun e => h (congrArg some e)
  case rxseq d bs => exact if_neg fun e => h (congrArg some e)
  case arrive d bs => exact if_neg fun e => h (congrArg some e)
  case poll d => exact if_neg fun e => h (congrArg some e)
  all_goals rfl

theorem lineBytesFor_of_channel_ne {i : Instr} (h : i.channel? ≠ some c) : lineBytesFor c i = [] := by
  cases i
  case rxbyte d b => exact if_neg fun e => h (congrArg some e)
  case rxseq d bs => exact if_neg fun e => h (congrArg some e)
  case arrive d bs => exact if_neg fun e => h (congrArg some e)
  all_goals rfl

/-- One line of R93 is the run over the bytes it consumes of channel `c`. -/
theorem exec_line_ranOver {i : Instr} (hi : i.isProgramLine = true) (hc : s.channels[c]? = some (.stream ch))
    (kinds : i.channel? = some c → i = .poll c ∨ (∃ w, i = .arrive c w) ∨ (∃ b, i = .rxbyte c b) ∨ (∃ w, i = .rxseq c w))
    (h : exec i s = .next t) :
    RanOver c ch (lineConsumes s.cfg.burstCap c ch.rxq i).1 (lineConsumes s.cfg.burstCap c ch.rxq i).2 s t := by
  by_cases own : i.channel? = some c
  · rcases kinds own with rfl | ⟨w, rfl⟩ | ⟨b, rfl⟩ | ⟨w, rfl⟩
    · simpa [lineConsumes] using exec_poll_ranOver hc h
    · simpa [lineConsumes] using exec_arrive_ranOver hc h
    · simpa [lineConsumes] using exec_rxseq_ranOver (w := [b]) hc h
    · simpa [lineConsumes] using exec_rxseq_ranOver hc h
  · obtain ⟨agree, frames⟩ := exec_other_line hi own h
    rw [lineConsumes_of_channel_ne own]
    exact ranOver_nil (agree.2.trans hc) frames

end RanOver

/-- A program that completes is, for a stream channel, the run over the bytes it consumes (R93, R151). -/
theorem runLines_ranOver {s t : State} {c : Nat} {ch : StreamChannel} {prog : List Instr}
    (lines : ∀ i ∈ prog, i.isProgramLine = true) (hc : s.channels[c]? = some (.stream ch))
    (kinds : ∀ i ∈ prog, i.channel? = some c →
      i = .poll c ∨ (∃ w, i = .arrive c w) ∨ (∃ b, i = .rxbyte c b) ∨ (∃ w, i = .rxseq c w))
    (h : runLines prog s = .next t) :
    RanOver c ch (consumed s.cfg.burstCap c ch.rxq prog).1 (consumed s.cfg.burstCap c ch.rxq prog).2 s t := by
  induction prog generalizing s ch with
  | nil =>
    cases h
    exact ranOver_nil hc rfl
  | cons i prog ih =>
    rw [runLines_cons] at h
    obtain ⟨u, hu, ht⟩ := andThen_eq_next.mp h
    have cfg : u.cfg = s.cfg := (constantsNeverChange s u i (.inl hu)).1
    simp only [consumed]
    refine (exec_line_ranOver (lines i (by simp)) hc (kinds i (by simp)) hu).trans cfg fun x hx queue => ?_
    rw [← queue, ← cfg]
    exact ih (fun j hj => lines j (by simp [hj])) hx (fun j hj => kinds j (by simp [hj])) ht

/-- Where a channel gets its bytes by RXBYTE and RXSEQ only, it consumes the concatenation of their operands (R94). -/
theorem consumed_of_received {c : Nat} {prog : List Instr}
    (kinds : ∀ i ∈ prog, i.channel? = some c → (∃ b, i = .rxbyte c b) ∨ (∃ w, i = .rxseq c w)) (cap : Nat) (q : ByteSeq) :
    consumed cap c q prog = (programBytes c prog, q) := by
  induction prog with
  | nil => rfl
  | cons i prog ih =>
    have line : lineConsumes cap c q i = (lineBytesFor c i, q) := by
      by_cases own : i.channel? = some c
      · rcases kinds i (by simp) own with ⟨b, rfl⟩ | ⟨w, rfl⟩ <;> simp [lineConsumes, lineBytesFor]
      · rw [lineConsumes_of_channel_ne own, lineBytesFor_of_channel_ne own]
    rw [consumed, line, ih fun j hj => kinds j (by simp [hj])]
    rfl

/-- Settles O39: the projection of a program onto a channel, and the run over the bytes it consumes. -/
theorem programRunsEachChannelOverItsBytes : Obligations.ProgramRunsEachChannelOverItsBytes :=
  fun s _ _ _ lines h =>
    ⟨runLines_filter_channel lines ⟨rfl, rfl⟩ rfl h, fun _ hc kinds => runLines_ranOver lines hc kinds h,
      fun kinds q => consumed_of_received kinds s.cfg.burstCap q⟩

end Machine
end Sys2Proof
end

section
/-! PROOFS of the statements about the codec: each is an induction over the operand, by the equations of ENCODE, ESCLEN and DECODE. -/

namespace Sys2Proof
namespace Machine

/-! ### What the codec operations give (R110 to R113) -/

theorem exec_esclen (p : ByteSeq) (s : State) :
    exec (.esclen p) s = .next { s with results := s.results ++ [.length (Codec.escLen s.cfg p)] } := rfl

theorem exec_encode (p : ByteSeq) (s : State) :
    exec (.encode p) s = .next { s with results := s.results ++ [.bytes (Codec.encode s.cfg p)] } := rfl

theorem exec_decode (b : ByteSeq) (s : State) :
    exec (.decode b) s
      = .next { s with results := s.results ++ [.decoded (Codec.decode s.cfg b).length (Codec.decode s.cfg b)] } := rfl

theorem exec_txframe (p : ByteSeq) (s : State) :
    exec (.txframe p) s = .next { s with
      results := s.results ++ [.bytes ([s.cfg.h0, s.cfg.h1] ++ Codec.encode s.cfg p ++ [s.cfg.f0, s.cfg.f1])] } := rfl

/-- Settles O11: the fold of ESCLEN is a count. -/
theorem esclenCountsTheTriggers : Obligations.EsclenCountsTheTriggers := by
  intro p s
  rw [exec_esclen, Codec.escLen_eq_count]

/-- Settles O12: the fold of ENCODE is a flat map over the indices. -/
theorem encodeEscapesEachTriggerOnce : Obligations.EncodeEscapesEachTriggerOnce := by
  intro p s
  refine ⟨Codec.encode s.cfg p, exec_encode p s, ?_, ?_⟩
  · rw [Codec.encode_eq_flatMap]
    congr 1
    funext i
    unfold Codec.encodeAt
    split <;> rfl
  · rw [exec_esclen, Codec.length_encode]

/-- Settles O13, by the equations of DECODE. -/
theorem decodeDropsEachOpenEscape : Obligations.DecodeDropsEachOpenEscape :=
  fun s => ⟨Codec.decode s.cfg, fun b => exec_decode b s, Codec.decode_nil s.cfg, Codec.decode_esc_nil s.cfg,
    Codec.decode_esc_cons s.cfg, fun _ rest hx => Codec.decode_cons s.cfg hx rest⟩

/-- Settles O14: the two markers are four bytes beside what ENCODE gives. -/
theorem txframeWrapsTheEscapedPayload : Obligations.TxframeWrapsTheEscapedPayload := by
  intro p s
  refine ⟨Codec.encode s.cfg p, exec_encode p s, exec_txframe p s, ?_⟩
  rw [exec_esclen, ← Codec.length_encode]
  simp

namespace Codec

/-! ### DECODE of what ENCODE gives, and of data without an escape byte -/

/-- R114: DECODE drops the escape byte that ENCODE put before a byte, and copies the byte that got none. -/
theorem decode_encode (cfg : Config) (p : ByteSeq) : decode cfg (encode cfg p) = p := by
  induction p with
  | nil => rfl
  | cons x p ih =>
    rw [encode_cons]
    cases trigger : needsEsc cfg (x :: p) 0 with
    | true => exact (decode_esc_cons cfg x (encode cfg p)).trans (by rw [ih])
    | false => exact (decode_cons cfg (ne_esc_of_not_needsEsc cfg trigger) (encode cfg p)).trans (by rw [ih])

theorem decode_of_notMem {cfg : Config} {p : ByteSeq} (h : cfg.esc ∉ p) : decode cfg p = p := by
  simpa using decode_append_of_notMem cfg h []

/-- Settles O15, by the round trip of the two functions. -/
theorem decodeUndoesEncode : Obligations.DecodeUndoesEncode :=
  fun x s => ⟨encode s.cfg x, exec_encode x s, by rw [exec_decode, decode_encode]⟩

/-- Settles O16; the two counter-examples are computed. -/
theorem decodeIsIdentityWithoutEscapes : Obligations.DecodeIsIdentityWithoutEscapes :=
  ⟨fun x s h => by rw [exec_decode, decode_of_notMem h], by decide, by decide⟩

/-! ### The trigger of the first byte (R86) -/

/-- The first byte triggers when it is the escape byte, or the first of a marker whose second byte comes next. -/
theorem needsEsc_cons_zero_iff {cfg : Config} {x : Byte} {p : ByteSeq} :
    needsEsc cfg (x :: p) 0 = true ↔
      x = cfg.esc ∨ (x = cfg.h0 ∧ p.head? = some cfg.h1) ∨ (x = cfg.f0 ∧ p.head? = some cfg.f1) := by
  cases p with
  | nil => simp [needsEsc]
  | cons y r => simp [needsEsc, pairAt_cons_zero, Config.hdr, Config.ftr]

/-! ### Lengths (R117) -/

theorem length_le_escLen (cfg : Config) (p : ByteSeq) : p.length ≤ escLen cfg p := by
  rw [escLen_eq_count]
  exact Nat.le_add_right _ _

theorem escLen_le (cfg : Config) (p : ByteSeq) : escLen cfg p ≤ 2 * p.length := by
  have triggers : (List.range p.length).countP (needsEsc cfg p) ≤ (List.range p.length).length := List.countP_le_length
  rw [List.length_range] at triggers
  rw [escLen_eq_count]
  omega

/-- Where every byte after the first is the escape byte, the first triggers only if it is one too: no marker has it second (P1). -/
theorem needsEsc_cons_zero_of_all_esc {cfg : Config} (hw : cfg.wf = true) {x : Byte} {p : ByteSeq} (hp : ∀ b ∈ p, b = cfg.esc) :
    needsEsc cfg (x :: p) 0 = true ↔ x = cfg.esc := by
  obtain ⟨-, e1, -, e3, -⟩ := (wf_iff cfg).mp hw
  have notNext {y : Byte} (hy : cfg.esc ≠ y) : p.head? ≠ some y :=
    fun h => hy (hp y (List.mem_of_mem_head? h)).symm
  simp [needsEsc_cons_zero_iff, notNext e1, notNext e3]

theorem escLen_eq_two_mul_iff {cfg : Config} (hw : cfg.wf = true) (p : ByteSeq) :
    escLen cfg p = 2 * p.length ↔ ∀ b ∈ p, b = cfg.esc := by
  induction p with
  | nil => simp
  | cons x p ih =>
    have bound := escLen_le cfg p
    have whole : escLen cfg (x :: p) = 2 * (x :: p).length
        ↔ needsEsc cfg (x :: p) 0 = true ∧ escLen cfg p = 2 * p.length := by
      rw [escLen_cons, List.length_cons]
      cases needsEsc cfg (x :: p) 0 with
      | true => simp only [if_true, true_and]; omega
      | false => simp only [Bool.false_eq_true, if_false, false_and, iff_false]; omega
    rw [whole, ih, List.forall_mem_cons]
    exact and_congr_left fun hp => needsEsc_cons_zero_of_all_esc hw hp

/-- DECODE drops at most one byte of every two. -/
theorem length_le_two_mul_decode (cfg : Config) (b : ByteSeq) : b.length ≤ 2 * (decode cfg b).length + 1 := by
  induction b using decode.induct cfg with
  | case1 => simp
  | case2 => simp
  | case3 x hx => simp
  | case4 x rest ih =>
    rw [decode_esc_cons]
    simp only [List.length_cons]
    omega
  | case5 b x rest hb ih =>
    rw [decode_cons cfg hb]
    simp only [List.length_cons] at ih ⊢
    omega

/-- Settles O17: the bounds, each proved above. -/
theorem codecLengthsAreBounded : Obligations.CodecLengthsAreBounded := by
  intro cfg p hw
  have atLeastHalf := length_le_two_mul_decode cfg p
  exact ⟨length_le_escLen cfg p, escLen_le cfg p, escLen_eq_two_mul_iff hw p, by omega, length_decode_le cfg p⟩

/-! ### The streaming forms (R118) -/

/-- One byte of look-ahead decides the trigger. -/
theorem encodeStream_cons (cfg : Config) (x : Byte) (p : ByteSeq) :
    encodeStream cfg (x :: p) = (if needsEsc cfg (x :: p) 0 then [cfg.esc, x] else [x]) ++ encodeStream cfg p := by
  simp only [needsEsc_cons_zero_iff]
  cases p with
  | nil => simp [encodeStream]
  | cons y r =>
    simp only [encodeStream, Config.hdr, Config.ftr, Prod.mk.injEq, List.head?_cons, Option.some_inj]
    split <;> rfl

theorem encodeStream_eq_encode (cfg : Config) (p : ByteSeq) : encodeStream cfg p = encode cfg p := by
  induction p with
  | nil => rfl
  | cons x p ih => rw [encodeStream_cons, encode_cons, ih]

@[simp] theorem decodeStream_open_cons (cfg : Config) (x : Byte) (b : ByteSeq) :
    decodeStream cfg true (x :: b) = x :: decodeStream cfg false b := rfl

@[simp] theorem decodeStream_esc_cons (cfg : Config) (b : ByteSeq) :
    decodeStream cfg false (cfg.esc :: b) = decodeStream cfg true b := by
  simp [decodeStream, decodeStreamByte]

theorem decodeStream_cons {cfg : Config} {x : Byte} (h : x ≠ cfg.esc) (b : ByteSeq) :
    decodeStream cfg false (x :: b) = x :: decodeStream cfg false b := by
  simp [decodeStream, decodeStreamByte, h]

/-- The bit is set exactly between an escape byte that DECODE drops and the byte it copies after it. -/
theorem decodeStream_eq_decode (cfg : Config) (b : ByteSeq) : decodeStream cfg false b = decode cfg b := by
  induction b using decode.induct cfg with
  | case1 => rfl
  | case2 => rw [decodeStream_esc_cons, decode_esc_nil]; rfl
  | case3 x hx => rw [decodeStream_cons hx, decode_cons cfg hx]; rfl
  | case4 x rest ih => rw [decodeStream_esc_cons, decodeStream_open_cons, decode_esc_cons, ih]
  | case5 b x rest hb ih => rw [decodeStream_cons hb, decode_cons cfg hb, ih]

/-- Settles O18, both forms by induction. -/
theorem streamingFormsComputeTheCodec : Obligations.StreamingFormsComputeTheCodec :=
  fun cfg p => ⟨encodeStream_eq_encode cfg p, decodeStream_eq_decode cfg p⟩

/-! ### Marker pairs of the escaped payload (R119) -/

theorem markerFree_cons {cfg : Config} {x : Byte} {p : ByteSeq} :
    MarkerFree cfg (x :: p) ↔
      (¬(x = cfg.h0 ∧ p.head? = some cfg.h1) ∧ ¬(x = cfg.f0 ∧ p.head? = some cfg.f1)) ∧ MarkerFree cfg p := by
  rw [markerFree_iff, markerFree_iff, ← Nat.and_forall_add_one]
  simp only [pairAt_cons_succ, ne_eq, Config.hdr, Config.ftr, pairAt_eq_some_iff (i := 0)]
  simp [List.head?_eq_getElem?]

/-- An escape byte in front begins no marker (P1). -/
theorem markerFree_esc_cons {cfg : Config} (hw : cfg.wf = true) (p : ByteSeq) :
    MarkerFree cfg (cfg.esc :: p) ↔ MarkerFree cfg p := by
  obtain ⟨e0, -, e2, -⟩ := (wf_iff cfg).mp hw
  simp [markerFree_cons, e0, e2]

/-- A byte that never triggers comes first in the output exactly when it does in the payload. By P1 and P3 the second byte of a
marker is one. -/
theorem head?_encode_eq_some_iff {cfg : Config} {y : Byte} (he : cfg.esc ≠ y) (hh : y ≠ cfg.h0) (hf : y ≠ cfg.f0) (p : ByteSeq) :
    (encode cfg p).head? = some y ↔ p.head? = some y := by
  cases p with
  | nil => rfl
  | cons x p =>
    rw [encode_cons]
    cases trigger : needsEsc cfg (x :: p) 0 with
    | false => rfl
    | true =>
      have notFirst : x ≠ y := by
        rintro rfl
        rcases needsEsc_cons_zero_iff.mp trigger with hx | ⟨hx, -⟩ | ⟨hx, -⟩
        · exact he hx.symm
        · exact hh hx
        · exact hf hx
      simp [he, notFirst]

/-- What ENCODE puts before a byte makes and breaks no marker: neither an escape byte before it, nor one before the next byte. -/
theorem markerFree_encode_cons {cfg : Config} (hw : cfg.wf = true) (x : Byte) (p : ByteSeq) :
    MarkerFree cfg (encode cfg (x :: p)) ↔ MarkerFree cfg (x :: encode cfg p) := by
  rw [encode_cons]
  split
  · exact markerFree_esc_cons hw (x :: encode cfg p)
  · rfl

theorem markerFree_encode_iff {cfg : Config} (hw : cfg.wf = true) (p : ByteSeq) :
    MarkerFree cfg (encode cfg p) ↔ MarkerFree cfg p := by
  obtain ⟨-, e1, -, e3, -, h1h0, h1f0, f1h0, f1f0, -⟩ := (wf_iff cfg).mp hw
  induction p with
  | nil => rfl
  | cons x p ih =>
    rw [markerFree_encode_cons hw, markerFree_cons, markerFree_cons, ih, head?_encode_eq_some_iff e1 h1h0 h1f0,
      head?_encode_eq_some_iff e3 f1h0 f1f0]

/-- Settles O20, by induction on the payload. -/
theorem encodeKeepsMarkerPairs : Obligations.EncodeKeepsMarkerPairs :=
  fun _ p hw => markerFree_encode_iff hw p

end Codec
end Machine
end Sys2Proof
end

section
/-! PROOFS of the statement about dispatched frames: whatever a step runs, the frames that it adds to the trace have the shape of
41_reassembler.md R157. -/

namespace Sys2Proof
namespace Machine

/-! ### What an operation adds to the trace -/

/-- The trace of `t` is the trace of `s` and then frames of the shape of R157, each of a channel that exists. -/
def AddsFrames (s t : State) : Prop :=
  ∃ fs, t.frames = s.frames ++ fs ∧ ∀ f ∈ fs, isFrame s.cfg f.2 = true ∧ f.1 < s.channels.length

theorem addsFrames_of_same {s t : State} (h : t.frames = s.frames) : AddsFrames s t :=
  ⟨[], by simp [h], nofun⟩

/-- Frames of one channel that exists. -/
theorem addsFrames_of_channel {s t : State} {c : Nat} {x : Channel} {fs : List ByteSeq} (hc : s.channels[c]? = some x)
    (h : t.frames = s.frames ++ fs.map (fun f => (c, f))) (shape : ∀ f ∈ fs, isFrame s.cfg f = true) : AddsFrames s t := by
  refine ⟨_, h, fun g hg => ?_⟩
  obtain ⟨f, hf, rfl⟩ := List.mem_map.mp hg
  exact ⟨shape f hf, (List.getElem?_eq_some_iff.mp hc).1⟩

/-- Everything that RXSEQ can answer as a next state: the empty sequence changes nothing, any other is a run on a stream channel. -/
theorem execRxseq_eq_next {c : Nat} {w : ByteSeq} {s t : State} (h : execRxseq c w s = .next t) :
    t = s ∨ ∃ ch e, s.channels[c]? = some (.stream ch) ∧ run s.cfg ch w = some e ∧ t = commit c e s := by
  cases w with
  | nil =>
    cases h
    exact .inl rfl
  | cons b w =>
    have first := h
    rw [execRxseq_cons] at first
    obtain ⟨u, received, -⟩ := andThen_eq_next.mp first
    obtain ⟨ch, -, hc, -⟩ := onStream_eq_next.mp received
    rw [execRxseq_eq_run hc] at h
    split at h
    · cases h
    · rename_i e ran
      cases h
      exact .inr ⟨ch, e, hc, ran, rfl⟩

theorem execRxseq_addsFrames {c : Nat} {w : ByteSeq} {s t : State} (inv : s.Inv) (h : execRxseq c w s = .next t) :
    AddsFrames s t := by
  rcases execRxseq_eq_next h with rfl | ⟨ch, e, hc, ran, rfl⟩
  · exact addsFrames_of_same rfl
  · obtain ⟨e', ran', -, -, shape⟩ := run_of_inv inv.cfgWf (inv.stream hc) w
    cases ran.symm.trans ran'
    exact addsFrames_of_channel hc (by rw [commit_eq]) shape

/-! ### Datagrams -/

/-- The four tests of R180 on a datagram, the last of them on its last two bytes. -/
theorem datagramAccepted_iff {cfg : Config} {d : ByteSeq} :
    datagramAccepted cfg d = true ↔ 4 ≤ d.length ∧ d.length ≤ cfg.maxFrame ∧ pairAt d 0 = some cfg.hdr ∧ last2 d = some cfg.ftr := by
  simp only [datagramAccepted, Bool.and_eq_true, Bool.not_eq_true', decide_eq_false_iff_not, beq_iff_eq, Nat.not_lt, and_assoc]
  refine and_congr_right fun long => ?_
  rw [last2, if_pos (by omega)]

/-- An accepted datagram is a delimited sequence. -/
theorem delimited_of_accepted {cfg : Config} {d : ByteSeq} (h : datagramAccepted cfg d = true) :
    ∃ p, d = cfg.hdrBytes ++ p ++ cfg.ftrBytes := by
  obtain ⟨long, -, hdr, ftr⟩ := datagramAccepted_iff.mp h
  match d with
  | x :: y :: r =>
    obtain ⟨rfl, rfl⟩ := Prod.mk.inj (Option.some.inj hdr)
    have tail : cfg.ftrBytes <:+ r :=
      List.suffix_of_suffix_length_le (last2_eq_some_iff.mp ftr) (List.suffix_append [cfg.h0, cfg.h1] r)
        (by simpa [Config.ftrBytes] using long)
    obtain ⟨p, rfl⟩ := tail
    exact ⟨p, by simp [Config.hdrBytes]⟩

theorem isFrame_of_accepted {cfg : Config} {d : ByteSeq} (hw : cfg.wf = true) (h : datagramAccepted cfg d = true) :
    isFrame cfg (Codec.decode cfg d) = true := by
  obtain ⟨-, fits, -⟩ := datagramAccepted_iff.mp h
  obtain ⟨p, rfl⟩ := delimited_of_accepted h
  exact isFrame_decode hw fits

/-- A list of datagrams dispatches frames of its channel, each of the shape of R157. -/
theorem foldl_receiveDatagram_frames {s : State} (hw : s.cfg.wf = true) (c : Nat) (ds : List ByteSeq) :
    ∃ fs : List ByteSeq, (ds.foldl (fun t d => receiveDatagram c d t) s).frames = s.frames ++ fs.map (fun f => (c, f))
      ∧ ∀ f ∈ fs, isFrame s.cfg f = true := by
  induction ds generalizing s with
  | nil => exact ⟨[], by simp, nofun⟩
  | cons d ds ih =>
    obtain ⟨fs, later, shape⟩ := ih (s := receiveDatagram c d s) (by simpa using hw)
    rw [receiveDatagram_cfg] at shape
    rw [List.foldl_cons, later]
    rcases receiveDatagram_cases c d s with ⟨accepted, hr⟩ | ⟨-, hr⟩
    · refine ⟨Codec.decode s.cfg d :: fs, by simp [hr], ?_⟩
      exact List.forall_mem_cons.mpr ⟨isFrame_of_accepted hw accepted, shape⟩
    · exact ⟨fs, by simp [hr], shape⟩

/-! ### Polls, lines and symbols -/

theorem execPoll_addsFrames {c : Nat} {s t : State} (inv : s.Inv) (h : execPoll c s = .next t) : AddsFrames s t := by
  unfold execPoll at h
  split at h
  · cases h
  · rename_i dc hc
    cases h
    obtain ⟨fs, frames, shape⟩ := foldl_receiveDatagram_frames (s := { setChannel c (.datagram _) s with served := c }) inv.cfgWf c
      (dc.pending.take (Config.datagramsPerPoll c dc.draws))
    exact addsFrames_of_channel hc frames shape
  · rename_i ch hc
    obtain ⟨e, ran, -, -, shape⟩ := run_of_inv (ch := { ch with rxq := ch.rxq.drop s.cfg.burstCap }) inv.cfgWf (inv.stream hc :)
      (ch.rxq.take s.cfg.burstCap)
    rw [pollStream, burstStep_eq_run, ran] at h
    cases h
    exact addsFrames_of_channel hc (congrArg State.frames (commit_eq c e s)) shape

theorem execRxdgram_addsFrames {c : Nat} {d : ByteSeq} {s t : State} (inv : s.Inv) (h : execRxdgram c d s = .next t) :
    AddsFrames s t := by
  unfold execRxdgram at h
  split at h <;> cases h
  rename_i dc hc
  obtain ⟨fs, frames, shape⟩ := foldl_receiveDatagram_frames inv.cfgWf c [d]
  exact addsFrames_of_channel hc frames shape

theorem execReset_frames {c : Nat} {s t : State} (h : execReset c s = .next t) : t.frames = s.frames := by
  unfold execReset at h
  split at h <;> cases h <;> rfl

theorem execArrive_frames {c : Nat} {bs : ByteSeq} {s t : State} (h : execArrive c bs s = .next t) : t.frames = s.frames := by
  unfold execArrive at h
  split at h <;> cases h <;> rfl

/-- Every line of a program; DISPATCH on its own, which is no line, adds what it is given. -/
theorem exec_line_addsFrames {i : Instr} (hi : i.isProgramLine = true) {s t : State} (inv : s.Inv) (h : exec i s = .next t) :
    AddsFrames s t := by
  cases i <;> cases hi
  case esclen p => cases h; exact addsFrames_of_same rfl
  case encode p => cases h; exact addsFrames_of_same rfl
  case decode b => cases h; exact addsFrames_of_same rfl
  case txframe p => cases h; exact addsFrames_of_same rfl
  case rxbyte c b => exact execRxseq_addsFrames (w := [b]) inv h
  case poll c => exact execPoll_addsFrames inv h
  case rxdgram c d => exact execRxdgram_addsFrames inv h
  case reset c => exact addsFrames_of_same (execReset_frames h)
  case rxseq c bs => exact execRxseq_addsFrames inv h
  case arrive c bs => exact addsFrames_of_same (execArrive_frames h)

theorem exec_symbol_addsFrames {i : Instr} (hi : i.isSymbol = true) {s t : State} (inv : s.Inv) (h : exec i s = .next t) :
    AddsFrames s t := by
  rw [exec_symbol_eq_execRxseq hi] at h
  exact execRxseq_addsFrames inv h

/-- Settles O49: what is fetched is a symbol, a POLL or a line, at a state that meets the invariant and has the same trace. -/
theorem everyDispatchedFrameHasTheFrameShape : Obligations.EveryDispatchedFrameHasTheFrameShape := by
  intro s t inv h
  obtain ⟨-, -, ⟨i, u, hf, hu⟩ | hf⟩ := step_eq_next h
  · rcases fetch_eq_run hf with ⟨rest, hi, rfl⟩ | ⟨rfl, rfl⟩ | ⟨b, ch, n, hp, hc, hn, hi, rfl⟩
    · exact exec_line_addsFrames (s := { s with script := rest }) hi (inv.of_same rfl rfl rfl) hu
    · exact execPoll_addsFrames (s := { s with polling := none }) (inv.setPolling none nofun) hu
    · obtain ⟨fs, frames, shape⟩ := exec_symbol_addsFrames hi (takeBytes_keeps_inv inv hp hc hn) hu
      exact ⟨fs, frames, by simpa [takeBytes] using shape⟩
  · rcases fetch_eq_still hf with rfl | ⟨b, rfl⟩ <;> exact addsFrames_of_same rfl

end Machine
end Sys2Proof
end

section
/-! PROOFS of the statements about RXBYTE: each row on its own, the table of transitions, and the rows evaluated in turn; and a step
that has nothing to decode. -/

namespace Sys2Proof
namespace Machine

/-- Settles O6: an empty window ends the POLL, and an empty text is no line. -/
theorem stepWithNothingToDecode : Obligations.StepWithNothingToDecode := by
  intro s hw
  refine ⟨fun b ch hp hc noByte => step_of_no_byte hw hp hc ?_, fun hc hp text => ?_⟩
  · rcases noByte with h | h <;> simp [h]
  · have hf : fetch s = .still s := by simp [fetch, fetchLine, hp, text, decodeLine]
    simp [step_eq_answer, hf, Fetched.answer, hw, hc]

/-! ### What each outcome writes (R142 to R147) -/

section Outcomes
variable (s : State) (c : Nat) {ch : StreamChannel}

theorem commit_hdrMatch_of_idle (idle : ch.st = .idle) :
    commit c (outcomeStep s.cfg .hdrMatch ch) s = { s with
      channels := s.channels.set c (.stream { ch with st := .receiving, buf := [s.cfg.h0, s.cfg.h1] })
      events := s.events ++ [(c, .frameStart)] } := by
  simp [commit_eq, outcomeStep, hdrMatchStep, StreamChannel.keepHeader, Config.hdrBytes, idle]

theorem commit_hdrMatch_of_receiving (receiving : ch.st = .receiving) :
    commit c (outcomeStep s.cfg .hdrMatch ch) s = { s with
      channels := s.channels.set c (.stream { ch with st := .receiving, buf := [s.cfg.h0, s.cfg.h1] })
      events := s.events ++ [(c, .resync (ch.len - 2))] } := by
  simp [commit_eq, outcomeStep, hdrMatchStep, StreamChannel.keepHeader, Config.hdrBytes, receiving]

theorem commit_idleDiscard :
    commit c (outcomeStep s.cfg .idleDiscard ch) s = { s with
      channels := s.channels.set c (.stream { ch with buf := [] })
      events := s.events ++ [(c, .idleDiscard ch.len)] } := by
  simp [commit_eq, outcomeStep, idleDiscardStep, StreamChannel.clear]

theorem commit_frameDone :
    commit c (outcomeStep s.cfg .frameDone ch) s = { s with
      channels := s.channels.set c (.stream { ch with st := .idle, buf := [] })
      frames := s.frames ++ [(c, Codec.decode s.cfg ch.buf)]
      events := s.events ++ [(c, .frameDone (Codec.decode s.cfg ch.buf))] } := by
  simp [commit_eq, outcomeStep, frameDoneStep, enterDispatch, returnFromDispatch, StreamChannel.clear]

theorem commit_overflow :
    commit c (outcomeStep s.cfg .overflow ch) s = { s with
      channels := s.channels.set c (.stream { ch with st := .idle, buf := [] })
      events := s.events ++ [(c, .overflow ch.len)] } := by
  simp [commit_eq, outcomeStep, overflowStep, StreamChannel.clear]

/-- The hold and the accumulate rows write the channel as it is. -/
theorem commit_quiet_eq : commit c (quiet ch) s = { s with channels := s.channels.set c (.stream ch) } := by
  simp [commit_eq]

end Outcomes

/-! ### The rows on their own (R141 to R147) -/

/-- The row of the opcode table that performs an outcome. -/
def rowOf (c : Nat) : RxOutcome → Instr
  | .hdrMatch => .rxbyteHdrMatch c
  | .idleDiscard => .rxbyteIdleDiscard c
  | .idleHold => .rxbyteIdleHold c
  | .frameDone => .rxbyteFrameDone c
  | .overflow => .rxbyteOverflow c
  | .accum => .rxbyteAccum c

theorem armStep_of_selected {cfg : Config} {o : RxOutcome} {ch : StreamChannel} (h : selectOutcome cfg ch = o) :
    armStep cfg o ch = outcomeStep cfg o ch := if_pos h

theorem armStep_of_unselected {cfg : Config} {o : RxOutcome} {ch : StreamChannel} (h : selectOutcome cfg ch ≠ o) :
    armStep cfg o ch = quiet ch := if_neg h

section Rows
variable {s : State} {c : Nat} {ch : StreamChannel} (hc : s.channels[c]? = some (.stream ch))
include hc

theorem exec_rowOf (o : RxOutcome) : exec (rowOf c o) s = .next (commit c (armStep s.cfg o ch) s) := by
  have row : exec (rowOf c o) s = onStream c (fun ch => some (armStep s.cfg o ch)) s := by cases o <;> rfl
  rw [row, onStream_of_some hc rfl]

theorem exec_row_of_selected {o : RxOutcome} (h : selectOutcome s.cfg ch = o) :
    exec (rowOf c o) s = .next (commit c (outcomeStep s.cfg o ch) s) := by
  rw [exec_rowOf hc, armStep_of_selected h]

theorem exec_row_of_unselected {o : RxOutcome} (h : selectOutcome s.cfg ch ≠ o) : exec (rowOf c o) s = .next s := by
  rw [exec_rowOf hc, armStep_of_unselected h, commit_quiet hc]

/-- A row whose outcome does nothing changes nothing, selected or not. -/
theorem exec_row_of_quiet {o : RxOutcome} (h : outcomeStep s.cfg o ch = quiet ch) : exec (rowOf c o) s = .next s := by
  by_cases selected : selectOutcome s.cfg ch = o
  · rw [exec_row_of_selected hc selected, h, commit_quiet hc]
  · exact exec_row_of_unselected hc selected

theorem exec_rxbyteAppend_of_lt (b : Byte) (room : ch.len < s.cfg.maxFrame) :
    exec (.rxbyteAppend c b) s = .next (commit c (quiet { ch with buf := ch.buf ++ [b] }) s) :=
  onStream_of_some hc (by simp [appendStep, append_of_lt b room])

theorem exec_rxbyteAppend_of_le (b : Byte) (full : s.cfg.maxFrame ≤ ch.len) :
    exec (.rxbyteAppend c b) s = .fault (.bufferOverrun c) := by
  simp [exec, execRxbyteAppend, onStream_stream hc, appendStep, append_of_le b full]

theorem exec_rxbyte_of_lt {b : Byte} (room : ch.len < s.cfg.maxFrame) {o : RxOutcome}
    (h : selectOutcome s.cfg { ch with buf := ch.buf ++ [b] } = o) :
    exec (.rxbyte c b) s = .next (commit c (outcomeStep s.cfg o { ch with buf := ch.buf ++ [b] }) s) :=
  onStream_of_some hc (by rw [rxStep_of_lt b room, h])

theorem exec_rxbyte_of_le (b : Byte) (full : s.cfg.maxFrame ≤ ch.len) : exec (.rxbyte c b) s = .fault (.bufferOverrun c) := by
  simp [exec, execRxbyte, receive, onStream_stream hc, rxStep_of_le b full]

end Rows

/-- Settles O22, by what the append can do. -/
theorem appendStoresTheByteAtLen : Obligations.AppendStoresTheByteAtLen := by
  refine fun s c b ch hc => ⟨fun room => ?_, exec_rxbyteAppend_of_le hc b⟩
  rw [exec_rxbyteAppend_of_lt hc b room, commit_quiet_eq]

/-- Settles O23: the header check is selected whatever `st` is, and the label depends on `st`. -/
theorem headerCheckStartsOrRestartsAFrame : Obligations.HeaderCheckStartsOrRestartsAFrame := by
  intro s c ch hc
  obtain ⟨selected, -⟩ := everyByteHasExactlyOneOutcome s.cfg ch
  refine ⟨fun hdr idle => ?_, fun hdr receiving => ?_⟩
  · rw [← commit_hdrMatch_of_idle s c idle]
    exact exec_row_of_selected hc (selected.mpr hdr)
  · rw [← commit_hdrMatch_of_receiving s c receiving]
    exact exec_row_of_selected hc (selected.mpr hdr)

/-- Settles O24: each condition under which a row keeps the state denies that its outcome is selected. -/
theorem idleDiscardEmptiesAndUnselectedRowsKeep : Obligations.IdleDiscardEmptiesAndUnselectedRowsKeep := by
  intro s c ch hc
  obtain ⟨hdrMatch, idleDiscard, -, frameDone, overflow, -⟩ := everyByteHasExactlyOneOutcome s.cfg ch
  refine ⟨fun noHdr idle long => ?_, fun h => exec_row_of_unselected hc (o := .idleDiscard) ?_,
    exec_row_of_quiet hc (o := .idleHold) rfl, exec_row_of_quiet hc (o := .accum) rfl,
    fun noHdr => exec_row_of_unselected hc (o := .hdrMatch) (noHdr ∘ hdrMatch.mp),
    fun h => exec_row_of_unselected hc (o := .frameDone) ?_, fun h => exec_row_of_unselected hc (o := .overflow) ?_⟩
  · rw [← commit_idleDiscard s c]
    exact exec_row_of_selected hc (idleDiscard.mpr ⟨noHdr, idle, long⟩)
  · rw [ne_eq, idleDiscard]
    rintro ⟨noHdr, idle, long⟩
    rcases h with hdr | receiving | short
    · exact noHdr hdr
    · cases idle.symm.trans receiving
    · omega
  · rw [ne_eq, frameDone]
    rintro ⟨noHdr, receiving, ftr⟩
    rcases h with hdr | idle | noFtr
    · exact noHdr hdr
    · cases idle.symm.trans receiving
    · exact noFtr ftr
  · rw [ne_eq, overflow]
    rintro ⟨noHdr, receiving, noFtr, full⟩
    rcases h with hdr | ftr | idle | short
    · exact noHdr hdr
    · exact noFtr ftr
    · cases idle.symm.trans receiving
    · omega

/-- Settles O25: the footer check is selected. -/
theorem frameDoneDispatchesTheDecodedBuffer : Obligations.FrameDoneDispatchesTheDecodedBuffer := by
  intro s c ch hc noHdr receiving ftr
  obtain ⟨-, -, -, selected, -⟩ := everyByteHasExactlyOneOutcome s.cfg ch
  rw [← commit_frameDone s c]
  exact exec_row_of_selected hc (selected.mpr ⟨noHdr, receiving, ftr⟩)

/-- Settles O26: the overflow is selected. -/
theorem overflowDropsTheFrame : Obligations.OverflowDropsTheFrame := by
  intro s c ch hc noHdr noFtr receiving full
  obtain ⟨-, -, -, -, selected, -⟩ := everyByteHasExactlyOneOutcome s.cfg ch
  rw [← commit_overflow s c]
  exact exec_row_of_selected hc (selected.mpr ⟨noHdr, receiving, noFtr, full⟩)

/-! ### The table of transitions (R140, R149) -/

/-- Settles O28: in each case of the table its outcome is selected, on the channel with the byte appended. -/
theorem receivedByteFollowsTheTransitionTable : Obligations.ReceivedByteFollowsTheTransitionTable := by
  intro s c b ch hc room
  have length := len_append_byte ch b
  obtain ⟨hdrMatch, idleDiscard, idleHold, frameDone, overflow, accum⟩ :=
    everyByteHasExactlyOneOutcome s.cfg { ch with buf := ch.buf ++ [b] }
  rw [length] at idleDiscard idleHold overflow accum
  refine ⟨fun hdr idle => ?_, fun hdr receiving => ?_, fun noHdr idle long => ?_, fun noHdr idle short => ?_,
    fun noHdr receiving ftr => ?_, fun noHdr receiving noFtr full => ?_, fun noHdr receiving noFtr notFull => ?_⟩
  · rw [exec_rxbyte_of_lt hc room (hdrMatch.mpr hdr), commit_hdrMatch_of_idle s c (ch := { ch with buf := ch.buf ++ [b] }) idle]
  · rw [exec_rxbyte_of_lt hc room (hdrMatch.mpr hdr),
      commit_hdrMatch_of_receiving s c (ch := { ch with buf := ch.buf ++ [b] }) receiving, length]
  · rw [exec_rxbyte_of_lt hc room (idleDiscard.mpr ⟨noHdr, idle, long⟩), commit_idleDiscard, length, idle]
  · rw [exec_rxbyte_of_lt hc room (idleHold.mpr ⟨noHdr, idle, short⟩), ← idle]
    exact congrArg Host.Outcome.next (commit_quiet_eq s c)
  · rw [exec_rxbyte_of_lt hc room (frameDone.mpr ⟨noHdr, receiving, ftr⟩), commit_frameDone]
  · rw [exec_rxbyte_of_lt hc room (overflow.mpr ⟨noHdr, receiving, noFtr, full⟩), commit_overflow, length]
  · rw [exec_rxbyte_of_lt hc room (accum.mpr ⟨noHdr, receiving, noFtr, notFull⟩), ← receiving]
    exact congrArg Host.Outcome.next (commit_quiet_eq s c)

/-! ### Rows one after another (R148) -/

/-- Checks one after another, each on the channel that the one before it left. -/
def inTurn (check : RxOutcome → StreamChannel → ChannelStep) : List RxOutcome → StreamChannel → ChannelStep
  | [], ch => quiet ch
  | o :: os, ch => (check o ch).followedBy (inTurn check os (check o ch).ch)

theorem checksInTurn_eq_inTurn (cfg : Config) (os : List RxOutcome) (ch : StreamChannel) :
    checksInTurn cfg os ch = inTurn (checkAlone cfg) os ch := by
  induction os generalizing ch with
  | nil => rfl
  | cons o os ih => rw [checksInTurn_cons, ih, inTurn]

/-- The rows of RXBYTE one after another are their arms one after another, written once. -/
theorem runLines_rows (os : List RxOutcome) {s : State} {c : Nat} {ch : StreamChannel} (hc : s.channels[c]? = some (.stream ch)) :
    runLines (os.map (rowOf c)) s = .next (commit c (inTurn (armStep s.cfg) os ch) s) := by
  induction os generalizing s ch with
  | nil => rw [inTurn, commit_quiet hc]; rfl
  | cons o os ih =>
    rw [List.map_cons, runLines_cons, exec_rowOf hc, andThen_next, ih (commit_channel _ hc), commit_cfg, commit_commit, inTurn]

section InTurn
variable {check : RxOutcome → StreamChannel → ChannelStep} {ch : StreamChannel}

theorem inTurn_of_quiet {os : List RxOutcome} (h : ∀ o ∈ os, check o ch = quiet ch) : inTurn check os ch = quiet ch := by
  induction os with
  | nil => rfl
  | cons o os ih => rw [inTurn, h o (by simp), quiet_followedBy, quiet_ch, ih fun p hp => h p (by simp [hp])]

/-- Where the check of one outcome acts, the checks before it do nothing and so do those after it on the channel it left, the checks in
turn do what that one does. The header check comes first or not at all. -/
theorem inTurn_eq_of_acts {selected : RxOutcome} {e : ChannelStep} (acts : check selected ch = e)
    (others : selected ≠ .hdrMatch → ∀ o ≠ selected, check o ch = quiet ch)
    (after : ∀ o ≠ .hdrMatch, check o e.ch = quiet e.ch) {os : List RxOutcome} (mem : selected ∈ os)
    (first : .hdrMatch ∉ os.tail) : inTurn check os ch = e := by
  induction os with
  | nil => cases mem
  | cons o os ih =>
    by_cases ho : o = selected
    · have rest : inTurn check os e.ch = quiet e.ch := inTurn_of_quiet fun p hp => after p fun hdr => first (hdr ▸ hp)
      rw [inTurn, ho, acts, rest, followedBy_quiet]
    · have later : selected ∈ os := (List.mem_cons.mp mem).resolve_left (Ne.symm ho)
      rw [inTurn, others (fun hdr => first (hdr ▸ later)) o ho, quiet_followedBy, quiet_ch]
      exact ih later fun h => first (List.mem_of_mem_tail h)

end InTurn

section Settled
variable {cfg : Config}

/-- The channel that the header check leaves. -/
def keptHeader (cfg : Config) (ch : StreamChannel) : StreamChannel := { ch with st := .receiving, buf := cfg.hdrBytes }

theorem selectOutcome_keptHeader (cfg : Config) (ch : StreamChannel) : selectOutcome cfg (keptHeader cfg ch) = .hdrMatch :=
  (everyByteHasExactlyOneOutcome cfg (keptHeader cfg ch)).1.mpr (List.suffix_refl cfg.hdrBytes)

/-- An empty Idle buffer waits. -/
theorem selectOutcome_of_idle_nil {ch : StreamChannel} (idle : ch.st = .idle) (empty : ch.buf = []) :
    selectOutcome cfg ch = .idleHold := by
  simp [selectOutcome, idle, empty, last2, StreamChannel.len]

/-- After its outcome a channel holds just a header, or is one where nothing more is to be done. -/
theorem settled_after_outcome (cfg : Config) (ch : StreamChannel) :
    (outcomeStep cfg (selectOutcome cfg ch) ch).ch = keptHeader cfg ch
    ∨ selectOutcome cfg (outcomeStep cfg (selectOutcome cfg ch) ch).ch = .idleHold
    ∨ selectOutcome cfg (outcomeStep cfg (selectOutcome cfg ch) ch).ch = .accum := by
  rcases selectOutcome_cases cfg ch with ⟨ho, -⟩ | ⟨ho, -, idle, -⟩ | ⟨ho, -⟩ | ⟨ho, -⟩ | ⟨ho, -⟩ | ⟨ho, -⟩ <;> rw [ho]
  · exact .inl rfl
  · exact .inr (.inl (selectOutcome_of_idle_nil idle rfl))
  · exact .inr (.inl ho)
  · exact .inr (.inl (selectOutcome_of_idle_nil rfl rfl))
  · exact .inr (.inl (selectOutcome_of_idle_nil rfl rfl))
  · exact .inr (.inr ho)

/-- Where the hold or the accumulate outcome is selected, no arm does anything. -/
theorem armStep_of_nothing_to_do {ch : StreamChannel} (h : selectOutcome cfg ch = .idleHold ∨ selectOutcome cfg ch = .accum)
    (o : RxOutcome) : armStep cfg o ch = quiet ch := by
  by_cases selected : selectOutcome cfg ch = o
  · rw [armStep_of_selected selected, ← selected]
    rcases h with h | h <;> rw [h] <;> rfl
  · exact armStep_of_unselected selected

theorem armStep_after_outcome (ch : StreamChannel) {o : RxOutcome} (ho : o ≠ .hdrMatch) :
    armStep cfg o (outcomeStep cfg (selectOutcome cfg ch) ch).ch = quiet (outcomeStep cfg (selectOutcome cfg ch) ch).ch := by
  rcases settled_after_outcome cfg ch with kept | done
  · rw [kept]
    exact armStep_of_unselected (selectOutcome_keptHeader cfg ch ▸ ho.symm)
  · exact armStep_of_nothing_to_do done o

/-- But for the header check, whose condition stands in no other, the six conditions exclude each other: where it fails, a check by its
own condition alone is the arm of the chain. -/
theorem checkAlone_eq_armStep {ch : StreamChannel} (h : selectOutcome cfg ch ≠ .hdrMatch) (o : RxOutcome) :
    checkAlone cfg o ch = armStep cfg o ch := by
  have own : ownCondition cfg ch o = true ↔ selectOutcome cfg ch = o := by
    rcases selectOutcome_cases cfg ch with ⟨hs, -⟩ | ⟨hs, noHdr, idle, hl⟩ | ⟨hs, noHdr, idle, hl⟩ | ⟨hs, noHdr, receiving, ftr⟩
      | ⟨hs, noHdr, receiving, noFtr, hl⟩ | ⟨hs, noHdr, receiving, noFtr, hl⟩ <;> rw [hs]
    · exact absurd hs h
    · cases o <;> simp [ownCondition, noHdr, idle, hl]
    · cases o <;> simp [ownCondition, noHdr, idle, hl]
    · have pairs : cfg.ftr ≠ cfg.hdr := by simpa [ftr] using noHdr
      cases o <;> simp [ownCondition, receiving, ftr, pairs]
    · cases o <;> simp [ownCondition, noHdr, receiving, noFtr, hl]
    · cases o <;> simp [ownCondition, noHdr, receiving, noFtr, hl]
  simp only [checkAlone, armStep, own]

/-- After the header check no later check does anything: the header is no footer (P2) and does not fill the buffer (P4). -/
theorem checkAlone_keptHeader (pairs : cfg.hdr ≠ cfg.ftr) (room : 4 ≤ cfg.maxFrame) (ch : StreamChannel) {o : RxOutcome}
    (ho : o ≠ .hdrMatch) : checkAlone cfg o (keptHeader cfg ch) = quiet (keptHeader cfg ch) := by
  have window : last2 (keptHeader cfg ch).buf = some cfg.hdr := rfl
  have length : (keptHeader cfg ch).len = 2 := rfl
  have receiving : (keptHeader cfg ch).st = .receiving := rfl
  cases o
  case hdrMatch => exact absurd rfl ho
  case idleDiscard => simp [checkAlone, ownCondition, receiving]
  case idleHold => simp [checkAlone, ownCondition, receiving]
  case frameDone => simp [checkAlone, ownCondition, window, pairs]
  case overflow =>
    have notFull : ¬ cfg.maxFrame ≤ 2 := by omega
    simp [checkAlone, ownCondition, length, notFull]
  case accum => exact ite_self _

theorem checkAlone_after_outcome (pairs : cfg.hdr ≠ cfg.ftr) (room : 4 ≤ cfg.maxFrame) (ch : StreamChannel) {o : RxOutcome}
    (ho : o ≠ .hdrMatch) :
    checkAlone cfg o (outcomeStep cfg (selectOutcome cfg ch) ch).ch = quiet (outcomeStep cfg (selectOutcome cfg ch) ch).ch := by
  rcases settled_after_outcome cfg ch with kept | done
  · rw [kept]
    exact checkAlone_keptHeader pairs room ch ho
  · have noHdr : selectOutcome cfg (outcomeStep cfg (selectOutcome cfg ch) ch).ch ≠ .hdrMatch := by
      rcases done with h | h <;> rw [h] <;> nofun
    rw [checkAlone_eq_armStep noHdr, armStep_of_nothing_to_do done]

end Settled

/-- The six outcomes in the order of R95. -/
def allOutcomes : List RxOutcome := [.hdrMatch, .idleDiscard, .idleHold, .frameDone, .overflow, .accum]

theorem mem_allOutcomes (o : RxOutcome) : o ∈ allOutcomes := by cases o <;> decide

theorem arms_in_turn (cfg : Config) (ch : StreamChannel) :
    inTurn (armStep cfg) allOutcomes ch = outcomeStep cfg (selectOutcome cfg ch) ch :=
  inTurn_eq_of_acts (armStep_of_selected rfl) (fun _ _ ho => armStep_of_unselected ho.symm)
    (fun _ ho => armStep_after_outcome ch ho) (mem_allOutcomes _) (by decide)

theorem checks_in_turn {cfg : Config} (pairs : cfg.hdr ≠ cfg.ftr) (room : 4 ≤ cfg.maxFrame) (ch : StreamChannel) :
    checksInTurn cfg allOutcomes ch = outcomeStep cfg (selectOutcome cfg ch) ch := by
  rw [checksInTurn_eq_inTurn]
  refine inTurn_eq_of_acts (if_pos (ownCondition_selectOutcome cfg ch)) (fun noHdr o ho => ?_)
    (fun _ ho => checkAlone_after_outcome pairs room ch ho) (mem_allOutcomes _) (by decide)
  rw [checkAlone_eq_armStep noHdr, armStep_of_unselected ho.symm]

/-- R148: the fall-through of the checks is the chain. -/
theorem fallThrough_eq_rxStep {cfg : Config} (pairs : cfg.hdr ≠ cfg.ftr) (room : 4 ≤ cfg.maxFrame) (b : Byte) :
    fallThrough cfg b = rxStep cfg b := by
  funext ch
  exact congrArg (Option.map · (ch.append cfg.maxFrame b)) (funext (checks_in_turn pairs room))

/-- Settles O29: of the rows in turn the selected one acts, and so it does of the checks in turn. -/
theorem fallThroughOfTheChecksGivesRxbyte : Obligations.FallThroughOfTheChecksGivesRxbyte := by
  refine fun s c b => ⟨?_, fun pairs room => ?_⟩
  · change _ = runLines (.rxbyteAppend c b :: allOutcomes.map (rowOf c)) s
    rw [runLines_cons]
    match hc : s.channels[c]? with
    | none =>
      have row : exec (.rxbyteAppend c b) s = .refused (.noSuchChannel c) := onStream_of_missing _ hc
      exact (onStream_of_missing _ hc).trans (by rw [row, andThen_refused])
    | some (.datagram dc) =>
      have row : exec (.rxbyteAppend c b) s = .refused (.wrongKind c) := onStream_of_datagram _ hc
      exact (onStream_of_datagram _ hc).trans (by rw [row, andThen_refused])
    | some (.stream ch) =>
      rcases Nat.lt_or_ge ch.len s.cfg.maxFrame with room | full
      · rw [exec_rxbyte_of_lt hc room rfl, exec_rxbyteAppend_of_lt hc b room, andThen_next, runLines_rows _ (commit_channel _ hc),
          commit_cfg, commit_commit, quiet_followedBy, quiet_ch, arms_in_turn]
      · rw [exec_rxbyte_of_le hc b full, exec_rxbyteAppend_of_le hc b full, andThen_fault]
  · rw [fallThrough_eq_rxStep pairs room]
    rfl

end Machine
end Sys2Proof
end

section
/-! PROOFS of the statements about POLL: one burst, any cut of the received bytes into lines, and that a channel in Receiving is never
wedged. -/

namespace Sys2Proof
namespace Machine

/-! ### One POLL (R150) -/

/-- POLL writes the run over the bytes it takes, and records their number. -/
theorem exec_poll_of_run {s : State} {c : Nat} {ch : StreamChannel} {e : ChannelStep} (hc : s.channels[c]? = some (.stream ch))
    (ran : run s.cfg { ch with rxq := ch.rxq.drop s.cfg.burstCap } (ch.rxq.take s.cfg.burstCap) = some e) :
    exec (.poll c) s
      = .next (give (.polled c (min ch.rxq.length s.cfg.burstCap)) { commit c e s with served := c }) := by
  simp [exec, execPoll, hc, pollStream, burstStep_eq_run, ran, Nat.min_comm]

/-- What a run on a channel just written writes. -/
theorem commit_setChannel (c : Nat) (e : ChannelStep) (x : Channel) (s : State) : commit c e (setChannel c x s) = commit c e s := by
  simp [commit_eq, setChannel]

/-- Settles O35: both are the run over the bytes taken, from the channel with the rest queued. -/
theorem pollConsumesABoundedBurst : Obligations.PollConsumesABoundedBurst := by
  intro s c ch hw hc inv
  obtain ⟨e, ran, -⟩ := run_of_inv (ch := { ch with rxq := ch.rxq.drop s.cfg.burstCap }) hw inv (ch.rxq.take s.cfg.burstCap)
  have bound : c < s.channels.length := (List.getElem?_eq_some_iff.mp hc).1
  let cut := setChannel c (.stream { ch with rxq := ch.rxq.drop s.cfg.burstCap }) s
  have received : execRxseq c (ch.rxq.take s.cfg.burstCap) cut = .next (commit c e cut) :=
    execRxseq_of_run (by simp [cut, bound]) ran
  refine ⟨_, received, ?_⟩
  rw [exec_poll_of_run hc ran, commit_setChannel]
  rfl

/-! ### Lines of one stream channel one after another (R151) -/

/-- From `s` to `t` the stream channel `c` went through `e`, with its frames and labels, and has `q` pending after. -/
structure WentThrough (c : Nat) (e : ChannelStep) (q : ByteSeq) (s t : State) : Prop where
  cfg : t.cfg = s.cfg
  channels : t.channels = s.channels.set c (.stream { e.ch with rxq := q })
  frames : t.frames = s.frames ++ e.frames.map (fun f => (c, f))
  events : t.events = s.events ++ e.events.map (fun x => (c, x))

theorem WentThrough.trans {c : Nat} {e e' : ChannelStep} {q q' : ByteSeq} {s t u : State} (h : WentThrough c e q s t)
    (k : WentThrough c e' q' t u) : WentThrough c (e.followedBy e') q' s u where
  cfg := k.cfg.trans h.cfg
  channels := by simp [k.channels, h.channels]
  frames := by simp [k.frames, h.frames]
  events := by simp [k.events, h.events]

theorem WentThrough.channel {c : Nat} {e : ChannelStep} {q : ByteSeq} {s t : State} (h : WentThrough c e q s t) {x : Channel}
    (hc : s.channels[c]? = some x) : t.channels[c]? = some (.stream { e.ch with rxq := q }) := by
  simp [h.channels, (List.getElem?_eq_some_iff.mp hc).1]

theorem wentThrough_commit (c : Nat) (e : ChannelStep) (q : ByteSeq) (s : State) :
    WentThrough c e q s (commit c { e with ch := { e.ch with rxq := q } } s) where
  cfg := commit_cfg c _ s
  channels := by rw [commit_eq]
  frames := by rw [commit_eq]
  events := by rw [commit_eq]

/-- Nothing was received, and the queue is `q` after. -/
theorem wentThrough_nothing (c : Nat) (ch : StreamChannel) (q : ByteSeq) (s : State) :
    WentThrough c (quiet ch) q s (setChannel c (.stream { ch with rxq := q }) s) where
  cfg := rfl
  channels := rfl
  frames := by simp
  events := by simp

/-- A line by which a stream channel gets or consumes bytes. -/
def MovesBytes (c : Nat) (i : Instr) : Prop :=
  i = .poll c ∨ (∃ w, i = .arrive c w) ∨ (∃ b, i = .rxbyte c b) ∨ (∃ w, i = .rxseq c w)

section Lines
variable {s : State} {c : Nat} {ch : StreamChannel} (hc : s.channels[c]? = some (.stream ch))
include hc

/-- RXSEQ, by the run from the channel with no queue. -/
theorem exec_rxseq_wentThrough {w : ByteSeq} {e : ChannelStep} (ran : run s.cfg { ch with rxq := [] } w = some e) :
    ∃ t, exec (.rxseq c w) s = .next t ∧ WentThrough c e ch.rxq s t := by
  have queued := run_with_rxq s.cfg { ch with rxq := [] } w ch.rxq
  rw [ran] at queued
  exact ⟨_, execRxseq_of_run hc queued, wentThrough_commit c e ch.rxq s⟩

theorem exec_poll_wentThrough {e : ChannelStep} (ran : run s.cfg { ch with rxq := [] } (ch.rxq.take s.cfg.burstCap) = some e) :
    ∃ t, exec (.poll c) s = .next t ∧ WentThrough c e (ch.rxq.drop s.cfg.burstCap) s t := by
  have queued := run_with_rxq s.cfg { ch with rxq := [] } (ch.rxq.take s.cfg.burstCap) (ch.rxq.drop s.cfg.burstCap)
  rw [ran] at queued
  have went := wentThrough_commit c e (ch.rxq.drop s.cfg.burstCap) s
  exact ⟨_, exec_poll_of_run hc queued, went.cfg, went.channels, went.frames, went.events⟩

/-- Each of the four kinds of line completes, by the run over the bytes it consumes. -/
theorem exec_line_wentThrough (hw : s.cfg.wf = true) (inv : ch.Inv s.cfg) {i : Instr} (hi : MovesBytes c i) :
    ∃ e t, run s.cfg { ch with rxq := [] } (lineConsumes s.cfg.burstCap c ch.rxq i).1 = some e ∧ exec i s = .next t
      ∧ WentThrough c e (lineConsumes s.cfg.burstCap c ch.rxq i).2 s t := by
  obtain ⟨e, ran, -⟩ := run_of_inv (ch := { ch with rxq := [] }) hw inv (lineConsumes s.cfg.burstCap c ch.rxq i).1
  refine ⟨e, ?_⟩
  suffices line : ∃ t, exec i s = .next t ∧ WentThrough c e (lineConsumes s.cfg.burstCap c ch.rxq i).2 s t by
    obtain ⟨t, performed, went⟩ := line
    exact ⟨t, ran, performed, went⟩
  rcases hi with rfl | ⟨w, rfl⟩ | ⟨b, rfl⟩ | ⟨w, rfl⟩ <;> simp only [lineConsumes, if_true] at ran ⊢
  · exact exec_poll_wentThrough hc ran
  · cases ran
    exact ⟨_, (arriveAppendsToTheQueue s c w).1 ch hc, wentThrough_nothing c { ch with rxq := [] } _ s⟩
  · exact exec_rxseq_wentThrough hc ran
  · exact exec_rxseq_wentThrough hc ran

end Lines

/-- Any program of such lines completes, by the run over the bytes it consumes. -/
theorem runLines_wentThrough {s : State} {c : Nat} {ch : StreamChannel} {prog : List Instr} (hw : s.cfg.wf = true)
    (hc : s.channels[c]? = some (.stream ch)) (inv : ch.Inv s.cfg) (lines : ∀ i ∈ prog, MovesBytes c i) :
    ∃ e t, run s.cfg { ch with rxq := [] } (consumed s.cfg.burstCap c ch.rxq prog).1 = some e ∧ runLines prog s = .next t
      ∧ WentThrough c e (consumed s.cfg.burstCap c ch.rxq prog).2 s t := by
  induction prog generalizing s ch with
  | nil =>
    have went := wentThrough_nothing c { ch with rxq := [] } ch.rxq s
    rw [show setChannel c (.stream ch) s = s by simp [setChannel, set_getElem?_self hc]] at went
    exact ⟨_, s, rfl, rfl, went⟩
  | cons i prog ih =>
    obtain ⟨e, u, ran, performed, went⟩ := exec_line_wentThrough hc hw inv (lines i (by simp))
    obtain ⟨e₀, ran₀, inv', queue, -⟩ := run_of_inv (ch := { ch with rxq := [] }) hw inv (lineConsumes s.cfg.burstCap c ch.rxq i).1
    cases ran.symm.trans ran₀
    have emptied : ({ e.ch with rxq := [] } : StreamChannel) = e.ch := by rw [← show e.ch.rxq = [] from queue]
    obtain ⟨e', t, ran', later, went'⟩ := ih (by rw [went.cfg]; exact hw) (went.channel hc) (by rw [went.cfg]; exact inv')
      (fun j hj => lines j (by simp [hj]))
    simp only [went.cfg, emptied] at ran' went'
    refine ⟨e.followedBy e', t, ?_, by rw [runLines_cons, performed, andThen_next, later], went.trans went'⟩
    rw [consumed, run_append, ran, Option.bind_some, ran', Option.map_some]

/-! ### What is consumed and what is left -/

section Consumed
variable (cap c : Nat)

/-- POLL takes from the head of the queue what ARRIVE put at its tail. -/
theorem consumed_of_polled {prog : List Instr} (lines : ∀ i ∈ prog, i = .poll c ∨ ∃ w, i = .arrive c w) (q : ByteSeq) :
    (consumed cap c q prog).1 ++ (consumed cap c q prog).2 = q ++ programBytes c prog := by
  induction prog generalizing q with
  | nil => simp [consumed, programBytes]
  | cons i prog ih =>
    have later := ih (fun j hj => lines j (by simp [hj])) (lineConsumes cap c q i).2
    have line : (lineConsumes cap c q i).1 ++ (lineConsumes cap c q i).2 = q ++ lineBytesFor c i := by
      rcases lines i (by simp) with rfl | ⟨w, rfl⟩ <;> simp [lineConsumes, lineBytesFor]
    rw [consumed, List.append_assoc, later, ← List.append_assoc, line, List.append_assoc]
    rfl

/-- What is left after two parts of a program is left by the second of what the first left. -/
theorem consumed_append_left (q : ByteSeq) (first later : List Instr) :
    (consumed cap c q (first ++ later)).2 = (consumed cap c (consumed cap c q first).2 later).2 := by
  induction first generalizing q with
  | nil => rfl
  | cons i first ih => exact ih (lineConsumes cap c q i).2

/-- No more is left than was pending and was given. -/
theorem length_consumed_left_le {prog : List Instr} (lines : ∀ i ∈ prog, MovesBytes c i) (q : ByteSeq) :
    (consumed cap c q prog).2.length ≤ (q ++ programBytes c prog).length := by
  induction prog generalizing q with
  | nil => simp [consumed, programBytes]
  | cons i prog ih =>
    have later := ih (fun j hj => lines j (by simp [hj])) (lineConsumes cap c q i).2
    have line : (lineConsumes cap c q i).2.length ≤ q.length + (lineBytesFor c i).length := by
      rcases lines i (by simp) with rfl | ⟨w, rfl⟩ | ⟨b, rfl⟩ | ⟨w, rfl⟩ <;> simp [lineConsumes, lineBytesFor]
    simp only [consumed, programBytes, List.flatMap_cons, List.length_append] at later ⊢
    omega

/-- Each POLL drops the cap from the queue. -/
theorem consumed_replicate_poll_left (q : ByteSeq) (n : Nat) :
    (consumed cap c q (List.replicate n (.poll c))).2 = q.drop (n * cap) := by
  induction n generalizing q with
  | zero => simp [consumed]
  | succ n ih =>
    have line : (lineConsumes cap c q (.poll c)).2 = q.drop cap := by simp [lineConsumes]
    rw [List.replicate_succ, consumed, ih, line, List.drop_drop, Nat.succ_mul, Nat.add_comm]

end Consumed

/-- Settles O37, by the run over the bytes consumed and the count of the bytes left. -/
theorem framesDoNotDependOnTheCutIntoPolls : Obligations.FramesDoNotDependOnTheCutIntoPolls := by
  intro s c prog ch hw hc inv lines
  refine ⟨?_, fun polled => consumed_of_polled _ c polled ch.rxq, ?_⟩
  · obtain ⟨e, t, ran, performed, went⟩ := runLines_wentThrough hw hc inv lines
    exact ⟨e, t, ran, performed, went.channels, went.frames, went.events⟩
  · rintro first n rfl enough
    have left := length_consumed_left_le s.cfg.burstCap c (fun i hi => lines i (by simp [hi])) ch.rxq (prog := first)
    rw [consumed_append_left, consumed_replicate_poll_left]
    exact List.drop_eq_nil_of_le (left.trans enough)

/-! ### A channel in Receiving (R159) -/

/-- The labels that end the wait of a channel in Receiving. -/
def EndsFrame (x : Event) : Prop := (∃ n, x = .resync n) ∨ (∃ f, x = .frameDone f) ∨ (∃ n, x = .overflow n)

/-- Every byte that raises no label takes one of the `MAX_FRAME - len` cells left, and the byte in the last cell raises one. -/
theorem run_reaches_label {cfg : Config} {ch : StreamChannel} {w : ByteSeq} (hw : cfg.wf = true) (inv : ch.Inv cfg)
    (receiving : ch.st = .receiving) (hl : w.length = cfg.maxFrame - ch.len) :
    ∃ u v e x, w = u ++ v ∧ run cfg ch u = some e ∧ e.events = [x] ∧ EndsFrame x := by
  have room : ch.len < cfg.maxFrame := len_lt_of_inv hw inv
  induction w generalizing ch with
  | nil =>
    rw [List.length_nil] at hl
    omega
  | cons b w ih =>
    have now {e : ChannelStep} {x : Event} (he : rxStep cfg b ch = some e) (raised : e.events = [x]) (ends : EndsFrame x) :
        ∃ u v e x, b :: w = u ++ v ∧ run cfg ch u = some e ∧ e.events = [x] ∧ EndsFrame x :=
      ⟨[b], w, e, x, rfl, by simp [run_cons, he], raised, ends⟩
    by_cases hdr : [cfg.h0, cfg.h1] <:+ ch.buf ++ [b]
    · exact now (rxStep_hdrMatch room hdr) (by simp [hdrMatchStep, receiving]; rfl) (.inl ⟨_, rfl⟩)
    by_cases ftr : [cfg.f0, cfg.f1] <:+ ch.buf ++ [b]
    · exact now (rxStep_frameDone room hdr receiving ftr) rfl (.inr (.inl ⟨_, rfl⟩))
    rcases Nat.lt_or_ge (ch.len + 1) cfg.maxFrame with notFull | full
    · have held := rxStep_accum room hdr ftr receiving notFull
      have length := len_append_byte ch b
      rw [List.length_cons] at hl
      obtain ⟨u, v, e, x, rfl, ran, raised, ends⟩ := ih (rxStep_keeps_inv hw inv held) receiving (length ▸ by omega)
        (length ▸ notFull)
      exact ⟨b :: u, v, e, x, rfl, by rw [run_cons, held, Option.bind_some, ran]; rfl, raised, ends⟩
    · exact now (rxStep_overflow room hdr ftr receiving full) rfl (.inr (.inr ⟨_, rfl⟩))

/-- Settles O60: RXSEQ of the first part is the run that raises the label. -/
theorem receivingIsNeverWedged : Obligations.ReceivingIsNeverWedged := by
  intro s c w ch hw hc inv receiving hl
  obtain ⟨u, v, e, x, cut, ran, raised, ends⟩ := run_reaches_label hw inv receiving hl
  refine ⟨u, v, _, x, cut, execRxseq_of_run hc ran, ?_, ends⟩
  rw [commit_eq, raised]
  rfl

end Machine
end Sys2Proof
end

section
/-! PROOFS of the statements about what reaches the dispatcher: raw frames that fit and that do not, resynchronisation, payloads, and
the phase of a header in Idle. -/

namespace Sys2Proof
namespace Machine

/-! ### Marker pairs as infixes -/

theorem pair_infix_iff {x y : Byte} {p : ByteSeq} : [x, y] <:+: p ↔ ∃ i, pairAt p i = some (x, y) := by
  induction p with
  | nil => simp [pairAt_nil]
  | cons a p ih =>
    rw [List.infix_cons_iff, ih, ← Nat.or_exists_add_one (p := fun i => pairAt (a :: p) i = some (x, y))]
    refine or_congr ?_ Iff.rfl
    rw [pairAt_eq_some_iff]
    cases p <;> simp [eq_comm]

theorem markerFree_iff_not_infix {cfg : Config} {p : ByteSeq} :
    MarkerFree cfg p ↔ ¬ cfg.hdrBytes <:+: p ∧ ¬ cfg.ftrBytes <:+: p := by
  simp only [markerFree_iff, Config.hdrBytes, Config.ftrBytes, pair_infix_iff, not_exists, ← forall_and]
  rfl

/-- A part of a sequence without marker pairs has none. -/
theorem markerFree_of_infix {cfg : Config} {p q : ByteSeq} (free : MarkerFree cfg p) (h : q <:+: p) : MarkerFree cfg q := by
  obtain ⟨noHdr, noFtr⟩ := markerFree_iff_not_infix.mp free
  exact markerFree_iff_not_infix.mpr ⟨fun k => noHdr (k.trans h), fun k => noFtr (k.trans h)⟩

/-- Between the header's last byte and the footer's first no new marker pair arises (P3). -/
theorem markerFree_between {cfg : Config} (hw : cfg.wf = true) {w : ByteSeq} (free : MarkerFree cfg w) :
    MarkerFree cfg (cfg.h1 :: (w ++ [cfg.f0])) := by
  obtain ⟨-, -, -, -, -, h1h0, h1f0, -, f1f0, -⟩ := (wf_iff cfg).mp hw
  refine Codec.markerFree_cons.mpr ⟨by simp [h1h0, h1f0], markerFree_append_singleton free ?_ ?_⟩
  · exact last2_eq_some_iff.not.mpr (not_pair_suffix_of_ne h1f0.symm w)
  · exact last2_eq_some_iff.not.mpr (not_pair_suffix_of_ne f1f0.symm w)

/-- No header stands in a marker-free body and the footer after it (P2, P3). -/
theorem no_header_in_tail {cfg : Config} (hw : cfg.wf = true) {w : ByteSeq} (free : MarkerFree cfg w) :
    ¬ cfg.hdrBytes <:+: w ++ cfg.ftrBytes := by
  obtain ⟨-, -, -, -, pairs, -⟩ := (wf_iff cfg).mp hw
  have noHdr : ¬ cfg.hdrBytes <:+: w ++ [cfg.f0] := fun h =>
    (markerFree_iff_not_infix.mp (markerFree_between hw free)).1 (h.trans (List.suffix_cons _ _).isInfix)
  have cut : w ++ cfg.ftrBytes = w ++ [cfg.f0] ++ [cfg.f1] := by simp [Config.ftrBytes]
  rw [cut, List.infix_concat_iff]
  rintro (last | earlier)
  · obtain ⟨e0, e1⟩ := pair_suffix_iff.mp last
    exact pairs (Prod.ext e0 e1)
  · exact noHdr earlier

/-! ### A frame in progress -/

/-- The channel in Receiving with the header and the bytes `w` after it. -/
def inFrame (cfg : Config) (w : ByteSeq) (ch : StreamChannel) : StreamChannel :=
  { ch with st := .receiving, buf := cfg.hdrBytes ++ w }

theorem len_inFrame (cfg : Config) (w : ByteSeq) (ch : StreamChannel) : (inFrame cfg w ch).len = w.length + 2 := by
  simp [inFrame, StreamChannel.len, Config.hdrBytes]

theorem run_append_of_some {cfg : Config} {ch : StreamChannel} {u v : ByteSeq} {e e' : ChannelStep} (first : run cfg ch u = some e)
    (later : run cfg e.ch v = some e') : run cfg ch (u ++ v) = some (e.followedBy e') := by
  rw [run_append, first, Option.bind_some, later, Option.map_some]

theorem run_singleton (cfg : Config) (ch : StreamChannel) (b : Byte) : run cfg ch [b] = rxStep cfg b ch := by
  rw [run_cons]
  cases rxStep cfg b ch <;> simp

section InFrame
variable {cfg : Config} {ch : StreamChannel} {w : ByteSeq}

/-- A byte that makes no marker pair with the byte before it does not end the buffer in one. -/
theorem no_marker_appended {b : Byte} (free : MarkerFree cfg (cfg.h1 :: (w ++ [b]))) :
    ¬ [cfg.h0, cfg.h1] <:+ cfg.hdrBytes ++ w ++ [b] ∧ ¬ [cfg.f0, cfg.f1] <:+ cfg.hdrBytes ++ w ++ [b] := by
  obtain ⟨noHdr, noFtr⟩ := markerFree_iff_not_infix.mp free
  have tail : cfg.h1 :: (w ++ [b]) <:+ cfg.hdrBytes ++ w ++ [b] := ⟨[cfg.h0], by simp [Config.hdrBytes]⟩
  have inTail {x y : Byte} (h : [x, y] <:+ cfg.hdrBytes ++ w ++ [b]) : [x, y] <:+ cfg.h1 :: (w ++ [b]) :=
    List.suffix_of_suffix_length_le h tail (by simp)
  exact ⟨fun h => noHdr (inTail h).isInfix, fun h => noFtr (inTail h).isInfix⟩

/-- Bytes that make no marker pair and do not fill the buffer are held. -/
theorem run_inFrame (free : MarkerFree cfg (cfg.h1 :: w)) (room : w.length + 2 < cfg.maxFrame) :
    run cfg (inFrame cfg [] ch) w = some (quiet (inFrame cfg w ch)) := by
  induction w using List.reverseRecOn with
  | nil => rfl
  | append_singleton w b ih =>
    obtain ⟨noHdr, noFtr⟩ := no_marker_appended free
    rw [List.length_append, List.length_singleton] at room
    have before := ih (markerFree_of_infix free (List.prefix_append (cfg.h1 :: w) [b]).isInfix) (by omega)
    have length := len_inFrame cfg w ch
    have held := rxStep_accum (ch := inFrame cfg w ch) (by omega) noHdr noFtr rfl (by omega)
    rw [run_append_of_some before ((run_singleton _ _ b).trans held), quiet_followedBy]
    simp [inFrame]

/-- Bytes that make no marker pair and fill the buffer overflow it with the last of them (R146). -/
theorem run_inFrame_overflow (hw : cfg.wf = true) (free : MarkerFree cfg (cfg.h1 :: w)) (full : w.length + 2 = cfg.maxFrame) :
    run cfg (inFrame cfg [] ch) w
      = some { ch := { ch with st := .idle, buf := [] }, frames := [], events := [.overflow cfg.maxFrame] } := by
  obtain ⟨-, -, -, -, -, -, -, -, -, four, -⟩ := (wf_iff cfg).mp hw
  rcases List.eq_nil_or_concat w with rfl | ⟨w, b, rfl⟩
  · rw [List.length_nil] at full
    omega
  · rw [List.concat_eq_append] at *
    obtain ⟨noHdr, noFtr⟩ := no_marker_appended free
    rw [List.length_append, List.length_singleton] at full
    have before := run_inFrame (ch := ch) (markerFree_of_infix free (List.prefix_append (cfg.h1 :: w) [b]).isInfix) (by omega)
    have length := len_inFrame cfg w ch
    have dropped := rxStep_overflow (ch := inFrame cfg w ch) (by omega) noHdr noFtr rfl (by omega)
    exact run_append_of_some before ((run_singleton _ _ b).trans dropped)

/-- A body without marker pairs that fits, and the footer, complete the frame (R145). -/
theorem run_inFrame_footer (hw : cfg.wf = true) (free : MarkerFree cfg w) (fits : w.length + 4 ≤ cfg.maxFrame) :
    run cfg (inFrame cfg [] ch) (w ++ cfg.ftrBytes)
      = some { ch := { ch with st := .idle, buf := [] }
               frames := [Codec.decode cfg (cfg.hdrBytes ++ w ++ cfg.ftrBytes)]
               events := [.frameDone (Codec.decode cfg (cfg.hdrBytes ++ w ++ cfg.ftrBytes))] } := by
  obtain ⟨-, -, -, -, pairs, -⟩ := (wf_iff cfg).mp hw
  have before := run_inFrame (ch := ch) (markerFree_between hw free) (by simp; omega)
  have length := len_inFrame cfg (w ++ [cfg.f0]) ch
  have whole : cfg.hdrBytes ++ (w ++ [cfg.f0]) ++ [cfg.f1] = cfg.hdrBytes ++ w ++ [cfg.f0] ++ [cfg.f1] := by simp
  have ftr : [cfg.f0, cfg.f1] <:+ cfg.hdrBytes ++ (w ++ [cfg.f0]) ++ [cfg.f1] := by
    rw [whole]
    exact pair_suffix_iff.mpr ⟨rfl, rfl⟩
  have noHdr : ¬ [cfg.h0, cfg.h1] <:+ cfg.hdrBytes ++ (w ++ [cfg.f0]) ++ [cfg.f1] := by
    rw [whole]
    exact fun h => pairs (Prod.ext (pair_suffix_iff.mp h).1 (pair_suffix_iff.mp h).2)
  have done := rxStep_frameDone (ch := inFrame cfg (w ++ [cfg.f0]) ch) (by simp at length; omega) noHdr rfl ftr
  have ran := run_append_of_some before ((run_singleton _ _ cfg.f1).trans done)
  have bytes : cfg.hdrBytes ++ (w ++ [cfg.f0]) ++ [cfg.f1] = cfg.hdrBytes ++ w ++ cfg.ftrBytes := by simp [Config.ftrBytes]
  have cut : w ++ cfg.ftrBytes = w ++ [cfg.f0] ++ [cfg.f1] := by simp [Config.ftrBytes]
  rw [cut, ran, ← bytes]
  rfl

end InFrame

/-! ### A header, by what is buffered before it -/

section Header
variable {cfg : Config} {ch : StreamChannel} (hw : cfg.wf = true)
include hw

/-- The header's first byte ends no marker (P3), so where there is room it waits for the second. -/
theorem run_header (room : ch.len + 1 < cfg.maxFrame) (phase : ch.st = .idle → ch.len ≤ 1) :
    run cfg ch cfg.hdrBytes = some (hdrMatchStep cfg { ch with buf := ch.buf ++ [cfg.h0] ++ [cfg.h1] }) := by
  obtain ⟨-, -, -, -, -, h1h0, -, f1h0, -⟩ := (wf_iff cfg).mp hw
  have noHdr : ¬ [cfg.h0, cfg.h1] <:+ ch.buf ++ [cfg.h0] := not_pair_suffix_of_ne h1h0.symm _
  have noFtr : ¬ [cfg.f0, cfg.f1] <:+ ch.buf ++ [cfg.h0] := not_pair_suffix_of_ne f1h0.symm _
  have held : rxStep cfg cfg.h0 ch = some (quiet { ch with buf := ch.buf ++ [cfg.h0] }) := by
    have st : ch.st = .idle ∨ ch.st = .receiving := by cases ch.st <;> simp
    rcases st with idle | receiving
    · exact rxStep_idleHold (by omega) noHdr idle (phase idle)
    · exact rxStep_accum (by omega) noHdr noFtr receiving room
  have length := len_append_byte ch cfg.h0
  have matched := rxStep_hdrMatch (ch := { ch with buf := ch.buf ++ [cfg.h0] }) (length ▸ room) (pair_suffix_iff.mpr ⟨rfl, rfl⟩)
  exact run_append_of_some ((run_singleton cfg ch cfg.h0).trans held) ((run_singleton cfg _ cfg.h1).trans matched)

theorem run_header_of_idle (idle : ch.st = .idle) (phase : ch.len ≤ 1) :
    run cfg ch cfg.hdrBytes = some { ch := inFrame cfg [] ch, frames := [], events := [.frameStart] } := by
  obtain ⟨-, -, -, -, -, -, -, -, -, four, -⟩ := (wf_iff cfg).mp hw
  rw [run_header hw (by omega) fun _ => phase]
  simp [hdrMatchStep, idle, inFrame, StreamChannel.keepHeader]

theorem run_header_inFrame {w : ByteSeq} (fits : w.length + 4 ≤ cfg.maxFrame) :
    run cfg (inFrame cfg w ch) cfg.hdrBytes
      = some { ch := inFrame cfg [] ch, frames := [], events := [.resync (w.length + 2)] } := by
  have length := len_inFrame cfg w ch
  rw [run_header hw (by omega) (by rintro ⟨⟩)]
  simp [hdrMatchStep, inFrame, StreamChannel.keepHeader, StreamChannel.len, Config.hdrBytes]

/-- At phase two the first byte of the header is dropped with the two before it (R153). -/
theorem run_header_of_idle_full (idle : ch.st = .idle) (phase : ch.len = 2) :
    run cfg ch cfg.hdrBytes = some { ch := { ch with buf := [cfg.h1] }, frames := [], events := [.idleDiscard 3] } := by
  obtain ⟨-, -, -, -, -, h1h0, -, -, -, four, -⟩ := (wf_iff cfg).mp hw
  have noHdr : ¬ [cfg.h0, cfg.h1] <:+ ch.buf ++ [cfg.h0] := not_pair_suffix_of_ne h1h0.symm _
  have dropped := rxStep_idleDiscard (by omega) noHdr idle phase
  have waits := rxStep_of_idle_nil (ch := { ch with buf := [] }) hw idle rfl cfg.h1
  exact run_append_of_some ((run_singleton cfg ch cfg.h0).trans dropped) ((run_singleton cfg _ cfg.h1).trans waits)

end Header

/-! ### Raw frames (R154, R155) -/

theorem eq_of_idle_nil {ch : StreamChannel} (idle : ch.st = .idle) (empty : ch.buf = []) : { ch with st := .idle, buf := [] } = ch := by
  rw [← idle, ← empty]

theorem len_of_nil {ch : StreamChannel} (empty : ch.buf = []) : ch.len = 0 := by simp [StreamChannel.len, empty]

/-- A run that leaves the channel as it was adds its frames and its labels and changes nothing else. -/
theorem execRxseq_of_run_same {s : State} {c : Nat} {ch : StreamChannel} {w : ByteSeq} {e : ChannelStep}
    (hc : s.channels[c]? = some (.stream ch)) (ran : run s.cfg ch w = some e) (same : e.ch = ch) :
    execRxseq c w s = .next { s with
      frames := s.frames ++ e.frames.map (fun f => (c, f))
      events := s.events ++ e.events.map (fun x => (c, x)) } := by
  rw [execRxseq_of_run hc ran, commit_eq, same, set_getElem?_self hc]

section RawFrames
variable {cfg : Config} {ch : StreamChannel} {w : ByteSeq} (hw : cfg.wf = true) (idle : ch.st = .idle) (empty : ch.buf = [])
  (free : MarkerFree cfg w)
include hw idle empty free

theorem run_rawFrame (fits : w.length + 4 ≤ cfg.maxFrame) :
    run cfg ch (cfg.hdrBytes ++ w ++ cfg.ftrBytes)
      = some { ch := ch
               frames := [Codec.decode cfg (cfg.hdrBytes ++ w ++ cfg.ftrBytes)]
               events := [.frameStart, .frameDone (Codec.decode cfg (cfg.hdrBytes ++ w ++ cfg.ftrBytes))] } := by
  have started := run_header_of_idle hw idle ((len_of_nil empty).trans_le (by omega))
  have ran := run_append_of_some started (run_inFrame_footer hw free fits)
  rw [eq_of_idle_nil idle empty] at ran
  rw [List.append_assoc cfg.hdrBytes w, ran]
  simp [ChannelStep.followedBy]

theorem run_rawFrame_overflow (long : cfg.maxFrame < w.length + 4) :
    run cfg ch ((cfg.hdrBytes ++ w ++ cfg.ftrBytes).take cfg.maxFrame)
      = some { ch := ch, frames := [], events := [.frameStart, .overflow cfg.maxFrame] } := by
  obtain ⟨-, -, -, -, -, -, -, -, -, four, -⟩ := (wf_iff cfg).mp hw
  have started := run_header_of_idle hw idle ((len_of_nil empty).trans_le (by omega))
  let body := (w ++ cfg.ftrBytes).take (cfg.maxFrame - 2)
  have length : body.length + 2 = cfg.maxFrame := by
    simp [body, Config.ftrBytes]
    omega
  have part : body <+: w ++ [cfg.f0] := by
    have whole : w ++ [cfg.f0] <+: w ++ cfg.ftrBytes := ⟨[cfg.f1], by simp [Config.ftrBytes]⟩
    exact List.prefix_of_prefix_length_le (List.take_prefix _ _) whole (by simp; omega)
  have bodyFree : MarkerFree cfg (cfg.h1 :: body) :=
    markerFree_of_infix (markerFree_between hw free) ((List.prefix_cons_inj cfg.h1).mpr part).isInfix
  have ran := run_append_of_some started (run_inFrame_overflow hw bodyFree length)
  rw [eq_of_idle_nil idle empty] at ran
  have cut : (cfg.hdrBytes ++ w ++ cfg.ftrBytes).take cfg.maxFrame = cfg.hdrBytes ++ body := by
    have two : cfg.hdrBytes.length = 2 := rfl
    rw [List.append_assoc, List.take_append, List.take_of_length_le (by omega), two]
  rw [cut, ran]
  rfl

end RawFrames

/-- Settles O54: the header starts the frame, the body is held, the footer completes it. -/
theorem rawFrameThatFitsIsDelivered : Obligations.RawFrameThatFitsIsDelivered := by
  intro s c w ch hw hc idle empty free fits
  exact execRxseq_of_run_same hc (run_rawFrame hw idle empty free fits) rfl

/-- Settles O56: the second header resynchronises, and the second part is then a frame of its own. -/
theorem secondHeaderRestartsTheFrame : Obligations.SecondHeaderRestartsTheFrame := by
  intro s c u w ch hw hc idle empty freeU freeW fitsU fitsW
  have held : MarkerFree s.cfg (s.cfg.h1 :: u) :=
    markerFree_of_infix (markerFree_between hw freeU) (List.prefix_append (s.cfg.h1 :: u) [s.cfg.f0]).isInfix
  have started := run_header_of_idle hw idle ((len_of_nil empty).trans_le (by omega))
  have first := run_append_of_some started (run_inFrame held (by omega))
  have again := run_append_of_some first (run_header_inFrame hw fitsU)
  have ran := run_append_of_some again (run_inFrame_footer hw freeW fitsW)
  rw [← List.append_assoc] at ran
  exact execRxseq_of_run_same hc ran (eq_of_idle_nil idle empty)

end Machine
end Sys2Proof
end

section
/-! PROOFS of the statements about what does not reach the dispatcher whole: the phase of a header in Idle, frames that are too long, and
payloads with marker pairs. -/

namespace Sys2Proof
namespace Machine

/-! ### Where a frame or a label of a run comes from -/

/-- Everything that RXBYTE can do on a channel: there was room, and the selected outcome acted on the buffer with the byte appended. -/
theorem rxStep_eq_some {cfg : Config} {ch : StreamChannel} {b : Byte} {e : ChannelStep} (h : rxStep cfg b ch = some e) :
    ch.len < cfg.maxFrame
      ∧ e = outcomeStep cfg (selectOutcome cfg { ch with buf := ch.buf ++ [b] }) { ch with buf := ch.buf ++ [b] } := by
  rcases Nat.lt_or_ge ch.len cfg.maxFrame with room | full
  · rw [rxStep_of_lt b room] at h
    exact ⟨room, (Option.some.inj h).symm⟩
  · rw [rxStep_of_le b full] at h
    cases h

/-- No outcome keeps bytes that were not the last ones of the buffer. -/
theorem rxStep_buf_suffix {cfg : Config} {ch : StreamChannel} {b : Byte} {e : ChannelStep} (h : rxStep cfg b ch = some e) :
    e.ch.buf <:+ ch.buf ++ [b] := by
  obtain ⟨-, rfl⟩ := rxStep_eq_some h
  rcases selectOutcome_cases cfg { ch with buf := ch.buf ++ [b] } with ⟨ho, hdr⟩ | ⟨ho, -⟩ | ⟨ho, -⟩ | ⟨ho, -⟩ | ⟨ho, -⟩ | ⟨ho, -⟩
    <;> rw [ho]
  · exact last2_eq_some_iff.mp hdr
  · exact List.nil_suffix
  · exact List.suffix_refl _
  · exact List.nil_suffix
  · exact List.nil_suffix
  · exact List.suffix_refl _

/-- A frame is dispatched by a footer in Receiving, and is the decoded buffer. -/
theorem dispatched_by_rxStep {cfg : Config} {ch : StreamChannel} {b : Byte} {e : ChannelStep} {f : ByteSeq}
    (h : rxStep cfg b ch = some e) (hf : f ∈ e.frames) :
    ch.st = .receiving ∧ [cfg.f0, cfg.f1] <:+ ch.buf ++ [b] ∧ f = Codec.decode cfg (ch.buf ++ [b]) := by
  obtain ⟨-, rfl⟩ := rxStep_eq_some h
  rcases selectOutcome_cases cfg { ch with buf := ch.buf ++ [b] } with ⟨ho, -⟩ | ⟨ho, -⟩ | ⟨ho, -⟩ | ⟨ho, -, receiving, ftr⟩ | ⟨ho, -⟩
    | ⟨ho, -⟩ <;> rw [ho] at hf
  case inr.inr.inr.inl => exact ⟨receiving, last2_eq_some_iff.mp ftr, List.mem_singleton.mp hf⟩
  all_goals cases hf

/-- A frame is started by a header. -/
theorem header_of_frameStart {cfg : Config} {ch : StreamChannel} {b : Byte} {e : ChannelStep} (h : rxStep cfg b ch = some e)
    (started : .frameStart ∈ e.events) : cfg.hdrBytes <:+ ch.buf ++ [b] := by
  obtain ⟨-, rfl⟩ := rxStep_eq_some h
  rcases selectOutcome_cases cfg { ch with buf := ch.buf ++ [b] } with ⟨ho, hdr⟩ | ⟨ho, -⟩ | ⟨ho, -⟩ | ⟨ho, -⟩ | ⟨ho, -⟩ | ⟨ho, -⟩
    <;> rw [ho] at started
  case inl => exact last2_eq_some_iff.mp hdr
  all_goals simp [outcomeStep, idleDiscardStep, frameDoneStep, overflowStep] at started

/-- One RXBYTE of a run over `w` from `ch`: the buffer with the byte appended is a part of what was buffered and received. -/
def StepOfRun (cfg : Config) (ch : StreamChannel) (w : ByteSeq) (d : ChannelStep) : Prop :=
  ∃ x b, x.Inv cfg ∧ rxStep cfg b x = some d ∧ x.buf ++ [b] <:+: ch.buf ++ w

/-- Every frame and every label of a run is of one of its steps. -/
theorem arises_in_step {cfg : Config} {ch : StreamChannel} {w : ByteSeq} {e : ChannelStep} (hw : cfg.wf = true) (inv : ch.Inv cfg)
    (ran : run cfg ch w = some e) :
    (∀ f ∈ e.frames, ∃ d, StepOfRun cfg ch w d ∧ f ∈ d.frames) ∧ (∀ x ∈ e.events, ∃ d, StepOfRun cfg ch w d ∧ x ∈ d.events) := by
  induction w generalizing ch e with
  | nil =>
    cases ran
    exact ⟨nofun, nofun⟩
  | cons b w ih =>
    obtain ⟨d, step⟩ := rxStep_isSome_of_inv b hw inv
    rw [run_cons, step, Option.bind_some] at ran
    obtain ⟨e', ran', rfl⟩ := Option.map_eq_some_iff.mp ran
    have here : StepOfRun cfg ch (b :: w) d := ⟨ch, b, inv, step, ⟨[], w, by simp⟩⟩
    have later {d' : ChannelStep} (h : StepOfRun cfg d.ch w d') : StepOfRun cfg ch (b :: w) d' := by
      obtain ⟨x, y, invX, stepX, part⟩ := h
      obtain ⟨front, kept⟩ := rxStep_buf_suffix step
      have tail : d.ch.buf ++ w <:+ ch.buf ++ b :: w := ⟨front, by rw [← List.append_assoc, kept]; simp⟩
      exact ⟨x, y, invX, stepX, part.trans tail.isInfix⟩
    obtain ⟨frames, events⟩ := ih (rxStep_keeps_inv hw inv step) ran'
    refine ⟨fun f hf => ?_, fun x hx => ?_⟩
    · rcases List.mem_append.mp hf with hf | hf
      · exact ⟨d, here, hf⟩
      · obtain ⟨d', h, hf⟩ := frames f hf
        exact ⟨d', later h, hf⟩
    · rcases List.mem_append.mp hx with hx | hx
      · exact ⟨d, here, hx⟩
      · obtain ⟨d', h, hx⟩ := events x hx
        exact ⟨d', later h, hx⟩

/-- Without a header in the bytes no frame starts. -/
theorem no_frameStart_of_no_header {cfg : Config} {ch : StreamChannel} {w : ByteSeq} {e : ChannelStep} (hw : cfg.wf = true)
    (inv : ch.Inv cfg) (ran : run cfg ch w = some e) (noHdr : ¬ cfg.hdrBytes <:+: ch.buf ++ w) : .frameStart ∉ e.events := by
  intro started
  obtain ⟨d, ⟨x, b, -, step, part⟩, hd⟩ := (arises_in_step hw inv ran).2 _ started
  exact noHdr ((header_of_frameStart step hd).isInfix.trans part)

/-! ### Bytes that start no frame (R153) -/

/-- In Idle bytes that start no frame are held and dropped by threes. -/
theorem run_of_no_frameStart {cfg : Config} {ch : StreamChannel} {w : ByteSeq} {e : ChannelStep} (hw : cfg.wf = true)
    (inv : ch.Inv cfg) (idle : ch.st = .idle) (ran : run cfg ch w = some e) (noStart : .frameStart ∉ e.events) :
    e.ch.st = .idle ∧ e.ch.len = (ch.len + w.length) % 3 ∧ e.frames = [] := by
  have two : ch.len ≤ 2 := (inv.1 idle).1
  induction w generalizing ch e with
  | nil =>
    cases ran
    exact ⟨idle, (Nat.mod_eq_of_lt (by simpa using Nat.lt_succ_of_le two)).symm, rfl⟩
  | cons b w ih =>
    have room : ch.len < cfg.maxFrame := len_lt_of_inv hw inv
    obtain ⟨d, step⟩ := rxStep_isSome_of_inv b hw inv
    rw [run_cons, step, Option.bind_some] at ran
    obtain ⟨e', ran', rfl⟩ := Option.map_eq_some_iff.mp ran
    obtain ⟨noneHere, noneLater⟩ : .frameStart ∉ d.events ∧ .frameStart ∉ e'.events := by
      simpa only [followedBy_events, List.mem_append, not_or] using noStart
    have noHdr : ¬ [cfg.h0, cfg.h1] <:+ ch.buf ++ [b] := by
      intro hdr
      obtain rfl : hdrMatchStep cfg _ = d := Option.some.inj ((rxStep_hdrMatch room hdr).symm.trans step)
      simp [hdrMatchStep, idle] at noneHere
    obtain ⟨idle', length, frames⟩ : d.ch.st = .idle ∧ d.ch.len % 3 = (ch.len + 1) % 3 ∧ d.frames = [] := by
      rcases Nat.lt_or_ge ch.len 2 with short | long
      · obtain rfl := Option.some.inj ((rxStep_idleHold room noHdr idle (by omega)).symm.trans step)
        exact ⟨idle, congrArg (· % 3) (len_append_byte ch b), rfl⟩
      · have full : ch.len = 2 := by omega
        obtain rfl := Option.some.inj ((rxStep_idleDiscard room noHdr idle full).symm.trans step)
        exact ⟨idle, by simp [StreamChannel.len, show ch.buf.length = 2 from full], rfl⟩
    have inv' := rxStep_keeps_inv hw inv step
    obtain ⟨endsIdle, phase, noFrames⟩ := ih inv' idle' ran' noneLater (inv'.1 idle').1
    refine ⟨endsIdle, ?_, by simp [frames, noFrames]⟩
    rw [followedBy_ch, phase, List.length_cons]
    omega

theorem run_of_no_frameStart_from_nil {cfg : Config} {ch : StreamChannel} {w : ByteSeq} {e : ChannelStep} (hw : cfg.wf = true)
    (idle : ch.st = .idle) (empty : ch.buf = []) (ran : run cfg ch w = some e) (noStart : .frameStart ∉ e.events) :
    e.ch.st = .idle ∧ e.ch.len = w.length % 3 ∧ e.frames = [] := by
  have phase := run_of_no_frameStart hw (inv_of_idle_nil idle empty) idle ran noStart
  rwa [len_of_nil empty, Nat.zero_add] at phase

/-- In Idle a header is found unless two bytes are held before it, and then its second byte is left (R153). -/
theorem run_header_by_phase {cfg : Config} {ch : StreamChannel} (hw : cfg.wf = true) (idle : ch.st = .idle) (two : ch.len ≤ 2) :
    ∃ e, run cfg ch cfg.hdrBytes = some e ∧ e.frames = [] ∧ (e.ch.st = .receiving ↔ ch.len ≠ 2)
      ∧ (ch.len ≠ 2 → e.ch.buf = [cfg.h0, cfg.h1]) ∧ (ch.len = 2 → e.ch.buf = [cfg.h1]) := by
  rcases Nat.lt_or_eq_of_le two with short | full
  · exact ⟨_, run_header_of_idle hw idle (by omega), rfl, by simp [inFrame]; omega, fun _ => rfl, by omega⟩
  · exact ⟨_, run_header_of_idle_full hw idle full, rfl, by simp [idle, full], absurd full, fun _ => rfl⟩

/-- Settles O59: the bytes before the header leave their number modulo 3 in the buffer, which decides what the header does. -/
theorem idleHeaderIsLostAtPhaseTwo : Obligations.IdleHeaderIsLostAtPhaseTwo := by
  intro s t c w ch es hw hc idle empty h events noStart
  obtain ⟨e, ran, -⟩ := run_of_inv hw (inv_of_idle_nil idle empty) w
  obtain rfl : commit c e s = t := Host.Outcome.next.inj ((execRxseq_of_run hc ran).symm.trans h)
  obtain rfl : e.events.map (fun x => (c, x)) = es := by simpa [commit_eq] using events
  obtain ⟨idle', phase, noFrames⟩ :=
    run_of_no_frameStart_from_nil hw idle empty ran fun started => noStart (List.mem_map_of_mem started)
  obtain ⟨e', header, frames, byPhase⟩ := run_header_by_phase hw idle' (by omega)
  rw [phase] at byPhase
  exact ⟨_, e'.ch, execRxseq_of_run hc (run_append_of_some ran header), commit_channel _ hc, by simp [commit_eq, noFrames, frames],
    byPhase⟩

/-! ### Frames that are too long (R155, R202) -/

/-- Settles O55: the buffer fills with byte MAX_FRAME, and no header stands in the bytes after it. -/
theorem rawFrameThatIsTooLongIsDropped : Obligations.RawFrameThatIsTooLongIsDropped := by
  intro s c w ch hw hc idle empty free long
  obtain ⟨-, -, -, -, -, -, -, -, -, four, -⟩ := (wf_iff s.cfg).mp hw
  let whole := s.cfg.hdrBytes ++ w ++ s.cfg.ftrBytes
  have dropped : run s.cfg ch (whole.take s.cfg.maxFrame) = _ := run_rawFrame_overflow hw idle empty free long
  obtain ⟨e, rest, -⟩ := run_of_inv hw (inv_of_idle_nil idle empty) (whole.drop s.cfg.maxFrame)
  have ran := run_append_of_some dropped rest
  rw [List.take_append_drop] at ran
  have behind : whole.drop s.cfg.maxFrame <:+ w ++ s.cfg.ftrBytes := by
    have tail : w ++ s.cfg.ftrBytes <:+ whole := ⟨s.cfg.hdrBytes, by simp [whole]⟩
    exact List.suffix_of_suffix_length_le (List.drop_suffix _ _) tail (by simp [whole, Config.hdrBytes]; omega)
  have noHdr : ¬ s.cfg.hdrBytes <:+: ch.buf ++ whole.drop s.cfg.maxFrame := by
    rw [empty, List.nil_append]
    exact fun h => no_header_in_tail hw free (h.trans behind.isInfix)
  have noStart := no_frameStart_of_no_header hw (inv_of_idle_nil idle empty) rest noHdr
  obtain ⟨idle', phase, noFrames⟩ := run_of_no_frameStart_from_nil hw idle empty rest noStart
  have length : (whole.drop s.cfg.maxFrame).length = w.length + 4 - s.cfg.maxFrame := by
    simp [whole, Config.hdrBytes, Config.ftrBytes]
  refine ⟨(execRxseq_of_run_same hc dropped rfl).trans (by simp), _, e.ch, execRxseq_of_run hc ran, ?_, commit_channel _ hc, idle',
    length ▸ phase⟩
  simp [commit_eq, noFrames]

/-! ### Payloads (R156) -/

section Payload
variable {cfg : Config}

/-- A byte that is not the escape byte is copied whether an escape is open before it or not, and none is open after it. -/
theorem decode_append_cons {x : Byte} (hx : x ≠ cfg.esc) (u v : ByteSeq) :
    Codec.decode cfg (u ++ x :: v) = Codec.decode cfg u ++ x :: Codec.decode cfg v := by
  induction u using Codec.decode.induct cfg with
  | case1 => exact Codec.decode_cons cfg hx v
  | case2 => simp
  | case3 b hb => rw [List.singleton_append, Codec.decode_cons cfg hb, Codec.decode_cons cfg hx, Codec.decode_cons cfg hb]; rfl
  | case4 b rest ih => simp [ih]
  | case5 b b' rest hb ih => rw [List.cons_append, Codec.decode_cons cfg hb, ih, Codec.decode_cons cfg hb]; rfl

/-- A part that begins and ends in bytes other than the escape byte is decoded by itself. -/
theorem decode_append_part {x y : Byte} (hx : x ≠ cfg.esc) (hy : y ≠ cfg.esc) (u m v : ByteSeq) :
    Codec.decode cfg (u ++ (x :: (m ++ [y])) ++ v)
      = Codec.decode cfg u ++ Codec.decode cfg (x :: (m ++ [y])) ++ Codec.decode cfg v := by
  have bytes : u ++ (x :: (m ++ [y])) ++ v = u ++ x :: (m ++ y :: v) := by simp
  rw [bytes, decode_append_cons hx, decode_append_cons hy, Codec.decode_cons cfg hx, decode_append_cons hy]
  simp

/-- What TXFRAME gives decodes to the payload between the markers (R114, R156). -/
theorem decode_txFrame (hw : cfg.wf = true) (p : ByteSeq) :
    Codec.decode cfg (Codec.txFrame cfg p) = cfg.hdrBytes ++ p ++ cfg.ftrBytes := by
  obtain ⟨e0, e1, e2, e3, -⟩ := (wf_iff cfg).mp hw
  have noEsc : cfg.esc ∉ cfg.hdrBytes := by simp [Config.hdrBytes, e0, e1]
  have ftr : Codec.decode cfg (Codec.encode cfg p ++ cfg.ftrBytes) = p ++ cfg.ftrBytes := by
    rw [Config.ftrBytes, decode_append_cons e2.symm, Codec.decode_encode, Codec.decode_cons cfg e3.symm, Codec.decode_nil]
  rw [Codec.txFrame, List.append_assoc, Codec.decode_append_of_notMem cfg noEsc, ftr, List.append_assoc]

/-- A delimited part of a delimited sequence that decodes to the same is the whole: what stands before it would begin with the header's
first byte, what stands after it would end with the footer's last, and neither is dropped (P1). -/
theorem eq_of_decode_eq_of_infix (hw : cfg.wf = true) {m q : ByteSeq}
    (part : cfg.hdrBytes ++ m ++ cfg.ftrBytes <:+: cfg.hdrBytes ++ q ++ cfg.ftrBytes)
    (same : Codec.decode cfg (cfg.hdrBytes ++ m ++ cfg.ftrBytes) = Codec.decode cfg (cfg.hdrBytes ++ q ++ cfg.ftrBytes)) :
    cfg.hdrBytes ++ m ++ cfg.ftrBytes = cfg.hdrBytes ++ q ++ cfg.ftrBytes := by
  obtain ⟨e0, -, -, e3, -⟩ := (wf_iff cfg).mp hw
  obtain ⟨u, v, whole⟩ := part
  have shape : cfg.hdrBytes ++ m ++ cfg.ftrBytes = cfg.h0 :: (cfg.h1 :: m ++ [cfg.f0] ++ [cfg.f1]) := by
    simp [Config.hdrBytes, Config.ftrBytes]
  have parts := decode_append_part e0.symm e3.symm u (cfg.h1 :: m ++ [cfg.f0]) v
  rw [← shape, whole, ← same] at parts
  have lengths := congrArg List.length parts
  simp only [List.length_append] at lengths
  have before : u = [] := by
    match u with
    | [] => rfl
    | x :: u =>
      obtain rfl : x = cfg.h0 := (List.cons.inj whole).1
      rw [Codec.decode_cons cfg e0.symm, List.length_cons] at lengths
      omega
  have after : v = [] := by
    rcases List.eq_nil_or_concat v with rfl | ⟨v, y, rfl⟩
    · rfl
    · rw [List.concat_eq_append] at *
      have last := congrArg List.getLast? whole
      obtain rfl : y = cfg.f1 := by simpa [← List.append_assoc, Config.ftrBytes] using last
      rw [decode_append_cons e3.symm, List.length_append, List.length_cons] at lengths
      omega
  simpa [before, after] using whole

end Payload

/-- Settles O57: the escaped payload is a body without marker pairs (R119), and decodes to the payload. -/
theorem payloadWithoutMarkersArrivesIntact : Obligations.PayloadWithoutMarkersArrivesIntact := by
  intro s c p ch hw hc idle empty free fits
  have escapedFree := (Codec.markerFree_encode_iff hw p).mpr free
  have ran := run_rawFrame hw idle empty escapedFree (by rwa [Codec.length_encode])
  have decoded := decode_txFrame hw p
  rw [Codec.txFrame] at decoded
  rw [decoded] at ran
  exact execRxseq_of_run_same hc ran rfl

/-- Settles O58: the frame is a decoded part of the bytes sent, so it is the whole of them; they filled the buffer up to the last byte
without making a marker pair. -/
theorem onlyPayloadsWithoutMarkersArriveIntact : Obligations.OnlyPayloadsWithoutMarkersArriveIntact := by
  intro s t c p ch hw hc idle empty h frames
  have inv : ch.Inv s.cfg := inv_of_idle_nil idle empty
  obtain ⟨e, ran, -⟩ := run_of_inv hw inv (Codec.txFrame s.cfg p)
  obtain rfl : commit c e s = t := Host.Outcome.next.inj ((execRxseq_of_run hc ran).symm.trans h)
  have arrived : s.cfg.hdrBytes ++ p ++ s.cfg.ftrBytes ∈ e.frames := by
    have added : e.frames.map (fun f => (c, f)) = [(c, s.cfg.hdrBytes ++ p ++ s.cfg.ftrBytes)] :=
      List.append_cancel_left ((congrArg State.frames (commit_eq c e s)).symm.trans frames)
    obtain ⟨f, hf, hcf⟩ := List.mem_map.mp (added ▸ List.mem_singleton_self _)
    exact (Prod.mk.inj hcf).2 ▸ hf
  obtain ⟨d, ⟨x, b, invX, step, part⟩, hd⟩ := (arises_in_step hw inv ran).1 _ arrived
  obtain ⟨receiving, ftr, decoded⟩ := dispatched_by_rxStep step hd
  obtain ⟨m, delimited⟩ := delimited_of_footer hw (invX.2 receiving) ftr
  rw [empty, List.nil_append, delimited] at part
  rw [delimited, ← decode_txFrame hw] at decoded
  have whole := eq_of_decode_eq_of_infix hw part decoded.symm
  have buffered : x.buf = s.cfg.hdrBytes ++ (Codec.encode s.cfg p ++ [s.cfg.f0]) := by
    have bytes : x.buf ++ [b] = s.cfg.hdrBytes ++ (Codec.encode s.cfg p ++ [s.cfg.f0]) ++ [s.cfg.f1] := by
      rw [delimited, whole]
      simp [Config.ftrBytes]
    exact (List.append_inj' bytes rfl).1
  obtain ⟨-, room, -, free⟩ := invX.2 receiving
  refine ⟨(Codec.markerFree_encode_iff hw p).mp (markerFree_of_infix free ?_), ?_⟩
  · exact ⟨[s.cfg.h1], [s.cfg.f0], by simp [buffered, Config.hdrBytes]⟩
  · have length : x.len = Codec.escLen s.cfg p + 3 := by
      simp [StreamChannel.len, buffered, Config.hdrBytes, ← Codec.length_encode]
    omega

end Machine
end Sys2Proof
end

section
/-! PROOFS of the statements about datagram channels (42_datagram.md): which datagrams are dispatched, that every payload that fits
arrives, and what a POLL handles. -/

namespace Sys2Proof
namespace Machine

/-! ### One datagram (R180) -/

theorem pair_prefix_iff {x y : Byte} {p : ByteSeq} : [x, y] <+: p ↔ pairAt p 0 = some (x, y) := by
  match p with
  | [] => simp [pairAt]
  | [a] => simp [pairAt]
  | a :: b :: p => simp [pairAt_cons_zero, eq_comm]

/-- The four tests of R180, said through the delimiters. -/
theorem datagramAccepted_iff_delimited {cfg : Config} {d : ByteSeq} :
    datagramAccepted cfg d = true
      ↔ 4 ≤ d.length ∧ d.length ≤ cfg.maxFrame ∧ [cfg.h0, cfg.h1] <+: d ∧ [cfg.f0, cfg.f1] <:+ d := by
  rw [datagramAccepted_iff, pair_prefix_iff, ← last2_eq_some_iff]
  rfl

theorem exec_rxdgram {s : State} {c : Nat} {dc : DatagramChannel} (hc : s.channels[c]? = some (.datagram dc)) (d : ByteSeq) :
    exec (.rxdgram c d) s = .next (receiveDatagram c d s) := by
  simp [exec, execRxdgram, hc]

/-- Settles O40: the tests made are the tests stated, and each of the two answers to them writes one history. -/
theorem datagramIsValidatedWhole : Obligations.DatagramIsValidatedWhole := by
  intro s c d dc hc
  rw [exec_rxdgram hc, ← datagramAccepted_iff_delimited]
  rcases receiveDatagram_cases c d s with ⟨accepted, hr⟩ | ⟨dropped, hr⟩
  · exact ⟨fun _ => congrArg _ hr, fun h => absurd accepted h⟩
  · exact ⟨fun h => absurd h (by simp [dropped]), fun _ => congrArg _ hr⟩

/-- Settles O41: the encoded payload between the markers is accepted, whatever pairs it holds, and decodes to the payload between
them. -/
theorem datagramCarriesEveryPayload : Obligations.DatagramCarriesEveryPayload := by
  intro s c p dc hw hc fits
  have length : (Codec.txFrame s.cfg p).length = Codec.escLen s.cfg p + 4 := by
    simp [Codec.txFrame, Config.hdrBytes, Config.ftrBytes, Codec.length_encode]
  have hdr : [s.cfg.h0, s.cfg.h1] <+: Codec.txFrame s.cfg p := ⟨_, (List.append_assoc ..).symm⟩
  have ftr : [s.cfg.f0, s.cfg.f1] <:+ Codec.txFrame s.cfg p := List.suffix_append ..
  have dispatched := (datagramIsValidatedWhole s c (Codec.txFrame s.cfg p) dc hc).1 ⟨by omega, by omega, hdr, ftr⟩
  rw [decode_txFrame hw] at dispatched
  exact dispatched

/-! ### A POLL of datagrams (R182) -/

/-- RXDGRAM of one datagram after another handles the list of them. -/
theorem runLines_rxdgram {s : State} {c : Nat} {dc : DatagramChannel} (hc : s.channels[c]? = some (.datagram dc))
    (ds : List ByteSeq) :
    runLines (ds.map (.rxdgram c)) s = .next (ds.foldl (fun t d => receiveDatagram c d t) s) := by
  induction ds generalizing s with
  | nil => rfl
  | cons d ds ih =>
    rw [List.map_cons, runLines_cons, exec_rxdgram hc, andThen_next, ih (by rwa [receiveDatagram_channels]), List.foldl_cons]

theorem exec_poll_datagram {s : State} {c : Nat} {dc : DatagramChannel} (hc : s.channels[c]? = some (.datagram dc)) :
    exec (.poll c) s = pollDatagram c dc s := by
  simp [exec, execPoll, hc]

/-- Settles O36: the number handled is the free value, cut to the number pending; RXDGRAM of the first so many is the loop of POLL. -/
theorem pollOfDatagramsHandlesSomeInOrder : Obligations.PollOfDatagramsHandlesSomeInOrder := by
  intro s c dc hc
  let n := Config.datagramsPerPoll c dc.draws
  let k := (dc.pending.take n).length
  have handled : dc.pending.take k = dc.pending.take n := (List.prefix_iff_eq_take.mp (List.take_prefix n _)).symm
  have left : dc.pending.drop k = dc.pending.drop n := by
    have whole := (List.take_append_drop k dc.pending).trans (List.take_append_drop n dc.pending).symm
    rw [handled] at whole
    exact List.append_cancel_left whole
  let later : DatagramChannel := { pending := dc.pending.drop k, draws := dc.draws + 1 }
  have bound : c < s.channels.length := (List.getElem?_eq_some_iff.mp hc).1
  have cut : ({ setChannel c (.datagram later) s with served := c } : State).channels[c]? = some (.datagram later) := by
    simp [bound]
  refine ⟨k, _, List.length_take_le' .., runLines_rxdgram cut _, ?_⟩
  rw [exec_poll_datagram hc, handled]
  simp only [later, left]
  rfl

end Machine
end Sys2Proof
end

section
/-! PROOFS. RESET and DISPATCH on a channel that exists (43_system.md R190, R191). -/

namespace Sys2Proof
namespace Machine

variable {s : State} {c : Nat}

theorem exec_reset_stream {ch : StreamChannel} (hc : s.channels[c]? = some (.stream ch)) :
    exec (.reset c) s = .next (setChannel c (.stream { ch.clear with st := .idle }) s) := by
  simp [exec, execReset, hc]

theorem exec_reset_datagram {dc : DatagramChannel} (hc : s.channels[c]? = some (.datagram dc)) :
    exec (.reset c) s = .next s := by
  simp [exec, execReset, hc]

theorem exec_dispatch {x : Channel} (hc : s.channels[c]? = some x) (f : ByteSeq) :
    exec (.dispatch c f) s = .next (dispatch c f s) := by
  simp [exec, execDispatch, hc]

/-- Settles O42: `clear` and `setChannel` write the channel that the statement writes out. -/
theorem resetReturnsTheChannelToIdle : Obligations.ResetReturnsTheChannelToIdle := by
  intro s c
  constructor
  · intro ch hc
    rw [exec_reset_stream hc, setChannel, StreamChannel.clear]
  · intro dc hc
    exact exec_reset_datagram hc

/-- Settles O43: the channel exists, and `dispatch` writes the trace alone. -/
theorem dispatchOnlyAddsToTheTrace : Obligations.DispatchOnlyAddsToTheTrace := by
  intro s c f bound
  rw [exec_dispatch (List.getElem?_eq_getElem bound), dispatch]

end Machine
end Sys2Proof
end

section
/-! PROOFS of the statements about what cannot go wrong (60_exceptions.md): from the invariant no step faults and a POLL of a stream
channel always goes on, and an escape byte left open at the end of the data is dropped. -/

namespace Sys2Proof
namespace Machine

/-! ### No operation faults (R200) -/

/-- An operation that does not fault from a state within the invariant. -/
def FaultFree (f : State → Answer) : Prop := ∀ s r, s.Inv → f s ≠ .fault r

/-- R24 leaves room for the byte on every stream channel (R89). -/
theorem receive_faultFree (c : Nat) (b : Byte) : FaultFree (receive c b) := by
  intro s r inv
  unfold receive
  match hc : s.channels[c]? with
  | none =>
    rw [onStream_of_missing _ hc]
    nofun
  | some (.datagram dc) =>
    rw [onStream_of_datagram _ hc]
    nofun
  | some (.stream ch) =>
    obtain ⟨e, he⟩ := rxStep_isSome_of_inv b inv.cfgWf (inv.stream hc)
    rw [onStream_of_some hc he]
    nofun

/-- Each byte is received from a state within the invariant, since those before it kept it. -/
theorem execRxseq_faultFree (c : Nat) (w : ByteSeq) : FaultFree (execRxseq c w) := by
  induction w with
  | nil => nofun
  | cons b w ih =>
    intro s r inv
    rw [execRxseq_cons]
    cases received : receive c b s with
    | next u => exact ih u r (receive_keepsInv c b s u inv received)
    | fault r' => exact absurd received (receive_faultFree c b s r' inv)
    | refused r' => nofun

/-- The burst of a POLL is a run, which goes to the end from R24. -/
theorem execPoll_faultFree (c : Nat) : FaultFree (execPoll c) := by
  intro s r inv
  match hc : s.channels[c]? with
  | none => simp [execPoll, hc]
  | some (.datagram dc) => simp [execPoll, hc, pollDatagram]
  | some (.stream ch) =>
    obtain ⟨e, ran, -⟩ := run_of_inv (ch := { ch with rxq := ch.rxq.drop s.cfg.burstCap }) inv.cfgWf (inv.stream hc :)
      (ch.rxq.take s.cfg.burstCap)
    have performed : execPoll c s = _ := exec_poll_of_run hc ran
    rw [performed]
    nofun

theorem execRxdgram_faultFree (c : Nat) (d : ByteSeq) : FaultFree (execRxdgram c d) := by
  intro s r inv
  unfold execRxdgram
  split <;> nofun

theorem execReset_faultFree (c : Nat) : FaultFree (execReset c) := by
  intro s r inv
  unfold execReset
  split <;> nofun

theorem execArrive_faultFree (c : Nat) (bs : ByteSeq) : FaultFree (execArrive c bs) := by
  intro s r inv
  unfold execArrive
  split <;> nofun

theorem exec_symbol_faultFree {i : Instr} (hi : i.isSymbol = true) : FaultFree (exec i) := by
  intro s r inv
  rw [exec_symbol_eq_execRxseq hi]
  exact execRxseq_faultFree s.served _ s r inv

/-- The codec operations answer a next state at once; each other line is one of the operations above. -/
theorem exec_line_faultFree {i : Instr} (hi : i.isProgramLine = true) : FaultFree (exec i) := by
  cases i <;> cases hi
  case esclen p => nofun
  case encode p => nofun
  case decode b => nofun
  case txframe p => nofun
  case rxbyte c b => exact receive_faultFree c b
  case poll c => exact execPoll_faultFree c
  case rxdgram c d => exact execRxdgram_faultFree c d
  case reset c => exact execReset_faultFree c
  case rxseq c bs => exact execRxseq_faultFree c bs
  case arrive c bs => exact execArrive_faultFree c bs

/-! ### Steps from the invariant -/

/-- Whatever is fetched is a line or a symbol, and runs at a state within the invariant. -/
theorem fetch_keeps_inv {s u : State} {i : Instr} (inv : s.Inv) (h : fetch s = .run i u) :
    (i.isProgramLine = true ∨ i.isSymbol = true) ∧ u.Inv := by
  rcases fetch_eq_run h with ⟨rest, hi, rfl⟩ | ⟨rfl, rfl⟩ | ⟨b, ch, n, hp, hc, hn, hi, rfl⟩
  · exact ⟨.inl hi, inv.of_same rfl rfl rfl⟩
  · exact ⟨.inl rfl, inv.setPolling none nofun⟩
  · exact ⟨.inr hi, takeBytes_keeps_inv inv hp hc hn⟩

/-- A step faults only where the instruction that it fetched does. -/
theorem step_eq_fault {s : State} {r : Fault} (h : step s = .fault r) : ∃ i u, fetch s = .run i u ∧ exec i u = .fault r := by
  rw [step_eq_answer] at h
  split at h
  · cases hf : fetch s with
    | run i u => exact ⟨i, u, rfl, by rwa [hf] at h⟩
    | still u => rw [hf] at h; cases h
    | stop r' => rw [hf] at h; cases h
  · cases h

theorem step_faultFree : FaultFree step := by
  intro s r inv h
  obtain ⟨i, u, hf, hu⟩ := step_eq_fault h
  obtain ⟨hi | hi, inv'⟩ := fetch_keeps_inv inv hf
  · exact exec_line_faultFree hi u r inv' hu
  · exact exec_symbol_faultFree hi u r inv' hu

/-- A POLL in progress on a stream channel ends where it may take no more bytes; else the symbol there is received. -/
theorem step_of_stream_poll {s : State} {b : Burst} {ch : StreamChannel} (inv : s.Inv) (hp : s.polling = some b)
    (hc : s.channels[s.served]? = some (.stream ch)) : ∃ t, step s = .next t := by
  cases hd : decodeSymbol s.cfg (ch.rxq.take b.left) with
  | error r => exact ⟨_, step_of_no_byte inv.cfgWf hp hc (eq_nil_of_decodeSymbol_error hd)⟩
  | ok p =>
    let bytes := encode s.cfg p.1
    obtain ⟨e, ran, -⟩ := run_of_inv (ch := { ch with rxq := ch.rxq.drop bytes.length }) inv.cfgWf (inv.stream hc :) bytes
    have received := execRxseq_of_run (takeBytes_channel bytes.length ch b s hc) ran
    exact ⟨_, (step_symbol_eq_execRxseq inv.cfgWf hp hc hd).trans received⟩

/-- Settles O48: no line and no symbol faults, and the decoder of symbols rejects only the empty stream. -/
theorem noStepFaultsAndNoByteIsRefused : Obligations.NoStepFaultsAndNoByteIsRefused :=
  fun s inv => ⟨fun r => step_faultFree s r inv, fun _ _ hp hc => step_of_stream_poll inv hp hc⟩

/-! ### An escape byte left open (R203) -/

/-- ENCODE leaves no escape open, so what follows its output is decoded by itself. -/
theorem Codec.decode_encode_append (cfg : Config) (p v : ByteSeq) :
    Codec.decode cfg (Codec.encode cfg p ++ v) = p ++ Codec.decode cfg v := by
  induction p with
  | nil => rfl
  | cons x p ih =>
    rw [Codec.encode_cons, List.append_assoc, List.cons_append, ← ih]
    cases trigger : needsEsc cfg (x :: p) 0 with
    | true => exact Codec.decode_esc_cons cfg x _
    | false => exact Codec.decode_cons cfg (Codec.ne_esc_of_not_needsEsc cfg trigger) _

/-- Settles O21: the escape byte is decoded by itself, to nothing. -/
theorem truncatedEscapeIsDropped : Obligations.TruncatedEscapeIsDropped := by
  intro p s
  rw [exec_decode, Codec.decode_encode_append, Codec.decode_esc_nil, List.append_nil]

end Machine
end Sys2Proof
end
